-- ==== Sys2Proof/Word.lean ====
section
/-! DEFINITION. The word types of the block (00_scope.md R8, R11): every data quantity is an unsigned
8-bit value, a single bit, or a small counter. -/

namespace Sys2Proof

/-- An unsigned 8-bit value (R11); bit 7 is the most significant (R8). -/
abbrev Byte := BitVec 8

/-- A single bit or the level of a wire; `true` is 1 (R8, R21). -/
abbrev Bit := Bool

end Sys2Proof
end

