-- ==== Sys2Proof/Config.lean ====
section
/-! DEFINITION. What an implementation fixes (00_scope.md R7) and the free values.

`Params` holds every parameter of R7 whose status is OPEN or a decision. The machine takes it as an argument: it is a
field of State that no step writes, so a statement about every state is a statement about every value of every
parameter. `Config.reference` is only the value it has in State.reset (notes/assumptions 1 and 2, UNSAFE there). -/

namespace Sys2Proof

/-- PUTS_WRAP_POLICY (R7, R176): when LCD_PUTS re-addresses at a row end. -/
inductive WrapPolicy where
  | deferred   -- `lazy`: before the character that follows a row end
  | eager      -- right after the character that ends a row
  deriving DecidableEq, Repr

/-- IRQ_ORDER (R7, R226): which of two takeable requests is taken first. -/
inductive IrqOrder where
  | timerFirst
  | edgeFirst
  deriving DecidableEq, Repr

/-- The displayed fields of the software clock (R33). -/
inductive ClockField where
  | ms
  | sec
  | min
  deriving DecidableEq, Repr

/-- The parameters of R7, and which of the reference slaves are on the bus (95_test_vectors.md section 0, "absent"). -/
structure Params where
  /-- BUS_OPEN_DRAIN (R51, D4). -/
  busOpenDrain : Bool
  /-- EE_SETTLE_MS (R131). -/
  eeSettleMs : Nat
  /-- IOX_ADDR_W (R91). -/
  ioxAddrW : Byte
  /-- IOX_ADDR_R (R91). -/
  ioxAddrR : Byte
  /-- LCD_PORT_ADDR (R65): where the window sits; no rule reads it. -/
  lcdPortAddr : Nat
  /-- LCD_MODE_ADDR (R65): where the window sits; no rule reads it. -/
  lcdModeAddr : Nat
  /-- CMD_FS_WAKE (R171). -/
  cmdFsWake : Byte
  /-- CMD_FS_FINAL (R171). -/
  cmdFsFinal : Byte
  /-- CMD_DISPLAY_OFF (R171). -/
  cmdDisplayOff : Byte
  /-- CMD_CLEAR (R171). -/
  cmdClear : Byte
  /-- CMD_ENTRY_INC (R171). -/
  cmdEntryInc : Byte
  /-- CMD_HOME (R171). -/
  cmdHome : Byte
  /-- T_FS1 (R171), milliseconds. -/
  tFs1 : Nat
  /-- T_FS2 (R171), milliseconds. -/
  tFs2 : Nat
  /-- T_FS3 (R171), milliseconds. -/
  tFs3 : Nat
  /-- T_CMD[4] (R171), milliseconds. -/
  tCmd4 : Nat
  /-- T_CMD[5] (R171), milliseconds. -/
  tCmd5 : Nat
  /-- T_CMD[6] (R171), milliseconds. -/
  tCmd6 : Nat
  /-- T_CMD[7] (R171), milliseconds. -/
  tCmd7 : Nat
  /-- T_CMD[8] (R171), milliseconds. -/
  tCmd8 : Nat
  /-- PUTS_WRAP_POLICY (R176, D12). -/
  putsWrap : WrapPolicy
  /-- CLK_COL (R95). -/
  clkCol : Nat
  /-- TMR_RELOAD (R233). -/
  tmrReload : Nat
  /-- TMR_PERIOD (R224, R233): a time, and the model has none; no rule reads it. -/
  tmrPeriod : Nat
  /-- EDGE_ROW (R203). -/
  edgeRow : Byte
  /-- EDGE_COL (R203). -/
  edgeCol : Byte
  /-- EDGE_FMT (R203): entry c is edge_text(c). -/
  edgeFmt : List (List Byte)
  /-- EDGE_RENDER_GUARDED (R203, D24). -/
  edgeRenderGuarded : Bool
  /-- IRQ_ORDER (R226). -/
  irqOrder : IrqOrder
  /-- The order of CLK_READ's three reads, which the source does not give (R195). -/
  clkReadOrder : List ClockField
  /-- The reference EEPROM is on the bus (R66). -/
  eePresent : Bool
  /-- The reference expander is on the bus (R68). -/
  ioxPresent : Bool
  deriving DecidableEq, Repr

namespace Config

/-- Who draws a free value. -/
inductive Source where
  | bus    -- the wires and the slaves
  | lcd    -- the LCD module
  | core   -- the sequencers and the clock's render
  deriving DecidableEq, Repr

/-- A free value (10_state.md R41, 93_implementation_defined.md `any value`): w bits under no law. The source and `n` tell
one draw from another. It has no body, so nothing can be proved of what it is (notes/assumptions/5). -/
opaque any (k : Source) (w n : Nat) : BitVec w

/-- How many micro-steps one step of the machine runs at most before it answers (notes/assumptions/9); an operation
that needs more goes on in the next step, from the same SEQ. -/
def quantum : Nat := 4096

/-- BLANK, what clear-display leaves in every visible cell (20_memory.md R60). PRESUMED, notes/assumptions/25. -/
def blank : Byte := 0x20#8

/-- What a CGRAM or EEPROM cell that nothing has written reads as. DESIGN CHOICE, unsafe: notes/assumptions/4. -/
def unwritten : Byte := 0x00#8

/-- The parameter instance of State.reset: the bracketed hints of R7 and the instance of 95_test_vectors.md section 0.
PRESUMED and DESIGN CHOICE, unsafe: notes/assumptions/1, notes/assumptions/2. -/
def reference : Params where
  busOpenDrain := true
  eeSettleMs := 5
  ioxAddrW := 0x40#8
  ioxAddrR := 0x41#8
  lcdPortAddr := 0
  lcdModeAddr := 1
  cmdFsWake := 0x30#8
  cmdFsFinal := 0x38#8
  cmdDisplayOff := 0x08#8
  cmdClear := 0x01#8
  cmdEntryInc := 0x06#8
  cmdHome := 0x02#8
  tFs1 := 5
  tFs2 := 1
  tFs3 := 1
  tCmd4 := 1
  tCmd5 := 1
  tCmd6 := 2
  tCmd7 := 1
  tCmd8 := 2
  putsWrap := .deferred
  clkCol := 0
  tmrReload := 0
  tmrPeriod := 9
  edgeRow := 0#8
  edgeCol := 15#8
  edgeFmt :=
    [[0x30#8], [0x31#8], [0x32#8], [0x33#8], [0x34#8], [0x35#8], [0x36#8], [0x37#8],
     [0x38#8], [0x39#8], [0x41#8], [0x42#8], [0x43#8], [0x44#8], [0x45#8], [0x46#8]]
  edgeRenderGuarded := true
  irqOrder := .timerFirst
  clkReadOrder := [.min, .sec, .ms]
  eePresent := true
  ioxPresent := true

end Config

end Sys2Proof
end

