-- ==== Sys2Proof/Syntax.lean ====
section
/-! DEFINITION. The operation set: one constructor per row of spec/opcode_table.json, operands as the row
lists them. Requests and handlers: 00_scope.md R2, 30_encoding.md R81, R82. Pseudo-operations: R97. Bytes of
the wire and of the LCD window: R89 to R94, 10_state.md R25, 20_memory.md R60. Operands of a request are whole
unsigned bytes (R83), so a value outside the source's range can be written down; WellFormed.lean says which
ones lie in range. -/

namespace Sys2Proof

/-- One row of the opcode table, with its operands. -/
inductive Instr where
  /-- BUS_START, request 0x00 (R111). -/
  | busStart
  /-- BUS_STOP, request 0x01 (R112). -/
  | busStop
  /-- BUS_SEND, request 0x02 (R114). -/
  | busSend (value : Byte)
  /-- BUS_RECV, request 0x03 (R116). -/
  | busRecv
  /-- BUS_NOACK, request 0x04 (R117). -/
  | busNoack
  /-- EE_WRITE, request 0x10 (R131). -/
  | eeWrite (page offset data : Byte)
  /-- EE_READ, request 0x11 (R132). -/
  | eeRead (page offset : Byte)
  /-- IOX_CFG, request 0x18 (R141). -/
  | ioxCfg (mask : Byte)
  /-- IOX_READ, request 0x19 (R142). -/
  | ioxRead
  /-- LCD_CMDWR, request 0x20 (R150). -/
  | lcdCmdwr (byte : Byte)
  /-- LCD_DATAWR, request 0x21 (R151). -/
  | lcdDatawr (byte : Byte)
  /-- LCD_STATRD, request 0x22 (R152). -/
  | lcdStatrd
  /-- LCD_WAIT, request 0x23 (R153). -/
  | lcdWait
  /-- LCD_INIT, request 0x28 (R171). -/
  | lcdInit
  /-- LCD_GOTO, request 0x29 (R173). -/
  | lcdGoto (row column : Byte)
  /-- LCD_PUTC, request 0x2A (R174). -/
  | lcdPutc (code : Byte)
  /-- LCD_PUTS, request 0x2B (R176, R85). -/
  | lcdPuts (text : List Byte)
  /-- LCD_GLYPH, request 0x2C (R179). -/
  | lcdGlyph (slot : Byte) (rows : Vector Byte 8)
  /-- CLK_START, request 0x30 (R191). -/
  | clkStart
  /-- CLK_STOP, request 0x31 (R192). -/
  | clkStop
  /-- CLK_RESET, request 0x32 (R193). -/
  | clkReset
  /-- CLK_READ, request 0x33 (R195). -/
  | clkRead
  /-- EDGE_READ, request 0x38 (R201). -/
  | edgeRead
  /-- EDGE_RESET, request 0x39 (R202). -/
  | edgeReset
  /-- TIMER_ISR, event code 0xF0 (R197, R82). -/
  | timerIsr
  /-- EDGE_ISR, event code 0xF1 (R203, R82). -/
  | edgeIsr
  /-- CLK_RESUME, another name of CLK_START (R97). -/
  | clkResume
  /-- CLK_RESTART, the two requests CLK_RESET; CLK_START (R97, R194). -/
  | clkRestart
  /-- EE_CTRL_BYTE, the first byte of an EEPROM transaction (R89). -/
  | eeCtrlByte (page : BitVec 3) (rw : Bit)
  /-- IOX_ADDR_W, the expander's write-address byte (R91). -/
  | ioxAddrW
  /-- IOX_ADDR_R, the expander's read-address byte (R91). -/
  | ioxAddrR
  /-- LCD_MODE, the two-bit latch of the window (R25). -/
  | lcdMode (rs rw : Bit)
  /-- SET_DDRAM_ADDR, command byte `1aaaaaaa` (R92). -/
  | setDdramAddr (a : BitVec 7)
  /-- SET_CGRAM_ADDR, command byte `01sssrrr` (R92). -/
  | setCgramAddr (slot row : BitVec 3)
  /-- CMD_FS_WAKE, the function-set byte sent three times (R60, R171). -/
  | cmdFsWake
  /-- CMD_FS_FINAL, the function-set byte fixing width, lines and font (R60, R171). -/
  | cmdFsFinal
  /-- CMD_DISPLAY_OFF (R60, R171). -/
  | cmdDisplayOff
  /-- CMD_CLEAR (R60, R171). -/
  | cmdClear
  /-- CMD_ENTRY_INC (R60, R171). -/
  | cmdEntryInc
  /-- CMD_HOME (R60, R171). -/
  | cmdHome
  /-- LCD_STATUS, the byte `baaaaaaa` read through the window (R93). -/
  | lcdStatus
  /-- LCD_DATA_DD, a data byte that is a character code (R94). -/
  | lcdDataDd (code : Byte)
  /-- LCD_DATA_CG, a data byte `xxxppppp` that is a glyph row (R94). -/
  | lcdDataCg (ignored : BitVec 3) (pattern : BitVec 5)
  deriving DecidableEq, Repr

end Sys2Proof
end

