-- ==== Sys2Proof/WellFormed.lean ====
section
/-! DEFINITION. Which operations have all operands in the source's ranges (30_encoding.md R83, R85, R87), and which
parameter values meet the spec's constraints (00_scope.md R7, 20_memory.md R60, R65). -/

namespace Sys2Proof

/-- Every operand lies in the range the operation's rule gives it. LCD_GOTO takes any two bytes (R87: out of range is a
legal request). A text holds at most 255 characters (R85). -/
def Instr.wellFormed : Instr → Bool
  | .eeWrite page _ _ => decide (page.toNat ≤ 7)
  | .eeRead page _ => decide (page.toNat ≤ 7)
  | .lcdGlyph slot _ => decide (slot.toNat ≤ 7)
  | .lcdPuts text => decide (text.length ≤ 255)
  | .busStart | .busStop | .busSend _ | .busRecv | .busNoack | .ioxCfg _ | .ioxRead | .lcdCmdwr _ | .lcdDatawr _
  | .lcdStatrd | .lcdWait | .lcdInit | .lcdGoto _ _ | .lcdPutc _ | .clkStart | .clkStop | .clkReset | .clkRead
  | .edgeRead | .edgeReset | .timerIsr | .edgeIsr | .clkResume | .clkRestart | .eeCtrlByte _ _ | .ioxAddrW | .ioxAddrR
  | .lcdMode _ _ | .setDdramAddr _ | .setCgramAddr _ _ | .cmdFsWake | .cmdFsFinal | .cmdDisplayOff | .cmdClear
  | .cmdEntryInc | .cmdHome | .lcdStatus | .lcdDataDd _ | .lcdDataCg _ _ => true

/-- The six named command bytes (R92). -/
def Params.commandBytes (p : Params) : List Byte :=
  [p.cmdFsWake, p.cmdFsFinal, p.cmdDisplayOff, p.cmdClear, p.cmdEntryInc, p.cmdHome]

/-- R60: each of the six bytes has bits 7:6 = 0b00. -/
def Params.commandsInRange (p : Params) : Bool :=
  p.commandBytes.all fun v => decide (v.toNat < 0x40)

/-- R60: the six bytes are decodable apart, except that CMD_FS_WAKE may equal CMD_FS_FINAL. -/
def Params.commandsApart (p : Params) : Bool :=
  decide [p.cmdFsWake, p.cmdDisplayOff, p.cmdClear, p.cmdEntryInc, p.cmdHome].Nodup &&
  decide [p.cmdFsFinal, p.cmdDisplayOff, p.cmdClear, p.cmdEntryInc, p.cmdHome].Nodup

/-- R65: the expander's address bytes differ and neither lies in 0xA0..0xAF. -/
def Params.expanderApart (p : Params) : Bool :=
  decide (p.ioxAddrW ≠ p.ioxAddrR) &&
  decide (p.ioxAddrW.extractLsb 7 4 ≠ 0b1010#4) && decide (p.ioxAddrR.extractLsb 7 4 ≠ 0b1010#4)

/-- R7, R193: the seven clock cells fit the row. -/
def Params.clockFits (p : Params) : Bool := decide (p.clkCol ≤ 9)

/-- R203: edge_text gives one or more codes for each of 0..15. -/
def Params.edgeTextTotal (p : Params) : Bool :=
  decide (p.edgeFmt.length = 16) && p.edgeFmt.all fun t => decide (t ≠ [])

/-- R195: CLK_READ reads each of the three fields once. -/
def Params.readsEachField (p : Params) : Bool :=
  decide (p.clkReadOrder.length = 3) && [ClockField.ms, .sec, .min].all fun f => decide (f ∈ p.clkReadOrder)

/-- The constraints the spec puts on the parameters (R7, R60, R65, R193, R195, R203). -/
def Params.legal (p : Params) : Bool :=
  p.commandsInRange && p.commandsApart && p.expanderApart && p.clockFits && p.edgeTextTotal && p.readsEachField

end Sys2Proof
end

