-- ==== Sys2Proof/Decode.lean ====
section
/-! DEFINITION. The decoders and the encoder (30_encoding.md). A request stream is decoded by its opcode byte alone
(R80, R81, R85, R86). The other rows of the opcode table are no requests: a handler's event code, a byte of the wire
or a byte of the LCD window means something only where it stands, so its decoder is told the format (R82, R89 to
R94). -/

namespace Sys2Proof

/-- What the request decoder says of a byte string (R85, R86). -/
inductive Decoded where
  /-- A request and the bytes after it. -/
  | request (i : Instr) (rest : List Byte)
  /-- The opcode byte is reserved: verdict `invalid` (R86). -/
  | invalid (opcode : Byte)
  /-- The stream ends inside a request (R85). -/
  | truncated (opcode : Byte)
  /-- The stream is exhausted (R252). -/
  | exhausted
  deriving DecidableEq, Repr

/-- A request without operands (R81). -/
def decodeNone (i : Instr) (r : List Byte) : Decoded := .request i r

/-- A request with one operand byte (R81, R83). -/
def decodeOne (op : Byte) (f : Byte → Instr) : List Byte → Decoded
  | a :: r => .request (f a) r
  | _ => .truncated op

/-- A request with two operand bytes. -/
def decodeTwo (op : Byte) (f : Byte → Byte → Instr) : List Byte → Decoded
  | a :: b :: r => .request (f a b) r
  | _ => .truncated op

/-- A request with three operand bytes. -/
def decodeThree (op : Byte) (f : Byte → Byte → Byte → Instr) : List Byte → Decoded
  | a :: b :: c :: r => .request (f a b c) r
  | _ => .truncated op

/-- LCD_GLYPH: slot, then eight row bytes (R85). -/
def decodeGlyph (op : Byte) : List Byte → Decoded
  | s :: r0 :: r1 :: r2 :: r3 :: r4 :: r5 :: r6 :: r7 :: r => .request (.lcdGlyph s #v[r0, r1, r2, r3, r4, r5, r6, r7]) r
  | _ => .truncated op

/-- LCD_PUTS: a length byte n, then n character bytes (R85). -/
def decodePuts (op : Byte) : List Byte → Decoded
  | n :: r => if n.toNat ≤ r.length then .request (.lcdPuts (r.take n.toNat)) (r.drop n.toNat) else .truncated op
  | _ => .truncated op

/-- The opcode map (R81); every other opcode byte is reserved (R86). -/
def decodeOpcode (op : Byte) (r : List Byte) : Decoded :=
  if op = 0x00#8 then decodeNone .busStart r
  else if op = 0x01#8 then decodeNone .busStop r
  else if op = 0x02#8 then decodeOne op .busSend r
  else if op = 0x03#8 then decodeNone .busRecv r
  else if op = 0x04#8 then decodeNone .busNoack r
  else if op = 0x10#8 then decodeThree op .eeWrite r
  else if op = 0x11#8 then decodeTwo op .eeRead r
  else if op = 0x18#8 then decodeOne op .ioxCfg r
  else if op = 0x19#8 then decodeNone .ioxRead r
  else if op = 0x20#8 then decodeOne op .lcdCmdwr r
  else if op = 0x21#8 then decodeOne op .lcdDatawr r
  else if op = 0x22#8 then decodeNone .lcdStatrd r
  else if op = 0x23#8 then decodeNone .lcdWait r
  else if op = 0x28#8 then decodeNone .lcdInit r
  else if op = 0x29#8 then decodeTwo op .lcdGoto r
  else if op = 0x2A#8 then decodeOne op .lcdPutc r
  else if op = 0x2B#8 then decodePuts op r
  else if op = 0x2C#8 then decodeGlyph op r
  else if op = 0x30#8 then decodeNone .clkStart r
  else if op = 0x31#8 then decodeNone .clkStop r
  else if op = 0x32#8 then decodeNone .clkReset r
  else if op = 0x33#8 then decodeNone .clkRead r
  else if op = 0x38#8 then decodeNone .edgeRead r
  else if op = 0x39#8 then decodeNone .edgeReset r
  else .invalid op

/-- The first request of a stream (R80, R85). -/
def decode : List Byte → Decoded
  | [] => .exhausted
  | op :: r => decodeOpcode op r

/-- Where a byte that is no request stands: the "format" column of the opcode table. LCD_DATA is split by the memory the
module has selected, which is what tells its two rows apart (R94). -/
inductive Format where
  | request
  | event
  | pseudo
  | wireBus
  | windowLatch
  | lcdCmd
  | lcdRead
  | lcdDataDd
  | lcdDataCg
  deriving DecidableEq, Repr

/-- R82: the event codes. -/
def decodeEvent (b : Byte) : Option Instr :=
  if b = 0xF0#8 then some .timerIsr else if b = 0xF1#8 then some .edgeIsr else none

/-- R89: `1010pppr`. -/
def decodeControlByte (b : Byte) : Option Instr :=
  if b.extractLsb 7 4 = 0b1010#4 then some (.eeCtrlByte (b.extractLsb 3 1) (b.getLsbD 0)) else none

/-- The first byte of a bus transaction (R89, R91). -/
def decodeWire (p : Params) (b : Byte) : Option Instr :=
  match decodeControlByte b with
  | some i => some i
  | none => if b = p.ioxAddrW then some .ioxAddrW else if b = p.ioxAddrR then some .ioxAddrR else none

/-- R25: the two-bit latch, in the low bits of the byte. -/
def decodeLatch (b : Byte) : Option Instr :=
  if b.extractLsb 7 2 = 0#6 then some (.lcdMode (b.getLsbD 1) (b.getLsbD 0)) else none

/-- An LCD command byte (R60, R92). -/
def decodeCommand (p : Params) (b : Byte) : Option Instr :=
  if b.getLsbD 7 then some (.setDdramAddr (b.extractLsb 6 0))
  else if b.getLsbD 6 then some (.setCgramAddr (b.extractLsb 5 3) (b.extractLsb 2 0))
  else if b = p.cmdClear then some .cmdClear
  else if b = p.cmdHome then some .cmdHome
  else if b = p.cmdEntryInc then some .cmdEntryInc
  else if b = p.cmdDisplayOff then some .cmdDisplayOff
  else if b = p.cmdFsWake then some .cmdFsWake
  else if b = p.cmdFsFinal then some .cmdFsFinal
  else none

/-- A byte that is no request, read in its format (R82, R89 to R94). -/
def decodeAs (p : Params) (f : Format) (b : Byte) : Option Instr :=
  match f with
  | .request => none
  | .pseudo => if b = 0x30#8 then some .clkResume else none
  | .event => decodeEvent b
  | .wireBus => decodeWire p b
  | .windowLatch => decodeLatch b
  | .lcdCmd => decodeCommand p b
  | .lcdRead => some .lcdStatus
  | .lcdDataDd => some (.lcdDataDd b)
  | .lcdDataCg => some (.lcdDataCg (b.extractLsb 7 5) (b.extractLsb 4 0))

/-- The format of each row (opcode table, "format"). -/
def formatOf : Instr → Format
  | .busStart | .busStop | .busSend _ | .busRecv | .busNoack | .eeWrite _ _ _ | .eeRead _ _ | .ioxCfg _ | .ioxRead
  | .lcdCmdwr _ | .lcdDatawr _ | .lcdStatrd | .lcdWait | .lcdInit | .lcdGoto _ _ | .lcdPutc _ | .lcdPuts _
  | .lcdGlyph _ _ | .clkStart | .clkStop | .clkReset | .clkRead | .edgeRead | .edgeReset => .request
  | .timerIsr | .edgeIsr => .event
  | .clkResume | .clkRestart => .pseudo
  | .eeCtrlByte _ _ | .ioxAddrW | .ioxAddrR => .wireBus
  | .lcdMode _ _ => .windowLatch
  | .setDdramAddr _ | .setCgramAddr _ _ | .cmdFsWake | .cmdFsFinal | .cmdDisplayOff | .cmdClear | .cmdEntryInc
  | .cmdHome => .lcdCmd
  | .lcdStatus => .lcdRead
  | .lcdDataDd _ => .lcdDataDd
  | .lcdDataCg _ _ => .lcdDataCg

/-- The bytes of an operation in its format (R81, R82, R89 to R94, R97). LCD_STATUS is the byte the module answers with,
so nothing is written for it (R93). -/
def encode (p : Params) : Instr → List Byte
  | .busStart => [0x00#8]
  | .busStop => [0x01#8]
  | .busSend v => [0x02#8, v]
  | .busRecv => [0x03#8]
  | .busNoack => [0x04#8]
  | .eeWrite page offset data => [0x10#8, page, offset, data]
  | .eeRead page offset => [0x11#8, page, offset]
  | .ioxCfg mask => [0x18#8, mask]
  | .ioxRead => [0x19#8]
  | .lcdCmdwr b => [0x20#8, b]
  | .lcdDatawr b => [0x21#8, b]
  | .lcdStatrd => [0x22#8]
  | .lcdWait => [0x23#8]
  | .lcdInit => [0x28#8]
  | .lcdGoto row column => [0x29#8, row, column]
  | .lcdPutc c => [0x2A#8, c]
  | .lcdPuts text => 0x2B#8 :: BitVec.ofNat 8 text.length :: text
  | .lcdGlyph slot rows => 0x2C#8 :: slot :: rows.toList
  | .clkStart => [0x30#8]
  | .clkStop => [0x31#8]
  | .clkReset => [0x32#8]
  | .clkRead => [0x33#8]
  | .edgeRead => [0x38#8]
  | .edgeReset => [0x39#8]
  | .timerIsr => [0xF0#8]
  | .edgeIsr => [0xF1#8]
  | .clkResume => [0x30#8]
  | .clkRestart => [0x32#8, 0x30#8]
  | .eeCtrlByte page rw => [0b1010#4 ++ page ++ BitVec.ofBool rw]
  | .ioxAddrW => [p.ioxAddrW]
  | .ioxAddrR => [p.ioxAddrR]
  | .lcdMode rs rw => [0#6 ++ BitVec.ofBool rs ++ BitVec.ofBool rw]
  | .setDdramAddr a => [0b1#1 ++ a]
  | .setCgramAddr slot row => [0b01#2 ++ slot ++ row]
  | .cmdFsWake => [p.cmdFsWake]
  | .cmdFsFinal => [p.cmdFsFinal]
  | .cmdDisplayOff => [p.cmdDisplayOff]
  | .cmdClear => [p.cmdClear]
  | .cmdEntryInc => [p.cmdEntryInc]
  | .cmdHome => [p.cmdHome]
  | .lcdStatus => []
  | .lcdDataDd code => [code]
  | .lcdDataCg x pattern => [x ++ pattern]

/-- The status byte `baaaaaaa` (R61, R93). -/
def statusByte (bf : Bit) (ac : BitVec 7) : Byte := BitVec.ofBool bf ++ ac

/-- The longest request, in bytes: LCD_PUTS with 255 characters (R85). -/
def longestRequest : Nat := 257

/-- The bytes of a table word, the first byte in bits 7..0, zeros above `nbits` up to the longest request. -/
def tableBytes (nbits w : Nat) : List Byte :=
  (List.range longestRequest).map fun k => BitVec.ofNat 8 ((w % 2 ^ nbits) >>> (8 * k))

/-- The two requests CLK_RESET, CLK_START, one after the other (R97). -/
def restartPair (a b : Byte) : Option Instr :=
  match decode [a, b] with
  | .request .clkReset [c] => if decode [c] = .request .clkStart [] then some .clkRestart else none
  | _ => none

/-- The 16-bit row CLK_RESTART (R97), bytes 0x32, 0x30. The table writes it as ONE number with its first byte in bits 15..8;
read with the first byte in bits 7..0 it is the same pair (notes/assumptions/13). -/
def decodePseudoWord (nbits w : Nat) : Option Instr :=
  if nbits = 16 then
    match restartPair (BitVec.ofNat 8 (w >>> 8)) (BitVec.ofNat 8 w) with
    | some i => some i
    | none => restartPair (BitVec.ofNat 8 w) (BitVec.ofNat 8 (w >>> 8))
  else none

/-- A table word whose first byte is no request opcode: an event code, a control byte of the wire, or an LCD command
byte, tried in that order (notes/assumptions/13). -/
def decodeOffStream (p : Params) (b : Byte) : Option Instr :=
  match decodeEvent b with
  | some i => some i
  | none => match decodeControlByte b with
    | some i => some i
    | none => decodeCommand p b

/-- What a word of the opcode table stands for: a request if its first byte is a request opcode, else a byte of one of
the other formats. -/
def decodeTableWordWith (p : Params) (nbits w : Nat) : Option Instr :=
  match decodePseudoWord nbits w with
  | some i => some i
  | none => match decode (tableBytes nbits w) with
    | .request i _ => some i
    | .invalid b => decodeOffStream p b
    | .truncated _ => none
    | .exhausted => none

/-- The instruction the decoders read from a table word, under the reference parameters. -/
def decodeTableWord (nbits w : Nat) : Option Instr := decodeTableWordWith Config.reference nbits w

end Sys2Proof
end

