-- ==== Sys2Proof/Machine/State.lean ====
section
/-! DEFINITION. The state of the block, its reference devices and its environment (10_state.md), as plain data; the
vocabulary of micro-steps a sequencer position is made of (00_scope.md R10); the verdicts; the state after reset. -/

namespace Sys2Proof.Machine

/-- The two interrupt handlers (R6, R223). -/
inductive Handler where
  | tisr   -- TIMER_ISR
  | eisr   -- EDGE_ISR
  deriving DecidableEq, Repr

/-- The three execution contexts (R232). -/
inductive Ctx where
  | fg
  | tisr
  | eisr
  deriving DecidableEq, Repr

/-- RAMSEL (R28): the memory the next data write goes to. -/
inductive RamSel where
  | dd
  | cg
  deriving DecidableEq, Repr

/-- The micro-steps (R10): each is atomic, and an interrupt is taken only between two of them (R228). -/
inductive Prim where
  /-- `setLine(SCL, b)`. -/
  | scl (b : Bit)
  /-- `setLine(SDA, b)`. -/
  | sda (b : Bit)
  /-- `setLine(SDA, TXV[BIT])` (R114). -/
  | sdaTx
  /-- `ACK <- readLine(SDA)` (R114). -/
  | sampleAck
  /-- `RXV <- ((RXV << 1) | readLine(SDA))[7:0]` (R116). -/
  | sampleRx
  /-- `MemWrite(LCD_MODE, 1, m)`. -/
  | writeMode (m : BitVec 2)
  /-- `MemWrite(LCD_PORT, 1, v)`. -/
  | writePort (v : Byte)
  /-- `MemWrite(LCD_PORT, 1, v)` as one of LCD_INIT's three wake-up writes, which the module accepts busy or not (R62, R171). -/
  | wakePort (v : Byte)
  /-- `s <- MemRead(LCD_PORT, 1)`. -/
  | readPort
  /-- `m <- MemRead(LCD_MODE, 1)` (R199). -/
  | readMode
  /-- `MemWrite(LCD_MODE, 1, m)` with the snapshot m (R199). -/
  | restoreMode
  /-- `delay_ms(n)` (R71). -/
  | delay (n : Nat)
  /-- `setStatusBit(TMR_IE, b)` (R35). -/
  | setTmrIe (b : Bit)
  /-- `setStatusBit(TMR_RUN, b)` (R35). -/
  | setTmrRun (b : Bit)
  /-- `reload the timer` (R233). -/
  | reload (v : Nat)
  /-- `changed <- tick()` (R198). -/
  | clockTick
  /-- `RAW <- 0; MS <- 0; SEC <- 0; MIN <- 0` (R193). -/
  | zeroClock
  /-- One of CLK_READ's three reads (R195). -/
  | readClock (f : ClockField)
  /-- `CNT <- (CNT + 1) mod 16` (R203). -/
  | incCnt
  /-- `CNT <- 0` (R202). -/
  | zeroCnt
  /-- EDGE_READ's read of CNT (R201). -/
  | readCnt
  deriving DecidableEq, Repr

/-- What an operation returns (R84). -/
inductive RetKind where
  | none
  | ack
  | byte
  | ackData
  | status
  | time
  | count
  | applied (b : Bit)
  deriving DecidableEq, Repr

/-- What stands between micro-steps: the sequencer's own bookkeeping and its choice of the next micro-step (R29). None of
these is a micro-step: each is resolved together with the micro-step before it. -/
inductive Ctl where
  /-- `TXV <- value` (R114). -/
  | loadTx (v : Byte)
  /-- `RXV <- 0` (R116). -/
  | clearRx
  /-- `BIT` names the bit in flight (R24). -/
  | bitNo (i : Nat)
  /-- `a <- ` the result of the BUS_SEND just done: the ACK register (R231, D32). -/
  | takeAck
  /-- `d <- ` the result of the BUS_RECV just done. -/
  | takeData
  /-- `d <- any` (R132, R142). -/
  | drawData
  /-- `if a = 0`: go on; else skip to the closing steps (R131, R132, R141, R142). -/
  | nackToClosing
  /-- Where the closing steps begin. -/
  | closing
  /-- `until s[7] = 0`: read the status again while it says busy (R153). -/
  | againIfBusy
  /-- LCD_PUTS takes its start position from the status byte (R176). -/
  | putsFrom (text : List Byte)
  /-- `a <- s[6:0]` of the handler's guard (R199). -/
  | saveAddr
  /-- `LCD_CMDWR(0x80 | a)` of the handler's guard (R199). -/
  | restoreAddr
  /-- TIMER_ISR renders the changed fields, if any (R197). -/
  | renderClock
  /-- `s <- (s & 0xF0) | CNT; IOX_CFG(s)` (R203). -/
  | mergeConfigure
  /-- EDGE_ISR renders the count (R203). -/
  | renderEdge
  /-- AC is unspecified from here (R193, D26). -/
  | drawAddr
  /-- `return` (R84). -/
  | ret (k : RetKind)
  deriving DecidableEq, Repr

/-- One element of an operation's expansion. -/
inductive Item where
  | prim (p : Prim)
  | ctl (c : Ctl)
  deriving DecidableEq, Repr

/-- The transients of a context (R24, R40, R231): alive only inside one operation, untouched by an interrupt. -/
structure Transients where
  /-- TXV (R24). -/
  txv : Byte
  /-- RXV (R24). -/
  rxv : Byte
  /-- BIT (R24). -/
  bit : Nat
  /-- The acknowledgment `a` a client sequence decides on (R131, R132, R141, R142). -/
  a : Bit
  /-- The received byte `d` (R132, R142). -/
  d : Byte
  /-- The last status byte `s` (R152, R153), bit 7: busy. -/
  stBusy : Bit
  /-- The last status byte, bits 6:0: the address. -/
  stAddr : BitVec 7
  /-- The guard's snapshot of LCD_MODE (R199). -/
  savedMode : BitVec 2
  /-- The guard's saved address (R199). -/
  savedAddr : BitVec 7
  /-- The fields the tick changed (R198). -/
  changed : List ClockField
  /-- The fields CLK_READ has read: MIN (R195). -/
  readMin : Nat
  /-- SEC. -/
  readSec : Nat
  /-- MS. -/
  readMs : Nat
  /-- The count EDGE_READ has read (R201). -/
  readCount : BitVec 4
  deriving DecidableEq, Repr

/-- The transients hold no value between operations (R24, R41). -/
def Transients.none : Transients where
  txv := 0#8
  rxv := 0#8
  bit := 0
  a := false
  d := 0#8
  stBusy := false
  stAddr := 0#7
  savedMode := 0#2
  savedAddr := 0#7
  changed := []
  readMin := 0
  readSec := 0
  readMs := 0
  readCount := 0#4

/-- A sequencer position SEQ (R29) with the transients of its context. `rest` is the expansion from the next micro-step on:
what the pair (operation, index) of R29 stands for (notes/assumptions/28). -/
structure Seq where
  /-- The operation in progress, with its operands; none is `idle`. -/
  op : Option Instr
  /-- The micro-steps still to be done. -/
  rest : List Item
  /-- The transients. -/
  tr : Transients
  deriving DecidableEq, Repr

/-- SEQ = idle. -/
def Seq.idle : Seq where
  op := none
  rest := []
  tr := Transients.none

/-- Where a slave stands in a bus transaction (R66, R68). -/
inductive SlavePhase where
  /-- Not addressed: everything up to the next start condition is ignored. -/
  | ignore
  /-- Receiving the first byte after a start condition. -/
  | first
  /-- Receiving the byte after an acknowledged write address: the EEPROM's offset, the expander's port byte. -/
  | second
  /-- Receiving the EEPROM's data byte. -/
  | third
  /-- A further byte would be beyond the slave's shape. -/
  | extra
  /-- Driving a byte, most significant bit first. -/
  | send
  /-- The byte is sent; the ninth clock is to come. -/
  | sendAck
  /-- The ninth clock is done; a further clock would be beyond the slave's shape. -/
  | sent
  deriving DecidableEq, Repr

/-- The bit-level receiver and driver of a reference slave (R54, R66, R68, R69). -/
structure Slave where
  phase : SlavePhase
  /-- Rising clock edges seen in the byte in flight. -/
  bits : Nat
  /-- The bits received, or the bits still to send. -/
  sh : Byte
  /-- The slave is pulling the wire low to acknowledge, between the eighth and the ninth falling edge. -/
  acking : Bool
  /-- Its drive of the data wire: 0 pulls low, 1 releases. -/
  drive : Bit
  deriving DecidableEq, Repr

/-- Unaddressed, wire released (R250). -/
def Slave.unaddressed : Slave where
  phase := .ignore
  bits := 0
  sh := 0#8
  acking := false
  drive := true

/-- The reference EEPROM (R37, R66). -/
structure Eeprom where
  /-- Its place in the transaction (R66). -/
  slave : Slave
  /-- The page its control byte carried (R66). -/
  page : BitVec 3
  /-- The data byte it holds pending (R66). -/
  pend : Option Byte
  /-- EE_PTR (R37). -/
  ptr : Byte
  /-- EE_WBUSY (R37). -/
  wbusy : Bit
  /-- EE_MEM (R37), by page * 256 + offset. -/
  mem : List Host.Cell
  deriving DecidableEq, Repr

/-- The reference expander (R38, R68). -/
structure Expander where
  /-- Its place in the transaction (R68). -/
  slave : Slave
  /-- IOX_PORT (R38). -/
  port : Byte
  deriving DecidableEq, Repr

/-- The bus master's registers and what hangs on the two wires. -/
structure Bus where
  /-- SCL_out (R21). -/
  sclOut : Bit
  /-- SDA_out (R22). -/
  sdaOut : Bit
  /-- ACK (R23): 0 acknowledged, 1 not. -/
  ack : Bit
  ee : Eeprom
  iox : Expander
  /-- What a further slave drives on the data wire now (R40). -/
  extDrive : Bit
  /-- What it drives after each of the coming falling clock edges; when it is used up, it releases the wire. -/
  extScript : List Bit
  /-- The model's own: free values drawn on the bus (notes/assumptions/5). -/
  draws : Nat
  deriving DecidableEq, Repr

/-- The LCD window's latch and the module behind it. -/
structure Lcd where
  /-- LCD_MODE (R25): bit 1 is RS, bit 0 is RW. -/
  mode : BitVec 2
  /-- BF (R26). -/
  bf : Bit
  /-- AC (R27). -/
  ac : BitVec 7
  /-- RAMSEL (R28). -/
  ramsel : RamSel
  /-- DDRAM (R30): the 64 visible cells, by address. -/
  ddram : List Host.Cell
  /-- CGRAM (R31): the 64 rows, by address, five bits each. -/
  cgram : List Host.Cell
  /-- ENTRY_INC (R32). -/
  entryInc : Bit
  /-- DISPLAY_ON (R32). -/
  displayOn : Bit
  /-- FUNC (R32): the last function-set byte. -/
  func : Byte
  /-- The model's own: free values drawn in the module (notes/assumptions/5). -/
  draws : Nat
  deriving DecidableEq, Repr

/-- The software clock's counters (R33). -/
structure Clock where
  /-- RAW, 0..10. -/
  raw : Nat
  /-- MS, 0..9. -/
  ms : Nat
  /-- SEC, 0..59. -/
  sec : Nat
  /-- MIN, 0..59. -/
  min : Nat
  deriving DecidableEq, Repr

/-- The timer control bits and the interrupt bookkeeping (R35, R36). -/
structure Irq where
  /-- TMR_IE (R35). -/
  tmrIe : Bit
  /-- TMR_RUN (R35). -/
  tmrRun : Bit
  /-- EDGE_IE (R35): constant 1. -/
  edgeIe : Bit
  /-- TMR_PEND (R36). -/
  tmrPend : Bit
  /-- EDGE_PEND (R36). -/
  edgePend : Bit
  /-- IN_ISR (R36). -/
  inIsr : Option Handler
  deriving DecidableEq, Repr

/-- A move of the environment (R6). -/
inductive Event where
  /-- LCDDEV: `if BF = 1: BF <- 0` (R75). -/
  | lcdReady
  /-- The EEPROM's write cycle ends: `EE_WBUSY <- 0` (R67). -/
  | writeCycleDone
  /-- TMR: `if TMR_RUN = 1: TMR_PEND <- 1` (R224). -/
  | timerOverflow
  /-- EDGE: `if EDGE_IE = 1: EDGE_PEND <- 1` (R225). -/
  | fallingEdge
  /-- The external watchdog: a restart (R236, R250). -/
  | watchdog
  deriving DecidableEq, Repr

/-- When LCDDEV steps of itself, besides the script (95_test_vectors.md section 0). -/
inductive LcdSched where
  /-- Only where the script says so. -/
  | scripted
  /-- L-eager: before the next micro-step after every accepted write. -/
  | eager
  /-- L-onread: immediately before each `MemRead(LCD_PORT, 1)`. -/
  | onRead
  deriving DecidableEq, Repr

/-- When the EEPROM's write cycle ends of itself, besides the script (R67; 95_test_vectors.md section 0). -/
inductive EeSched where
  /-- Only where the script says so ("short settle", R265). -/
  | scripted
  /-- During the next `delay_ms`: the premise of R134. -/
  | settles
  deriving DecidableEq, Repr

/-- The environment's coming answers (R40), as plain data. -/
structure Env where
  /-- The moves at the coming micro-step boundaries, one entry a boundary; when it is used up, no more moves. -/
  script : List (List Event)
  /-- LCDDEV's schedule. -/
  lcd : LcdSched
  /-- The EEPROM's write-cycle schedule. -/
  ee : EeSched
  deriving DecidableEq, Repr

/-- A value an operation returned (R84). -/
inductive Result where
  /-- The operation returns nothing. -/
  | nothing
  /-- `ack`: BUS_SEND, EE_WRITE, IOX_CFG. -/
  | ack (a : Bit)
  /-- An 8-bit value: BUS_RECV, IOX_READ, LCD_STATRD, LCD_WAIT. -/
  | byte (v : Byte)
  /-- `(ack, data)`: EE_READ. -/
  | ackData (a : Bit) (d : Byte)
  /-- `(MIN, SEC, MS)`: CLK_READ. -/
  | time (min sec ms : Nat)
  /-- Four bits: EDGE_READ. -/
  | count (c : BitVec 4)
  /-- `applied`: LCD_GOTO. -/
  | applied (b : Bit)
  deriving DecidableEq, Repr

/-- The one fault of the model (R222). -/
inductive Fault where
  /-- LCD_BUSY_WRITE: a command or data byte delivered to the LCD module while BF = 1 (20_memory.md R62,
  93_implementation_defined.md U5). Raised by a window write. SAFE: the module's state is unspecified from there, and the
  model says nothing more of the run. -/
  | lcdBusyWrite
  deriving DecidableEq, Repr

/-- Where the model gives a run no meaning. Each is a verdict of the spec but the first and the last. -/
inductive Refusal where
  /-- An instruction without a meaning in this model; raised by Dispatch's refused arms only. SAFE. -/
  | notModelled (mnemonic : String)
  /-- A request whose opcode byte is reserved, or a handler handed over as a request: verdict `invalid` (R82, R86, U1). Raised
  by the fetch. SAFE. -/
  | reservedOpcode (opcode : Byte)
  /-- The request stream ends inside a request (R85, U1). Raised by the fetch. SAFE. -/
  | truncatedRequest (opcode : Byte)
  /-- page > 7 or slot > 7 (R87, U7, D27). Raised by EE_WRITE, EE_READ, LCD_GLYPH. SAFE. -/
  | operandOutsideDomain
  /-- `MemWrite(LCD_PORT)` while LCD_MODE says read (R58, U6). Raised by a window write. SAFE. -/
  | portWriteInReadMode
  /-- `MemRead(LCD_PORT)` while LCD_MODE says write, or a data read (R59, U6). Raised by a status read. SAFE. -/
  | portReadOutsideStatusMode
  /-- A command byte with bits 7:6 = 0b00 that is none of the six named ones (R60, U14). Raised by a window write. SAFE. -/
  | unlistedCommand (v : Byte)
  /-- LCD_PUTS started at an address outside the four windows (R176, U8). SAFE. -/
  | putsOutsideWindows (a : BitVec 7)
  /-- A second data byte into the reference EEPROM, or a read continued past one byte (R66, U10). Raised by
  `setLine(SCL, 0)`. SAFE. -/
  | eepromBeyondShape
  /-- A third byte into the reference expander, or a read continued past one byte (R68, D19). Raised by
  `setLine(SCL, 0)`. SAFE. -/
  | expanderBeyondShape
  /-- An operation or a handler handed to the machine while one is in progress (R110, R229: "must not begin"). Raised by
  `exec` only; `step` never begins an operation then. SAFE (notes/assumptions/11). -/
  | inProgress
  deriving DecidableEq, Repr

/-- The state of the block and of its environment (R20). -/
structure State where
  /-- The parameters (R7); written by no step. -/
  cfg : Params
  /-- The bus: R21 to R23, R37, R38. -/
  bus : Bus
  /-- The LCD: R25 to R28, R30 to R32. -/
  lcd : Lcd
  /-- The clock: R33. -/
  clk : Clock
  /-- CNT (R34). -/
  cnt : BitVec 4
  /-- The interrupts: R35, R36. -/
  irq : Irq
  /-- SEQ of FG (R29). -/
  fg : Seq
  /-- SEQ of TISR (R29). -/
  tisr : Seq
  /-- SEQ of EISR (R29). -/
  eisr : Seq
  /-- The environment's coming moves (R40). -/
  env : Env
  /-- The request stream FG has still to execute (R40, R80). -/
  reqs : List Byte
  /-- An operation handed to FG as a typed constructor (R80, D1). -/
  direct : Option Instr
  /-- The results returned so far, the last one last (R84, R252). -/
  results : List Result
  /-- The model's own: free values drawn by the sequencers (notes/assumptions/5). -/
  draws : Nat
  deriving DecidableEq, Repr

/-- What a step, a meaning or a micro-step answers. -/
abbrev Res := Host.Outcome State Fault Refusal

/-- The launch state (R41, R250). Values the spec states: FG idle, no handler, nothing pending, EDGE_IE = 1, EE_WBUSY = 0,
slaves unaddressed with the wire released. Every other value is the model's: notes/assumptions/1 to 4, 8. -/
def State.reset : State where
  cfg := Config.reference
  bus :=
    { sclOut := false, sdaOut := false, ack := false,
      ee := { slave := Slave.unaddressed, page := 0#3, pend := none, ptr := 0#8, wbusy := false, mem := [] },
      iox := { slave := Slave.unaddressed, port := 0#8 },
      extDrive := true, extScript := [], draws := 0 }
  lcd :=
    { mode := 0#2, bf := false, ac := 0#7, ramsel := .dd, ddram := [], cgram := [], entryInc := false,
      displayOn := false, func := 0#8, draws := 0 }
  clk := { raw := 0, ms := 0, sec := 0, min := 0 }
  cnt := 0#4
  irq :=
    { tmrIe := false, tmrRun := false, edgeIe := true, tmrPend := false, edgePend := false, inIsr := none }
  fg := Seq.idle
  tisr := Seq.idle
  eisr := Seq.idle
  env := { script := [], lcd := .eager, ee := .settles }
  reqs := []
  direct := none
  results := []
  draws := 0

end Sys2Proof.Machine
end

