-- ==== Sys2Proof/Machine/Flags.lean ====
section
/-! DEFINITION. The block's two condition bits and where they come from (10_state.md R39): ACK, sampled from the data wire
(20_memory.md R51, R52), and BF, bit 7 of the status byte (R61). No operation has any other flag. -/

namespace Sys2Proof.Machine

/-- SLV_sda (R51): 0 when any slave pulls the wire low. -/
def slvSda (b : Bus) : Bit := b.ee.slave.drive && b.iox.slave.drive && b.extDrive

/-- The level of the data wire: `SDA_out & SLV_sda` (R51). -/
def sdaWire (b : Bus) : Bit := b.sdaOut && slvSda b

/-- Master and slaves drive opposite levels (R51, U2), a wire every slave releases counting as driven 1: DESIGN CHOICE,
notes/assumptions/35. -/
def contention (b : Bus) : Bool := b.sdaOut != slvSda b

/-- `readLine(SDA)` (R52), and the bus after it: a sample changes nothing of the block or the slaves. With BUS_OPEN_DRAIN =
false and contention the level is free (R51, U2). -/
def readLine (p : Params) (b : Bus) : Bit × Bus :=
  if !p.busOpenDrain && contention b then ((Config.any .bus 1 b.draws).getLsbD 0, { b with draws := b.draws + 1 })
  else (sdaWire b, b)

/-- `ACK <- readLine(SDA)` (R114): the only writer of ACK (R23, R39). -/
def sampleAck (p : Params) (b : Bus) : Bus := { (readLine p b).2 with ack := (readLine p b).1 }

/-- The status byte `BF ++ AC` (R61, R93), as its two fields: the busy flag and the address counter. -/
def status (l : Lcd) : Bit × BitVec 7 := (l.bf, l.ac)

end Sys2Proof.Machine
end

