-- ==== Sys2Proof/Machine/Memory.lean ====
section
/-! DEFINITION. Byte memories in one canonical form: a list of (address, byte), addresses strictly rising, no entry equal
to `dflt`, which is what an unlisted address reads as. DDRAM, CGRAM and EE_MEM are held so (20_memory.md R50). -/

namespace Sys2Proof.Machine

/-- A memory as a list of cells. -/
abbrev Memory := List Host.Cell

/-- Read one byte. -/
def Memory.read (dflt : Byte) : Memory → Nat → Byte
  | [], _ => dflt
  | (b, w) :: r, a => if a = b then w else Memory.read dflt r a

/-- Put a cell in front unless it holds what an unlisted address reads as. -/
def Memory.cons (dflt : Byte) (a : Nat) (v : Byte) (r : Memory) : Memory :=
  if v = dflt then r else (a, v) :: r

/-- Write one byte, keeping the canonical form. -/
def Memory.write (dflt : Byte) : Memory → Nat → Byte → Memory
  | [], a, v => Memory.cons dflt a v []
  | (b, w) :: r, a, v =>
    if a < b then Memory.cons dflt a v ((b, w) :: r)
    else if a = b then Memory.cons dflt a v r
    else (b, w) :: Memory.write dflt r a v

/-- Every listed address lies above `lo`, addresses rise strictly, no entry equals `dflt`. -/
def Memory.wfAbove (dflt : Byte) (lo : Nat) : Memory → Bool
  | [] => true
  | (b, w) :: r => decide (lo ≤ b) && decide (w ≠ dflt) && Memory.wfAbove dflt (b + 1) r

/-- The canonical form. -/
def Memory.wf (dflt : Byte) (m : Memory) : Bool := Memory.wfAbove dflt 0 m

/-- Every listed cell lies where the address space has a cell, and holds a value the cell can hold. -/
def Memory.within (ok : Nat → Byte → Bool) (m : Memory) : Bool := m.all fun c => ok c.1 c.2

/-- Write the same value at each of a list of addresses (clear-display, R60). -/
def Memory.fill (dflt : Byte) (m : Memory) (v : Byte) : List Nat → Memory
  | [] => m
  | a :: as => Memory.write dflt (Memory.fill dflt m v as) a v

/-- Write a value that depends on the address at each of a list of addresses (a restart's draw, R250). -/
def Memory.fillWith (dflt : Byte) (m : Memory) (f : Nat → Byte) : List Nat → Memory
  | [] => m
  | a :: as => Memory.write dflt (Memory.fillWith dflt m f as) a (f a)

end Sys2Proof.Machine
end

