-- ==== Sys2Proof/Machine/Operands.lean ====
section
/-! DEFINITION. How operands become addresses, command bytes and character codes (00_scope.md R11, 20_memory.md R55, R56,
30_encoding.md R89, R92, R95), and the reads and writes of the three cell memories. -/

namespace Sys2Proof.Machine

/-- `ctl(page, rw) = 0xA0 | (page << 1) | rw` (R89, R130); used with page ≤ 7 only (R87). -/
def controlByte (page : Byte) (rw : Bit) : Byte :=
  0xA0#8 ||| (page <<< 1) ||| (BitVec.ofBool rw).setWidth 8

/-- R87: a page the source's domain has. -/
def pageOk (page : Byte) : Bool := decide (page.toNat ≤ 7)

/-- R87: a slot the source's domain has. -/
def slotOk (slot : Byte) : Bool := decide (slot.toNat ≤ 7)

/-- The index of an EEPROM cell, `page*256 + offset` (R37). -/
def eeIndex (page : BitVec 3) (offset : Byte) : Nat := page.toNat * 256 + offset.toNat

/-- ROW_BASE (R7, R55). -/
def rowBase (row : Nat) : Nat :=
  match row with
  | 0 => 0x00
  | 1 => 0x40
  | 2 => 0x10
  | _ => 0x50

/-- `addr(row, column)` (R55), for row ≤ 3 and column ≤ 15. -/
def cursorAddr (row column : Nat) : BitVec 7 := BitVec.ofNat 7 (rowBase row + column)

/-- R173: LCD_GOTO's validation. -/
def cursorOk (row column : Nat) : Bool := decide (row ≤ 3) && decide (column ≤ 15)

/-- `pos(a)` (R55): the row and column of an address in one of the four windows. -/
def cursorPos (a : BitVec 7) : Option (Nat × Nat) :=
  let n := a.toNat
  if n < 0x10 then some (0, n)
  else if n < 0x20 then some (2, n - 0x10)
  else if n < 0x40 then none
  else if n < 0x50 then some (1, n - 0x40)
  else if n < 0x60 then some (3, n - 0x50)
  else none

/-- Whether a DDRAM address lies in one of the four windows (R30, R55). -/
def visible (a : BitVec 7) : Bool := (cursorPos a).isSome

/-- The 64 visible addresses (R30). -/
def visibleAddrs : List Nat := (List.range 16) ++ (List.range' 0x10 16) ++ (List.range' 0x40 16) ++ (List.range' 0x50 16)

/-- The 64 CGRAM addresses (R56). -/
def glyphAddrs : List Nat := List.range 64

/-- The row after a row, with the wrap to row 0 (R176). -/
def nextRow (row : Nat) : Nat := if row + 1 > 3 then 0 else row + 1

/-- The set-address command `0x80 | a` (R11, R92). -/
def setAddrCommand (a : BitVec 7) : Byte := 0b1#1 ++ a

/-- The CGRAM-address command `0x40 + slot*8` (R56, R92); used with slot ≤ 7 only (R87). -/
def glyphCommand (slot : Byte) : Byte := 0x40#8 + (slot <<< 3)

/-- The character code of a digit (R95). PRESUMED: notes/assumptions/25. -/
def digitCode (n : Nat) : Byte := BitVec.ofNat 8 (0x30 + n)

/-- The colon (R95). PRESUMED: notes/assumptions/25. -/
def colonCode : Byte := 0x3A#8

/-- "00:00:0" (R95, R193). -/
def zeroTimeText : List Byte :=
  [digitCode 0, digitCode 0, colonCode, digitCode 0, digitCode 0, colonCode, digitCode 0]

/-- The two digits of a field; a field above 99 renders as free values (R197, U20). -/
def digitPair (n draw : Nat) : List Byte :=
  if n ≤ 99 then [digitCode (n / 10), digitCode (n % 10)] else [Config.any .core 8 draw, Config.any .core 8 (draw + 1)]

/-- The one digit of MS; above 9 it renders as a free value (R197, U20). -/
def digitSingle (n draw : Nat) : List Byte :=
  if n ≤ 9 then [digitCode n] else [Config.any .core 8 draw]

/-- edge_text(c) (R203). -/
def edgeText (p : Params) (c : BitVec 4) : List Byte := p.edgeFmt.getD c.toNat []

/-- `(s & 0xF0) | cnt` (R11, R203). -/
def mergeNibble (s : Byte) (c : BitVec 4) : Byte := (s &&& 0xF0#8) ||| c.setWidth 8

/-- DDRAM cell at an address; an unlisted one reads as BLANK (notes/assumptions/4). -/
def readDdram (s : State) (a : Nat) : Byte := Memory.read Config.blank s.lcd.ddram a

/-- CGRAM row at an address. -/
def readCgram (s : State) (a : Nat) : Byte := Memory.read Config.unwritten s.lcd.cgram a

/-- EE_MEM cell at an index. -/
def readEeprom (s : State) (a : Nat) : Byte := Memory.read Config.unwritten s.bus.ee.mem a

/-- A data write into DDRAM: no cell outside the windows (R55, R57, U13). -/
def writeDdram (m : Memory) (a : BitVec 7) (v : Byte) : Memory :=
  if visible a then Memory.write Config.blank m a.toNat v else m

/-- A data write into CGRAM: the low five bits (R31, R57). -/
def writeCgram (m : Memory) (a : BitVec 6) (v : Byte) : Memory :=
  Memory.write Config.unwritten m a.toNat (v &&& 0x1F#8)

/-- `EE_MEM[page*256 + offset] <- d` (R66). -/
def writeEeprom (m : Memory) (page : BitVec 3) (offset d : Byte) : Memory :=
  Memory.write Config.unwritten m (eeIndex page offset) d

end Sys2Proof.Machine
end

