-- ==== Sys2Proof/Machine/Bus.lean ====
section
/-! DEFINITION. The two wires, the events on them, and the reference slaves behind them (20_memory.md R51 to R54, R66 to
R69). -/

namespace Sys2Proof.Machine

/-! ## The bit engine both reference slaves share (R53, R54, R69) -/

/-- After a start condition a slave on the bus listens for a first byte; one that is absent stays silent. -/
def slaveStart (present : Bool) : Slave :=
  { Slave.unaddressed with phase := if present then .first else .ignore }

/-- Whether the slave is taking in the bits of a byte. -/
def slaveReceiving (x : Slave) : Bool :=
  !x.acking && (x.phase == .first || x.phase == .second || x.phase == .third || x.phase == .extra)

/-- A rising clock edge: a receiving slave takes the wire's level as the next bit, most significant first. -/
def slaveRise (wire : Bit) (x : Slave) : Slave :=
  if slaveReceiving x then { x with sh := (x.sh <<< 1) ||| (BitVec.ofBool wire).setWidth 8, bits := x.bits + 1 }
  else if x.phase == .send && !x.acking then { x with bits := x.bits + 1 }
  else x

/-- Acknowledge the byte just received: pull the wire low until the ninth falling edge (R69), then go on in `next`. -/
def slaveAck (next : SlavePhase) (x : Slave) : Slave :=
  { x with phase := next, bits := 0, acking := true, drive := false }

/-- Acknowledge, then send byte `v`. -/
def slaveAckSend (v : Byte) (x : Slave) : Slave := { slaveAck .send x with sh := v }

/-- Not addressed, or not acknowledging (R66, R68). -/
def slaveIgnore : Slave := Slave.unaddressed

/-- What a falling edge means to a slave, beyond its own drive. -/
inductive Fall where
  /-- Nothing more. -/
  | quiet (x : Slave)
  /-- The eighth falling edge of a received byte. -/
  | got (b : Byte)
  /-- The eighth falling edge of a sent byte. -/
  | sentByte (x : Slave)
  /-- A clock beyond the byte sent and its ninth clock. -/
  | beyond
  deriving DecidableEq, Repr

/-- A falling clock edge (R69). -/
def slaveFall (x : Slave) : Fall :=
  if x.acking then
    .quiet { x with acking := false, bits := 0, drive := if x.phase = .send then x.sh.getLsbD 7 else true }
  else
    match x.phase with
    | .ignore => .quiet x
    | .first | .second | .third | .extra => if x.bits = 8 then .got x.sh else .quiet x
    | .send =>
      if x.bits = 8 then .sentByte { x with phase := .sendAck, bits := 0, drive := true }
      else .quiet { x with drive := x.sh.getLsbD (7 - x.bits) }
    | .sendAck => .quiet { x with phase := .sent }
    | .sent => .beyond

/-! ## The reference EEPROM (R66, R67) -/

/-- Performing the pending write d: the cell is written and the write cycle begins. Discarding it changes neither. -/
def eeSettlePending (d : Byte) (performed : Bool) (e : Eeprom) : Eeprom :=
  { e with
    mem := if performed then writeEeprom e.mem e.page e.ptr d else e.mem
    wbusy := performed || e.wbusy
    pend := none }

/-- A stop condition: a pending write is performed (R66). -/
def eeStop (e : Eeprom) : Eeprom :=
  match e.pend with
  | none => { e with slave := Slave.unaddressed }
  | some d => { eeSettlePending d true e with slave := Slave.unaddressed }

/-- A start condition. A pending write is performed or discarded: `choice` is free (U10). -/
def eeStart (present choice : Bool) (e : Eeprom) : Eeprom :=
  match e.pend with
  | none => { e with slave := slaveStart present }
  | some d => { eeSettlePending d choice e with slave := slaveStart present }

/-- The control byte (R66, R89). -/
def eeControl (c : Byte) (e : Eeprom) : Eeprom :=
  if c.extractLsb 7 4 = 0b1010#4 ∧ e.wbusy = false then
    let page := c.extractLsb 3 1
    if c.getLsbD 0 then
      { e with page := page, slave := slaveAckSend (Memory.read Config.unwritten e.mem (eeIndex page e.ptr)) e.slave }
    else { e with page := page, slave := slaveAck .second e.slave }
  else { e with slave := slaveIgnore }

/-- The EEPROM has a whole byte (R66). A second data byte is outside its shape. -/
def eeGot (b : Byte) (e : Eeprom) : Except Refusal Eeprom :=
  match e.slave.phase with
  | .first => .ok (eeControl b e)
  | .second => .ok { e with ptr := b, slave := slaveAck .third e.slave }
  | .third => .ok { e with pend := some b, slave := slaveAck .extra e.slave }
  | _ => .error .eepromBeyondShape

/-- The EEPROM at a falling clock edge (R66, R69). EE_PTR after a read is free: `anyPtr` (U10), from the eighth data clock on;
a read byte cut short leaves it: DESIGN CHOICE, notes/assumptions/37. -/
def eeFall (anyPtr : Byte) (e : Eeprom) : Except Refusal Eeprom :=
  match slaveFall e.slave with
  | .quiet x => .ok { e with slave := x }
  | .got b => eeGot b e
  | .sentByte x => .ok { e with slave := x, ptr := anyPtr }
  | .beyond => .error .eepromBeyondShape

/-! ## The reference expander (R68) -/

/-- The expander's first byte. -/
def ioxAddress (p : Params) (b : Byte) (x : Expander) : Expander :=
  if b = p.ioxAddrW then { x with slave := slaveAck .second x.slave }
  else if b = p.ioxAddrR then { x with slave := slaveAckSend x.port x.slave }
  else { x with slave := slaveIgnore }

/-- The expander has a whole byte. -/
def ioxGot (p : Params) (b : Byte) (x : Expander) : Except Refusal Expander :=
  match x.slave.phase with
  | .first => .ok (ioxAddress p b x)
  | .second => .ok { x with port := b, slave := slaveAck .extra x.slave }
  | _ => .error .expanderBeyondShape

/-- The expander at a falling clock edge. -/
def ioxFall (p : Params) (x : Expander) : Except Refusal Expander :=
  match slaveFall x.slave with
  | .quiet y => .ok { x with slave := y }
  | .got b => ioxGot p b x
  | .sentByte y => .ok { x with slave := y }
  | .beyond => .error .expanderBeyondShape

/-! ## Wire events (R53) -/

/-- A start condition: the data wire falls while the clock is 1. -/
def onStart (p : Params) (b : Bus) : Bus :=
  { b with
    ee := eeStart p.eePresent ((Config.any .bus 1 b.draws).getLsbD 0) b.ee
    iox := { b.iox with slave := slaveStart p.ioxPresent }
    draws := if b.ee.pend.isSome then b.draws + 1 else b.draws }

/-- A stop condition: the data wire rises while the clock is 1. It ends the transaction (R66). -/
def onStop (b : Bus) : Bus :=
  { b with ee := eeStop b.ee, iox := { b.iox with slave := Slave.unaddressed } }

/-- A rising clock edge: a bit. -/
def onRise (b : Bus) : Bus :=
  { b with
    ee := { b.ee with slave := slaveRise (sdaWire b) b.ee.slave }
    iox := { b.iox with slave := slaveRise (sdaWire b) b.iox.slave } }

/-- The further slave's drive after a falling clock edge (R40, R69): the head of its script, else released. -/
def extFall (b : Bus) : Bus := { b with extDrive := b.extScript.headD true, extScript := b.extScript.tail }

/-- Whether the EEPROM ends a sent byte at this falling edge. -/
def eeEndsByte (e : Eeprom) : Bool :=
  match slaveFall e.slave with
  | .sentByte _ => true
  | _ => false

/-- A falling clock edge: every slave reacts, inside this micro-step (R69). -/
def onFall (p : Params) (b : Bus) : Except Refusal Bus :=
  match eeFall (Config.any .bus 8 b.draws) b.ee with
  | .error r => .error r
  | .ok e =>
    match ioxFall p b.iox with
    | .error r => .error r
    | .ok x => .ok { extFall b with ee := e, iox := x, draws := if eeEndsByte b.ee then b.draws + 1 else b.draws }

/-- What a change of the data wire while the clock is 1 is (R53). -/
def wireEvent (p : Params) (before after : Bit) (b : Bus) : Bus :=
  match before, after with
  | true, false => onStart p b
  | false, true => onStop b
  | _, _ => b

/-- `setLine(SDA, v)` (R22, R53). -/
def setSda (p : Params) (v : Bit) (b : Bus) : Bus :=
  if b.sclOut then wireEvent p (sdaWire b) (sdaWire { b with sdaOut := v }) { b with sdaOut := v }
  else { b with sdaOut := v }

/-- `setLine(SCL, v)` (R21, R53). A level the latch already has makes no event. -/
def setScl (p : Params) (v : Bit) (b : Bus) : Except Refusal Bus :=
  match b.sclOut, v with
  | false, true => .ok (onRise { b with sclOut := true })
  | true, false => onFall p { b with sclOut := false }
  | _, _ => .ok b

end Sys2Proof.Machine
end

