-- ==== Sys2Proof/Machine/Expansion.lean ====
section
/-! DEFINITION. The micro-step lists of the operations: the pseudocode of 40_bus_primitives.md to
45_background_agents.md, element by element. -/

namespace Sys2Proof.Machine

/-! ## Bus primitives (40_bus_primitives.md) -/

/-- R111: `D1 C1 D0 C0`. -/
def busStartCode : List Item := [.prim (.sda true), .prim (.scl true), .prim (.sda false), .prim (.scl false)]

/-- R112: `D0 C1 D1`. -/
def busStopCode : List Item := [.prim (.sda false), .prim (.scl true), .prim (.sda true)]

/-- R114: one data bit, `setLine(SDA, TXV[BIT]) C1 C0`. -/
def sendBitCode (i : Nat) : List Item := [.ctl (.bitNo i), .prim .sdaTx, .prim (.scl true), .prim (.scl false)]

/-- R114: the ninth clock, `D1 C1 S C0`. -/
def ackCode : List Item := [.prim (.sda true), .prim (.scl true), .prim .sampleAck, .prim (.scl false), .ctl .takeAck]

/-- R114: eight data bits, bit 7 first, then the acknowledgment. -/
def busSendCode (v : Byte) : List Item :=
  .ctl (.loadTx v) :: (sendBitCode 7 ++ sendBitCode 6 ++ sendBitCode 5 ++ sendBitCode 4 ++ sendBitCode 3 ++
    sendBitCode 2 ++ sendBitCode 1 ++ sendBitCode 0 ++ ackCode)

/-- R116: one received bit, `C1 S C0`. -/
def recvBitCode (i : Nat) : List Item := [.ctl (.bitNo i), .prim (.scl true), .prim .sampleRx, .prim (.scl false)]

/-- R116: eight received bits. -/
def busRecvCode : List Item :=
  .ctl .clearRx :: (recvBitCode 7 ++ recvBitCode 6 ++ recvBitCode 5 ++ recvBitCode 4 ++ recvBitCode 3 ++
    recvBitCode 2 ++ recvBitCode 1 ++ recvBitCode 0 ++ [.ctl .takeData])

/-- R117: `D1 C1 C0`. -/
def busNoackCode : List Item := [.prim (.sda true), .prim (.scl true), .prim (.scl false)]

/-! ## Client sequencers (41_eeprom_client.md, 42_ioexpander_client.md) -/

/-- R131. -/
def eeWriteCode (p : Params) (page offset data : Byte) : List Item :=
  busStartCode ++ busSendCode (controlByte page false) ++ [.ctl .nackToClosing] ++
    busSendCode offset ++ [.ctl .nackToClosing] ++ busSendCode data ++
    [.ctl .closing] ++ busStopCode ++ [.prim (.delay p.eeSettleMs)]

/-- R132. -/
def eeReadCode (page offset : Byte) : List Item :=
  [.ctl .drawData] ++ busStartCode ++ busSendCode (controlByte page false) ++ [.ctl .nackToClosing] ++
    busSendCode offset ++ [.ctl .nackToClosing] ++
    busStartCode ++ busSendCode (controlByte page true) ++ [.ctl .nackToClosing] ++ busRecvCode ++
    [.ctl .closing] ++ busNoackCode ++ busStopCode

/-- R141. -/
def ioxCfgCode (p : Params) (mask : Byte) : List Item :=
  busStartCode ++ busSendCode p.ioxAddrW ++ [.ctl .nackToClosing] ++ busSendCode mask ++ [.ctl .closing] ++ busStopCode

/-- R142. -/
def ioxReadCode (p : Params) : List Item :=
  [.ctl .drawData] ++ busStartCode ++ busSendCode p.ioxAddrR ++ [.ctl .nackToClosing] ++ busRecvCode ++
    [.ctl .closing] ++ busNoackCode ++ busStopCode

/-! ## LCD window primitives (43_lcd_primitives.md) -/

/-- R150: mode 0b00, then the byte. -/
def cmdCode (v : Byte) : List Item := [.prim (.writeMode 0b00#2), .prim (.writePort v)]

/-- R171: a wake-up write. -/
def wakeCode (v : Byte) : List Item := [.prim (.writeMode 0b00#2), .prim (.wakePort v)]

/-- R151: mode 0b10, then the byte. -/
def dataCode (v : Byte) : List Item := [.prim (.writeMode 0b10#2), .prim (.writePort v)]

/-- R152: mode 0b01, then the read. -/
def statusCode : List Item := [.prim (.writeMode 0b01#2), .prim .readPort]

/-- R153. -/
def waitCode : List Item := statusCode ++ [.ctl .againIfBusy]

/-! ## LCD operations (44_lcd_operations.md) -/

/-- R171: a command preceded by the ready-wait and followed by its delay. -/
def initCommand (v : Byte) (ms : Nat) : List Item := waitCode ++ cmdCode v ++ [.prim (.delay ms)]

/-- R171. -/
def lcdInitCode (p : Params) : List Item :=
  wakeCode p.cmdFsWake ++ [.prim (.delay p.tFs1)] ++ wakeCode p.cmdFsWake ++ [.prim (.delay p.tFs2)] ++
    wakeCode p.cmdFsWake ++ [.prim (.delay p.tFs3)] ++
    initCommand p.cmdFsFinal p.tCmd4 ++ initCommand p.cmdDisplayOff p.tCmd5 ++ initCommand p.cmdClear p.tCmd6 ++
    initCommand p.cmdEntryInc p.tCmd7 ++ initCommand p.cmdHome p.tCmd8

/-- R173: no micro-step at all when the position is out of range. -/
def gotoCode (row column : Nat) : List Item :=
  if cursorOk row column then waitCode ++ cmdCode (setAddrCommand (cursorAddr row column)) else []

/-- R174. -/
def putcCode (c : Byte) : List Item := waitCode ++ dataCode c

/-- A sequence of LCD_PUTC. -/
def putcsCode : List Byte → List Item
  | [] => []
  | c :: r => putcCode c ++ putcsCode r

/-- R176, PUTS_WRAP_POLICY = lazy, from the position (row, col). -/
def putsDeferredCode (row col : Nat) : List Byte → List Item
  | [] => []
  | c :: r =>
    if col > 15 then gotoCode (nextRow row) 0 ++ putcCode c ++ putsDeferredCode (nextRow row) 1 r
    else putcCode c ++ putsDeferredCode row (col + 1) r

/-- R176, PUTS_WRAP_POLICY = eager. -/
def putsEagerCode (row col : Nat) : List Byte → List Item
  | [] => []
  | c :: r =>
    if col + 1 > 15 then putcCode c ++ gotoCode (nextRow row) 0 ++ putsEagerCode (nextRow row) 0 r
    else putcCode c ++ putsEagerCode row (col + 1) r

/-- R176: the loop of LCD_PUTS. -/
def putsLoopCode (w : WrapPolicy) (row col : Nat) (text : List Byte) : List Item :=
  match w with
  | .deferred => putsDeferredCode row col text
  | .eager => putsEagerCode row col text

/-- R176. -/
def putsCode (text : List Byte) : List Item := waitCode ++ [.ctl (.putsFrom text)]

/-- R179: each row preceded by the ready-wait. -/
def glyphRowsCode : List Byte → List Item
  | [] => []
  | b :: r => waitCode ++ dataCode b ++ glyphRowsCode r

/-- R179. -/
def glyphCode (slot : Byte) (rows : Vector Byte 8) : List Item :=
  waitCode ++ cmdCode (glyphCommand slot) ++ glyphRowsCode rows.toList

/-! ## Background agents (45_background_agents.md) -/

/-- R191. -/
def clkStartCode : List Item := [.prim (.setTmrRun true), .prim (.setTmrIe true)]

/-- R192. -/
def clkStopCode : List Item := [.prim (.setTmrIe false)]

/-- R193; CLK_ROW = 3. -/
def clkResetCode (p : Params) : List Item :=
  [.prim (.setTmrIe false), .prim .zeroClock] ++ gotoCode 3 p.clkCol ++ putcsCode zeroTimeText ++ [.ctl .drawAddr]

/-- R195: one read of each field, in the order of `cfg.clkReadOrder`. -/
def clkReadCode (p : Params) : List Item := p.clkReadOrder.map fun f => .prim (.readClock f)

/-- R199: the guard around a body of LCD writes. -/
def guardedCode (body : List Item) : List Item :=
  [.prim .readMode] ++ waitCode ++ [.ctl .saveAddr] ++ body ++ waitCode ++ [.ctl .restoreAddr, .prim .restoreMode]

/-- R197: one changed field's cells. -/
def fieldCode (p : Params) (column : Nat) (codes : List Byte) : List Item :=
  gotoCode 3 (p.clkCol + column) ++ putcsCode codes

/-- R197: the changed fields, left to right. The three digit groups are given. -/
def renderCode (p : Params) (changed : List ClockField) (minText secText msText : List Byte) : List Item :=
  if changed = [] then []
  else guardedCode (
    (if .min ∈ changed then fieldCode p 0 minText else []) ++
    (if .sec ∈ changed then fieldCode p 3 secText else []) ++
    (if .ms ∈ changed then fieldCode p 6 msText else []))

/-- R197. -/
def timerIsrCode (p : Params) : List Item :=
  [.prim (.setTmrRun false), .prim (.reload p.tmrReload), .prim .clockTick, .ctl .renderClock, .prim (.setTmrRun true)]

/-- R203: the render of a count, guarded or not. -/
def edgeRenderCode (p : Params) (c : BitVec 4) : List Item :=
  let body := gotoCode p.edgeRow.toNat p.edgeCol.toNat ++ putcsCode (edgeText p c)
  if p.edgeRenderGuarded then guardedCode body else body

/-- R203. -/
def edgeIsrCode (p : Params) : List Item :=
  [.prim .incCnt] ++ ioxReadCode p ++ [.ctl .mergeConfigure, .ctl .renderEdge]

/-- The expansion of a handler. -/
def handlerCode (p : Params) : Handler → List Item
  | .tisr => timerIsrCode p
  | .eisr => edgeIsrCode p

/-- The operation a handler is. -/
def handlerInstr : Handler → Instr
  | .tisr => .timerIsr
  | .eisr => .edgeIsr

/-- The context a handler runs in. -/
def handlerCtx : Handler → Ctx
  | .tisr => .tisr
  | .eisr => .eisr

end Sys2Proof.Machine
end

