-- ==== Sys2Proof/Machine/Clock.lean ====
section
/-! DEFINITION. The software clock's counters and their rendering (45_background_agents.md R197, R198). -/

namespace Sys2Proof.Machine

/-- The counters after one tick, and the set of fields that changed (R198). The comparisons are by equality (D23). -/
def tick (c : Clock) : Clock × List ClockField :=
  if c.raw + 1 = 11 then
    if c.ms + 1 = 10 then
      if c.sec + 1 = 60 then
        if c.min + 1 = 60 then ({ raw := 0, ms := 0, sec := 0, min := 0 }, [.ms, .sec, .min])
        else ({ raw := 0, ms := 0, sec := 0, min := c.min + 1 }, [.ms, .sec, .min])
      else ({ raw := 0, ms := 0, sec := c.sec + 1, min := c.min }, [.ms, .sec])
    else ({ raw := 0, ms := c.ms + 1, sec := c.sec, min := c.min }, [.ms])
  else ({ raw := c.raw + 1, ms := c.ms, sec := c.sec, min := c.min }, [])

/-- All four counters 0 (R193). -/
def Clock.zero : Clock where
  raw := 0
  ms := 0
  sec := 0
  min := 0

/-- Whether every displayed field is in the range its digits can show (U20). -/
def clockShowable (c : Clock) : Bool := decide (c.min ≤ 99) && decide (c.sec ≤ 99) && decide (c.ms ≤ 9)

/-- TIMER_ISR's render of the changed fields (R197); the digits of a field out of range are free values (U20). -/
def clockRender (changed : List ClockField) (s : State) : List Item :=
  renderCode s.cfg changed (digitPair s.clk.min s.draws) (digitPair s.clk.sec (s.draws + 2))
    (digitSingle s.clk.ms (s.draws + 4))

/-- The draws a render uses up. -/
def clockDraws (changed : List ClockField) (s : State) : Nat :=
  if changed = [] ∨ clockShowable s.clk = true then s.draws else s.draws + 5

end Sys2Proof.Machine
end

