-- ==== Sys2Proof/Machine/Window.lean ====
section
/-! DEFINITION. The LCD window and the reference module behind it (20_memory.md R55 to R62). -/

namespace Sys2Proof.Machine

/-- AC after a data write with ENTRY_INC = 1 (R57): modulo 128 in DDRAM; in CGRAM AC[5:0] modulo 64, AC[6] unchanged. -/
def nextAc (r : RamSel) (ac : BitVec 7) : BitVec 7 :=
  match r with
  | .dd => ac + 1#7
  | .cg => ac.extractLsb 6 6 ++ (ac.extractLsb 5 0 + 1#6)

/-- A data write the module accepts (R57): stored where RAMSEL says, AC advanced, BF set. With ENTRY_INC = 0 the new AC is
free (U9). -/
def acceptData (v : Byte) (l : Lcd) : Lcd :=
  { l with
    ddram := if l.ramsel = .dd then writeDdram l.ddram l.ac v else l.ddram
    cgram := if l.ramsel = .cg then writeCgram l.cgram (l.ac.extractLsb 5 0) v else l.cgram
    ac := if l.entryInc then nextAc l.ramsel l.ac else Config.any .lcd 7 l.draws
    draws := if l.entryInc then l.draws else l.draws + 1
    bf := true }

/-- A command the module accepts (R60), or none where the table lists no such byte (U14). -/
def acceptCommand (p : Params) (v : Byte) (l : Lcd) : Option Lcd :=
  if v.getLsbD 7 then some { l with ac := v.extractLsb 6 0, ramsel := .dd, bf := true }
  else if v.getLsbD 6 then some { l with ac := 0#1 ++ v.extractLsb 5 0, ramsel := .cg, bf := true }
  else if v = p.cmdClear then
    some { l with ddram := Memory.fill Config.blank l.ddram Config.blank visibleAddrs, ac := 0#7, ramsel := .dd, bf := true }
  else if v = p.cmdHome then some { l with ac := 0#7, ramsel := .dd, bf := true }
  else if v = p.cmdEntryInc then some { l with entryInc := true, bf := true }
  else if v = p.cmdDisplayOff then some { l with displayOn := false, bf := true }
  else if v = p.cmdFsWake ∨ v = p.cmdFsFinal then some { l with func := v, bf := true }
  else none

/-- What a byte moved into the window leads to. -/
inductive Delivery where
  /-- The module accepts it. -/
  | accepted (l : Lcd)
  /-- LCD_BUSY_WRITE (R62). -/
  | busy
  /-- The spec gives it no meaning. -/
  | reject (r : Refusal)
  deriving DecidableEq, Repr

/-- A command byte delivered to the module; `busyOk` for LCD_INIT's wake-up writes (R60, R62). -/
def deliverCommand (p : Params) (busyOk : Bool) (v : Byte) (l : Lcd) : Delivery :=
  if l.bf && !busyOk then .busy
  else match acceptCommand p v l with
    | some m => .accepted m
    | none => .reject (.unlistedCommand v)

/-- A data byte delivered to the module (R57, R62). -/
def deliverData (v : Byte) (l : Lcd) : Delivery := if l.bf then .busy else .accepted (acceptData v l)

/-- `MemWrite(LCD_PORT, 1, v)`, routed by LCD_MODE (R58). A wake-up write routed as data is a data write like any other, and
meets the busy rule: DESIGN CHOICE, notes/assumptions/36. -/
def portWrite (p : Params) (busyOk : Bool) (v : Byte) (l : Lcd) : Delivery :=
  if l.mode = 0b00#2 then deliverCommand p busyOk v l
  else if l.mode = 0b10#2 then deliverData v l
  else .reject .portWriteInReadMode

/-- `MemRead(LCD_PORT, 1)`, routed by LCD_MODE (R59): the status byte, or none where the read has no meaning (U6). It
changes nothing of the module. -/
def portRead (l : Lcd) : Option (Bit × BitVec 7) := if l.mode = 0b01#2 then some (status l) else none

/-- LCDDEV's step (R75). -/
def lcdReady (l : Lcd) : Lcd := { l with bf := false }

/-- LCDDEV at a micro-step boundary: on the schedule L-eager it steps (R75; 95_test_vectors.md section 0). -/
def readyAtBoundary (k : LcdSched) (l : Lcd) : Lcd := { l with bf := l.bf && !(k == .eager) }

/-- LCDDEV just before a read: on the schedule L-onread it steps. -/
def readyAtRead (k : LcdSched) (l : Lcd) : Lcd := { l with bf := l.bf && !(k == .onRead) }

end Sys2Proof.Machine
end

