-- ==== Sys2Proof/Machine/Ops.lean ====
section
/-! DEFINITION. The sequencer: one micro-step, its boundary, taking an interrupt and returning from it, and running an
operation (10_state.md R29, 60_exceptions.md R223 to R231). Every instruction's meaning is one of the shared operations
`perform` and `fireHandler` of this file applied to the instruction's expansion. -/

namespace Sys2Proof.Machine

/-- Go on with the next state, or stop as the first part stopped. -/
def thenDo (r : Res) (f : State → Res) : Res :=
  match r with
  | .next s => f s
  | .fault e => .fault e
  | .refused e => .refused e

/-! ## Contexts -/

/-- The SEQ of a context. -/
def State.seq (s : State) : Ctx → Seq
  | .fg => s.fg
  | .tisr => s.tisr
  | .eisr => s.eisr

/-- Set the SEQ of a context. -/
def State.setSeq (s : State) (c : Ctx) (q : Seq) : State :=
  match c with
  | .fg => { s with fg := q }
  | .tisr => { s with tisr := q }
  | .eisr => { s with eisr := q }

/-- Set what a context has still to do. -/
def State.setRest (s : State) (c : Ctx) (k : List Item) : State := s.setSeq c { s.seq c with rest := k }

/-- The transients of a context. -/
def State.tr (s : State) (c : Ctx) : Transients := (s.seq c).tr

/-- Set the transients of a context. -/
def State.setTr (s : State) (c : Ctx) (t : Transients) : State := s.setSeq c { s.seq c with tr := t }

/-- FG idle and no handler running: the boundary between two requests (R228, R252). -/
def State.resting (s : State) : Bool := s.irq.inIsr.isNone && s.fg.rest.isEmpty

/-! ## Taking an interrupt, and the return (R224 to R230) -/

/-- The timer request is takeable (R224). -/
def timerTakeable (q : Irq) : Bool := q.tmrPend && q.tmrIe

/-- The edge request is takeable (R225). -/
def edgeTakeable (q : Irq) : Bool := q.edgePend

/-- Which handler is entered at this boundary, if any: none while one runs (R229), IRQ_ORDER between two (R226), at the boundary
at which a handler returns too, whichever has returned: DESIGN CHOICE, notes/assumptions/41. -/
def takeable (s : State) : Option Handler :=
  if s.irq.inIsr.isSome then none
  else
    match timerTakeable s.irq, edgeTakeable s.irq with
    | true, true => some (match s.cfg.irqOrder with | .timerFirst => .tisr | .edgeFirst => .eisr)
    | true, false => some .tisr
    | false, true => some .eisr
    | false, false => none

/-- `X_PEND <- 0; IN_ISR <- the handler of X` (R227). -/
def enterIrq (h : Handler) (q : Irq) : Irq :=
  match h with
  | .tisr => { q with tmrPend := false, inIsr := some .tisr }
  | .eisr => { q with edgePend := false, inIsr := some .eisr }

/-- TAKING AN INTERRUPT (R227): `X_PEND <- 0; IN_ISR <- the handler; SEQ of the handler <- its first micro-step`. Nothing
else: nothing is saved, no enable changes, FG's SEQ stays. -/
def enterHandler (h : Handler) (s : State) : State :=
  State.setSeq { s with irq := enterIrq h s.irq } (handlerCtx h)
    { op := some (handlerInstr h), rest := handlerCode s.cfg h, tr := Transients.none }

/-- The RETURN (R230): `IN_ISR <- none`, nothing restored. -/
def returnHandler (c : Ctx) (s : State) : State :=
  { s.setSeq c Seq.idle with irq := { s.irq with inIsr := none } }

/-- A context has done its last micro-step: FG's SEQ is idle again (R29), a handler returns (R230). -/
def finish (c : Ctx) (s : State) : State :=
  match c with
  | .fg => { s with fg := Seq.idle }
  | .tisr => returnHandler .tisr s
  | .eisr => returnHandler .eisr s

/-! ## The environment at a micro-step boundary (R6, R70, R71) -/

/-- The bus after a restart (R250): the lines, ACK and the slaves' registers drawn afresh, the slaves unaddressed, EE_MEM
kept, a pending write not performed. -/
def restartBus (b : Bus) : Bus :=
  let n := b.draws
  { sclOut := (Config.any .bus 1 n).getLsbD 0
    sdaOut := (Config.any .bus 1 (n + 1)).getLsbD 0
    ack := (Config.any .bus 1 (n + 2)).getLsbD 0
    ee :=
      { slave := Slave.unaddressed, page := Config.any .bus 3 (n + 3), pend := none, ptr := Config.any .bus 8 (n + 4),
        wbusy := false, mem := b.ee.mem }
    iox := { slave := Slave.unaddressed, port := Config.any .bus 8 (n + 5) }
    extDrive := true
    extScript := b.extScript
    draws := n + 6 }

/-- The LCD after a restart (R250): everything drawn afresh. -/
def restartLcd (l : Lcd) : Lcd :=
  let n := l.draws
  { mode := Config.any .lcd 2 n
    bf := (Config.any .lcd 1 (n + 1)).getLsbD 0
    ac := Config.any .lcd 7 (n + 2)
    ramsel := if (Config.any .lcd 1 (n + 3)).getLsbD 0 then .cg else .dd
    ddram := Memory.fillWith Config.blank l.ddram (fun a => Config.any .lcd 8 (n + 7 + a)) visibleAddrs
    cgram := Memory.fillWith Config.unwritten l.cgram (fun a => (Config.any .lcd 5 (n + 135 + a)).setWidth 8) glyphAddrs
    entryInc := (Config.any .lcd 1 (n + 4)).getLsbD 0
    displayOn := (Config.any .lcd 1 (n + 5)).getLsbD 0
    func := Config.any .lcd 8 (n + 6)
    draws := n + 199 }

/-- A watchdog restart (R250): everything R41 leaves unspecified is drawn afresh; FG idle, no handler, nothing pending,
EDGE_IE = 1. Parameters, the environment's answers and the requests not yet issued are no state of the block. -/
def restart (s : State) : State :=
  let n := s.draws
  { s with
    bus := restartBus s.bus
    lcd := restartLcd s.lcd
    clk :=
      { raw := (Config.any .core 8 n).toNat % 11, ms := (Config.any .core 8 (n + 1)).toNat % 10,
        sec := (Config.any .core 8 (n + 2)).toNat % 60, min := (Config.any .core 8 (n + 3)).toNat % 60 }
    cnt := Config.any .core 4 (n + 4)
    irq :=
      { tmrIe := (Config.any .core 1 (n + 5)).getLsbD 0, tmrRun := (Config.any .core 1 (n + 6)).getLsbD 0,
        edgeIe := true, tmrPend := false, edgePend := false, inIsr := none }
    fg := Seq.idle
    tisr := Seq.idle
    eisr := Seq.idle
    draws := n + 7 }

/-- TMR raises a request (R224). -/
def raiseTimer (q : Irq) : Irq := { q with tmrPend := q.tmrPend || q.tmrRun }

/-- EDGE raises a request (R225). -/
def raiseEdge (q : Irq) : Irq := { q with edgePend := q.edgePend || q.edgeIe }

/-- The EEPROM's write cycle has ended (R67). -/
def writeCycleDone (b : Bus) : Bus := { b with ee := { b.ee with wbusy := false } }

/-- One move of the environment. -/
def applyEvent (s : State) : Event → State
  | .lcdReady => { s with lcd := lcdReady s.lcd }
  | .writeCycleDone => { s with bus := writeCycleDone s.bus }
  | .timerOverflow => { s with irq := raiseTimer s.irq }
  | .fallingEdge => { s with irq := raiseEdge s.irq }
  | .watchdog => restart s

/-- The moves of one entry of the script, in order. -/
def applyEvents (s : State) : List Event → State
  | [] => s
  | e :: r => applyEvents (applyEvent s e) r

/-- The script's entry for this boundary. -/
def scriptMoves (s : State) : State :=
  match s.env.script with
  | [] => s
  | es :: r => applyEvents { s with env := { s.env with script := r } } es

/-- LCDDEV at a boundary (R75). -/
def readyEager (s : State) : State := { s with lcd := readyAtBoundary s.env.lcd s.lcd }

/-- Whether the environment restarts the block at this boundary (R236, R250). -/
def restartsNow (s : State) : Bool :=
  match s.env.script with
  | [] => false
  | es :: _ => decide (.watchdog ∈ es)

/-- The environment at a boundary. -/
def boundary (s : State) : State := readyEager (scriptMoves s)

/-! ## One micro-step -/

/-- A bus micro-step's outcome. -/
def onBus (s : State) (r : Except Refusal Bus) : Res :=
  match r with
  | .ok b => .next { s with bus := b }
  | .error e => .refused e

/-- A window write's outcome. -/
def onLcd (s : State) (d : Delivery) : Res :=
  match d with
  | .accepted l => .next { s with lcd := l }
  | .busy => .fault .lcdBusyWrite
  | .reject r => .refused r

/-- `setLine(SDA, TXV[BIT])` (R114). -/
def sendBit (c : Ctx) (s : State) : State :=
  { s with bus := setSda s.cfg ((s.tr c).txv.getLsbD (s.tr c).bit) s.bus }

/-- `RXV <- ((RXV << 1) | readLine(SDA))[7:0]` (R11, R116). -/
def shiftIn (r : Byte) (b : Bit) : Byte := (r <<< 1) ||| (BitVec.ofBool b).setWidth 8

/-- The sample of BUS_RECV (R116). -/
def sampleRx (c : Ctx) (s : State) : State :=
  State.setTr { s with bus := (readLine s.cfg s.bus).2 } c
    { s.tr c with rxv := shiftIn (s.tr c).rxv (readLine s.cfg s.bus).1 }

/-- `s <- MemRead(LCD_PORT, 1)` (R59, R152). -/
def readStatus (c : Ctx) (s : State) : Res :=
  match portRead (readyAtRead s.env.lcd s.lcd) with
  | some v =>
    .next (State.setTr { s with lcd := readyAtRead s.env.lcd s.lcd } c { s.tr c with stBusy := v.1, stAddr := v.2 })
  | none => .refused .portReadOutsideStatusMode

/-- `delay_ms(n)` (R71): the environment may step meanwhile; the EEPROM's write cycle ends if it settles (R67). -/
def delayMs (s : State) : State :=
  { s with bus := { s.bus with ee := { s.bus.ee with wbusy := s.bus.ee.wbusy && !(s.env.ee == .settles) } } }

/-- `changed <- tick()` (R197, R198). -/
def tickStep (c : Ctx) (s : State) : State :=
  State.setTr { s with clk := (tick s.clk).1 } c { s.tr c with changed := (tick s.clk).2 }

/-- One of CLK_READ's reads (R195). -/
def readField (c : Ctx) (f : ClockField) (s : State) : State :=
  match f with
  | .min => s.setTr c { s.tr c with readMin := s.clk.min }
  | .sec => s.setTr c { s.tr c with readSec := s.clk.sec }
  | .ms => s.setTr c { s.tr c with readMs := s.clk.ms }

/-- The effect of one micro-step in context c (R10). -/
def runPrim (c : Ctx) (p : Prim) (s : State) : Res :=
  match p with
  | .scl b => onBus s (setScl s.cfg b s.bus)
  | .sda b => .next { s with bus := setSda s.cfg b s.bus }
  | .sdaTx => .next (sendBit c s)
  | .sampleAck => .next { s with bus := sampleAck s.cfg s.bus }
  | .sampleRx => .next (sampleRx c s)
  | .writeMode m => .next { s with lcd := { s.lcd with mode := m } }
  | .writePort v => onLcd s (portWrite s.cfg false v s.lcd)
  | .wakePort v => onLcd s (portWrite s.cfg true v s.lcd)
  | .readPort => readStatus c s
  | .readMode => .next (s.setTr c { s.tr c with savedMode := s.lcd.mode })
  | .restoreMode => .next { s with lcd := { s.lcd with mode := (s.tr c).savedMode } }
  | .delay _ => .next (delayMs s)
  | .setTmrIe b => .next { s with irq := { s.irq with tmrIe := b } }
  | .setTmrRun b => .next { s with irq := { s.irq with tmrRun := b } }
  | .reload _ => .next s
  | .clockTick => .next (tickStep c s)
  | .zeroClock => .next { s with clk := Clock.zero }
  | .readClock f => .next (readField c f s)
  | .incCnt => .next { s with cnt := s.cnt + 1#4 }
  | .zeroCnt => .next { s with cnt := 0#4 }
  | .readCnt => .next (s.setTr c { s.tr c with readCount := s.cnt })

/-- The value an operation returns (R84). -/
def resultOf (k : RetKind) (q : Transients) : Result :=
  match k with
  | .none => .nothing
  | .ack => .ack q.a
  | .byte => .byte q.d
  | .ackData => .ackData q.a q.d
  | .status => .byte (statusByte q.stBusy q.stAddr)
  | .time => .time q.readMin q.readSec q.readMs
  | .count => .count q.readCount
  | .applied b => .applied b

/-- `return` (R84): the requester gets the result. -/
def returnResult (c : Ctx) (k : RetKind) (s : State) : State :=
  { s with results := s.results ++ [resultOf k (s.tr c)] }

/-- What comes next once the bookkeeping is resolved. -/
inductive Choice where
  /-- Go on with what follows. -/
  | goOn (s : State)
  /-- Skip to the closing steps. -/
  | skip (s : State)
  /-- These elements come first. -/
  | insert (code : List Item) (s : State)
  /-- The spec gives no meaning. -/
  | reject (r : Refusal)

/-- LCD_PUTS takes its start position from the status byte, or is refused (R176, U8). -/
def putsStart (c : Ctx) (text : List Byte) (s : State) : Choice :=
  match cursorPos (s.tr c).stAddr with
  | some (row, col) => .insert (putsLoopCode s.cfg.putsWrap row col text) s
  | none => .reject (.putsOutsideWindows (s.tr c).stAddr)

/-- The effect of one bookkeeping element in context c (R29). -/
def runCtl (c : Ctx) (x : Ctl) (s : State) : Choice :=
  match x with
  | .loadTx v => .goOn (s.setTr c { s.tr c with txv := v })
  | .clearRx => .goOn (s.setTr c { s.tr c with rxv := 0#8 })
  | .bitNo i => .goOn (s.setTr c { s.tr c with bit := i })
  | .takeAck => .goOn (s.setTr c { s.tr c with a := s.bus.ack })
  | .takeData => .goOn (s.setTr c { s.tr c with d := (s.tr c).rxv })
  | .drawData => .goOn (State.setTr { s with draws := s.draws + 1 } c { s.tr c with d := Config.any .core 8 s.draws })
  | .nackToClosing => if (s.tr c).a then .skip s else .goOn s
  | .closing => .goOn s
  | .againIfBusy => if (s.tr c).stBusy then .insert waitCode s else .goOn s
  | .putsFrom text => putsStart c text s
  | .saveAddr => .goOn (s.setTr c { s.tr c with savedAddr := (s.tr c).stAddr })
  | .restoreAddr => .insert (cmdCode (setAddrCommand (s.tr c).savedAddr)) s
  | .renderClock => .insert (clockRender (s.tr c).changed s) { s with draws := clockDraws (s.tr c).changed s }
  | .mergeConfigure => .insert (ioxCfgCode s.cfg (mergeNibble (s.tr c).d s.cnt)) s
  | .renderEdge => .insert (edgeRenderCode s.cfg s.cnt) s
  | .drawAddr => .goOn { s with lcd := { s.lcd with ac := Config.any .lcd 7 s.lcd.draws, draws := s.lcd.draws + 1 } }
  | .ret k => .goOn (returnResult c k s)

/-- Resolve the bookkeeping in front of the next micro-step: afterwards SEQ stands at a micro-step, or the operation is
done. `skipping` while on the way to the closing steps. -/
def settle (c : Ctx) : Bool → List Item → State → Res
  | _, [], s => .next (finish c s)
  | true, .ctl .closing :: k, s => settle c false k s
  | true, _ :: k, s => settle c true k s
  | false, .prim p :: k, s => .next (s.setRest c (.prim p :: k))
  | false, .ctl x :: k, s =>
    match runCtl c x s with
    | .goOn t => settle c false k t
    | .skip t => settle c true k t
    | .insert [] t => settle c false k t
    | .insert (i :: l) t => .next (t.setRest c (i :: l ++ k))
    | .reject r => .refused r

/-- One micro-step of context c: its effect, then the position after it (R29). -/
def ctxStep (c : Ctx) (s : State) : Res :=
  match (s.seq c).rest with
  | [] => .next (finish c s)
  | .ctl x :: k => settle c false (.ctl x :: k) s
  | .prim p :: k => thenDo (runPrim c p (s.setRest c k)) (settle c false k)

/-- A handler's entry and its first micro-step: the entry costs none of its own (R227; notes/assumptions/30). -/
def takeInterrupt (h : Handler) (s : State) : Res := ctxStep (handlerCtx h) (enterHandler h s)

/-- The core at a boundary: a running handler goes on (R229); else a takeable interrupt is taken (R228); else FG goes on. -/
def coreStep (s : State) : Res :=
  match s.irq.inIsr with
  | some h => ctxStep (handlerCtx h) s
  | none =>
    match takeable s with
    | some h => takeInterrupt h s
    | none => ctxStep .fg s

/-- One micro-step of the whole machine: the environment at the boundary, then the core (R70, R228). -/
def microStep (s : State) : Res := coreStep (boundary s)

/-- At most n micro-steps, up to the next boundary between two requests. -/
def drive : Nat → State → Res
  | 0, s => .next s
  | n + 1, s => if s.resting then .next s else thenDo (microStep s) (drive n)

/-! ## Running an operation -/

/-- Run on from where the machine stands (R110: blocking). -/
def resume (s : State) : Res := drive Config.quantum s

/-- FG begins operation i (R29): its SEQ is set, nothing else. -/
def begin (i : Instr) (code : List Item) (s : State) : Res :=
  settle .fg false code { s with fg := { op := some i, rest := [], tr := Transients.none } }

/-- An operation of FG: begun at rest, run to its end with whatever interrupts are taken in it (R110, R228). -/
def perform (i : Instr) (code : List Item) (s : State) : Res :=
  if s.resting then thenDo (begin i code s) resume else .refused .inProgress

/-- A handler's run: the environment's moves at the boundary, its entry there, its micro-steps, its return (R227 to R230). -/
def fireHandler (h : Handler) (s : State) : Res :=
  if s.irq.inIsr.isSome then .refused .inProgress else thenDo (takeInterrupt h (boundary s)) resume

end Sys2Proof.Machine
end

