-- ==== Sys2Proof/Machine/BackgroundAgents.lean ====
section
/-! DEFINITION. Background agents: the clock, the edge counter, their handlers and pseudo-operations (45_background_agents.md). -/

namespace Sys2Proof.Machine

/-- CLK_START (R191). -/
def execClkStart (s : State) : Res :=
  perform .clkStart (clkStartCode ++ [.ctl (.ret .none)]) s

/-- CLK_STOP (R192). -/
def execClkStop (s : State) : Res :=
  perform .clkStop (clkStopCode ++ [.ctl (.ret .none)]) s

/-- CLK_RESET (R193); AC is free afterwards (D26, U12). -/
def execClkReset (s : State) : Res :=
  perform .clkReset (clkResetCode s.cfg ++ [.ctl (.ret .none)]) s

/-- CLK_READ (R195): three reads, which a tick may part. -/
def execClkRead (s : State) : Res :=
  perform .clkRead (clkReadCode s.cfg ++ [.ctl (.ret .time)]) s

/-- EDGE_READ (R201). -/
def execEdgeRead (s : State) : Res :=
  perform .edgeRead ([.prim .readCnt, .ctl (.ret .count)]) s

/-- EDGE_RESET (R202): CNT only. -/
def execEdgeReset (s : State) : Res :=
  perform .edgeReset ([.prim .zeroCnt, .ctl (.ret .none)]) s

/-- TIMER_ISR (R197): one run of the handler, from its entry to its return. -/
def execTimerIsr (s : State) : Res :=
  fireHandler .tisr s

/-- EDGE_ISR (R203): one run of the handler, from its entry to its return. -/
def execEdgeIsr (s : State) : Res :=
  fireHandler .eisr s

/-- CLK_RESUME, another name of CLK_START (R97). -/
def execClkResume (s : State) : Res :=
  perform .clkResume (clkStartCode ++ [.ctl (.ret .none)]) s

/-- CLK_RESTART (R194): CLK_RESET, then CLK_START, not atomic; two requests, two results. Handed over as a constructor it is one
operation of FG, which a watchdog restart abandons whole: DESIGN CHOICE, notes/assumptions/40. -/
def execClkRestart (s : State) : Res :=
  perform .clkRestart (clkResetCode s.cfg ++ [.ctl (.ret .none)] ++ clkStartCode ++ [.ctl (.ret .none)]) s

end Sys2Proof.Machine
end

