-- ==== Sys2Proof/Machine/BusPrimitives.lean ====
section
/-! DEFINITION. Bus primitives (40_bus_primitives.md). -/

namespace Sys2Proof.Machine

/-- BUS_START (R111). -/
def execBusStart (s : State) : Res :=
  perform .busStart (busStartCode ++ [.ctl (.ret .none)]) s

/-- BUS_STOP (R112). -/
def execBusStop (s : State) : Res :=
  perform .busStop (busStopCode ++ [.ctl (.ret .none)]) s

/-- BUS_SEND (R114): the result is the ACK register when the last micro-step is done (R231). -/
def execBusSend (value : Byte) (s : State) : Res :=
  perform (.busSend value) (busSendCode value ++ [.ctl (.ret .ack)]) s

/-- BUS_RECV (R116): the data line is not released (D6). -/
def execBusRecv (s : State) : Res :=
  perform .busRecv (busRecvCode ++ [.ctl (.ret .byte)]) s

/-- BUS_NOACK (R117): the pulse is not sampled. -/
def execBusNoack (s : State) : Res :=
  perform .busNoack (busNoackCode ++ [.ctl (.ret .none)]) s

end Sys2Proof.Machine
end

