-- ==== Sys2Proof/Machine/Clients.lean ====
section
/-! DEFINITION. The EEPROM and expander sequencers (41_eeprom_client.md, 42_ioexpander_client.md). -/

namespace Sys2Proof.Machine

/-- EE_WRITE (R131); page > 7 is refused (R87, D27). -/
def execEeWrite (page offset data : Byte) (s : State) : Res :=
  if pageOk page then perform (.eeWrite page offset data) (eeWriteCode s.cfg page offset data ++ [.ctl (.ret .ack)]) s
  else .refused .operandOutsideDomain

/-- EE_READ (R132); page > 7 is refused (R87, D27). On failure the data half is free (U4). -/
def execEeRead (page offset : Byte) (s : State) : Res :=
  if pageOk page then perform (.eeRead page offset) (eeReadCode page offset ++ [.ctl (.ret .ackData)]) s
  else .refused .operandOutsideDomain

/-- IOX_CFG (R141). -/
def execIoxCfg (mask : Byte) (s : State) : Res :=
  perform (.ioxCfg mask) (ioxCfgCode s.cfg mask ++ [.ctl (.ret .ack)]) s

/-- IOX_READ (R142). Unacknowledged, its value is free (U4). -/
def execIoxRead (s : State) : Res :=
  perform .ioxRead (ioxReadCode s.cfg ++ [.ctl (.ret .byte)]) s

end Sys2Proof.Machine
end

