-- ==== Sys2Proof/Machine/LcdOperations.lean ====
section
/-! DEFINITION. LCD operations (44_lcd_operations.md). -/

namespace Sys2Proof.Machine

/-- LCD_INIT (R171). -/
def execLcdInit (s : State) : Res :=
  perform .lcdInit (lcdInitCode s.cfg ++ [.ctl (.ret .none)]) s

/-- LCD_GOTO (R173): out of range, no micro-step and `applied` = 0. -/
def execLcdGoto (row column : Byte) (s : State) : Res :=
  perform (.lcdGoto row column) (gotoCode row.toNat column.toNat ++ [.ctl (.ret (.applied (cursorOk row.toNat column.toNat)))]) s

/-- LCD_PUTC (R174). -/
def execLcdPutc (code : Byte) (s : State) : Res :=
  perform (.lcdPutc code) (putcCode code ++ [.ctl (.ret .none)]) s

/-- LCD_PUTS (R176). A text of more than 255 characters, which only a typed constructor can carry, is run all the same: DESIGN
CHOICE, notes/assumptions/39. -/
def execLcdPuts (text : List Byte) (s : State) : Res :=
  perform (.lcdPuts text) (putsCode text ++ [.ctl (.ret .none)]) s

/-- LCD_GLYPH (R179); slot > 7 is refused (R87, D27). -/
def execLcdGlyph (slot : Byte) (rows : Vector Byte 8) (s : State) : Res :=
  if slotOk slot then perform (.lcdGlyph slot rows) (glyphCode slot rows ++ [.ctl (.ret .none)]) s
  else .refused .operandOutsideDomain

end Sys2Proof.Machine
end

