-- ==== Sys2Proof/Machine/LcdPrimitives.lean ====
section
/-! DEFINITION. LCD window primitives (43_lcd_primitives.md). -/

namespace Sys2Proof.Machine

/-- LCD_CMDWR (R150). -/
def execLcdCmdwr (byte : Byte) (s : State) : Res :=
  perform (.lcdCmdwr byte) (cmdCode byte ++ [.ctl (.ret .none)]) s

/-- LCD_DATAWR (R151). -/
def execLcdDatawr (byte : Byte) (s : State) : Res :=
  perform (.lcdDatawr byte) (dataCode byte ++ [.ctl (.ret .none)]) s

/-- LCD_STATRD (R152). -/
def execLcdStatrd (s : State) : Res :=
  perform .lcdStatrd (statusCode ++ [.ctl (.ret .status)]) s

/-- LCD_WAIT (R153): it ends only with a status byte whose bit 7 is 0; else it hangs (R236). -/
def execLcdWait (s : State) : Res :=
  perform .lcdWait (waitCode ++ [.ctl (.ret .status)]) s

end Sys2Proof.Machine
end

