-- ==== Sys2Proof/Machine/WireBytes.lean ====
section
/-! DEFINITION. The rows of the opcode table that are bytes of the wire or of the LCD window (30_encoding.md R89 to R94): what
putting such a byte where it belongs does (notes/assumptions/12). -/

namespace Sys2Proof.Machine

/-- EE_CTRL_BYTE: the first byte of an EEPROM transaction (R89, R90, R66): a start condition, then the byte. -/
def execEeCtrlByte (page : BitVec 3) (rw : Bit) (s : State) : Res :=
  perform (.eeCtrlByte page rw) (busStartCode ++ busSendCode (controlByte (page.setWidth 8) rw) ++ [.ctl (.ret .ack)]) s

/-- IOX_ADDR_W: the first byte of an expander write (R91, R68). -/
def execIoxAddrW (s : State) : Res :=
  perform .ioxAddrW (busStartCode ++ busSendCode s.cfg.ioxAddrW ++ [.ctl (.ret .ack)]) s

/-- IOX_ADDR_R: the first byte of an expander read (R91, R68). -/
def execIoxAddrR (s : State) : Res :=
  perform .ioxAddrR (busStartCode ++ busSendCode s.cfg.ioxAddrR ++ [.ctl (.ret .ack)]) s

/-- LCD_MODE: the latch is written (R25). -/
def execLcdMode (rs rw : Bit) (s : State) : Res :=
  perform (.lcdMode rs rw) ([.prim (.writeMode (BitVec.ofBool rs ++ BitVec.ofBool rw)), .ctl (.ret .none)]) s

/-- SET_DDRAM_ADDR: the command byte, written with LCD_MODE = 0b00 (R92, R60). -/
def execSetDdramAddr (a : BitVec 7) (s : State) : Res :=
  perform (.setDdramAddr a) (cmdCode (setAddrCommand a) ++ [.ctl (.ret .none)]) s

/-- SET_CGRAM_ADDR (R92, R60). -/
def execSetCgramAddr (slot row : BitVec 3) (s : State) : Res :=
  perform (.setCgramAddr slot row) (cmdCode (0b01#2 ++ slot ++ row) ++ [.ctl (.ret .none)]) s

/-- CMD_FS_WAKE: the wake-up write, accepted busy or not (R60, R62, R171; notes/assumptions/26). -/
def execCmdFsWake (s : State) : Res :=
  perform .cmdFsWake (wakeCode s.cfg.cmdFsWake ++ [.ctl (.ret .none)]) s

/-- CMD_FS_FINAL (R60). -/
def execCmdFsFinal (s : State) : Res :=
  perform .cmdFsFinal (cmdCode s.cfg.cmdFsFinal ++ [.ctl (.ret .none)]) s

/-- CMD_DISPLAY_OFF (R60). -/
def execCmdDisplayOff (s : State) : Res :=
  perform .cmdDisplayOff (cmdCode s.cfg.cmdDisplayOff ++ [.ctl (.ret .none)]) s

/-- CMD_CLEAR (R60). -/
def execCmdClear (s : State) : Res :=
  perform .cmdClear (cmdCode s.cfg.cmdClear ++ [.ctl (.ret .none)]) s

/-- CMD_ENTRY_INC (R60). -/
def execCmdEntryInc (s : State) : Res :=
  perform .cmdEntryInc (cmdCode s.cfg.cmdEntryInc ++ [.ctl (.ret .none)]) s

/-- CMD_HOME (R60). -/
def execCmdHome (s : State) : Res :=
  perform .cmdHome (cmdCode s.cfg.cmdHome ++ [.ctl (.ret .none)]) s

/-- LCD_STATUS: the byte read with LCD_MODE = 0b01 (R93, R61). -/
def execLcdStatus (s : State) : Res :=
  perform .lcdStatus (statusCode ++ [.ctl (.ret .status)]) s

/-- LCD_DATA_DD: a data byte (R94); the module stores it where RAMSEL says (R57). -/
def execLcdDataDd (code : Byte) (s : State) : Res :=
  perform (.lcdDataDd code) (dataCode code ++ [.ctl (.ret .none)]) s

/-- LCD_DATA_CG: a data byte (R94); the module stores it where RAMSEL says (R57). -/
def execLcdDataCg (ignored : BitVec 3) (pattern : BitVec 5) (s : State) : Res :=
  perform (.lcdDataCg ignored pattern) (dataCode (ignored ++ pattern) ++ [.ctl (.ret .none)]) s

end Sys2Proof.Machine
end

