-- ==== Sys2Proof/Machine/Dispatch.lean ====
section
/-! DEFINITION. One arm per row of the opcode table. -/

namespace Sys2Proof.Machine

def exec (i : Instr) (s : State) : Host.Outcome State Fault Refusal :=
  match i with
    | .busStart => Sys2Proof.Machine.execBusStart s
    | .busStop => Sys2Proof.Machine.execBusStop s
    | .busSend value => Sys2Proof.Machine.execBusSend value s
    | .busRecv => Sys2Proof.Machine.execBusRecv s
    | .busNoack => Sys2Proof.Machine.execBusNoack s
    | .eeWrite page offset data => Sys2Proof.Machine.execEeWrite page offset data s
    | .eeRead page offset => Sys2Proof.Machine.execEeRead page offset s
    | .ioxCfg mask => Sys2Proof.Machine.execIoxCfg mask s
    | .ioxRead => Sys2Proof.Machine.execIoxRead s
    | .lcdCmdwr byte => Sys2Proof.Machine.execLcdCmdwr byte s
    | .lcdDatawr byte => Sys2Proof.Machine.execLcdDatawr byte s
    | .lcdStatrd => Sys2Proof.Machine.execLcdStatrd s
    | .lcdWait => Sys2Proof.Machine.execLcdWait s
    | .lcdInit => Sys2Proof.Machine.execLcdInit s
    | .lcdGoto row column => Sys2Proof.Machine.execLcdGoto row column s
    | .lcdPutc code => Sys2Proof.Machine.execLcdPutc code s
    | .lcdPuts text => Sys2Proof.Machine.execLcdPuts text s
    | .lcdGlyph slot rows => Sys2Proof.Machine.execLcdGlyph slot rows s
    | .clkStart => Sys2Proof.Machine.execClkStart s
    | .clkStop => Sys2Proof.Machine.execClkStop s
    | .clkReset => Sys2Proof.Machine.execClkReset s
    | .clkRead => Sys2Proof.Machine.execClkRead s
    | .edgeRead => Sys2Proof.Machine.execEdgeRead s
    | .edgeReset => Sys2Proof.Machine.execEdgeReset s
    | .timerIsr => Sys2Proof.Machine.execTimerIsr s
    | .edgeIsr => Sys2Proof.Machine.execEdgeIsr s
    | .clkResume => Sys2Proof.Machine.execClkResume s
    | .clkRestart => Sys2Proof.Machine.execClkRestart s
    | .eeCtrlByte page rw => Sys2Proof.Machine.execEeCtrlByte page rw s
    | .ioxAddrW => Sys2Proof.Machine.execIoxAddrW s
    | .ioxAddrR => Sys2Proof.Machine.execIoxAddrR s
    | .lcdMode rs rw => Sys2Proof.Machine.execLcdMode rs rw s
    | .setDdramAddr a => Sys2Proof.Machine.execSetDdramAddr a s
    | .setCgramAddr slot row => Sys2Proof.Machine.execSetCgramAddr slot row s
    | .cmdFsWake => Sys2Proof.Machine.execCmdFsWake s
    | .cmdFsFinal => Sys2Proof.Machine.execCmdFsFinal s
    | .cmdDisplayOff => Sys2Proof.Machine.execCmdDisplayOff s
    | .cmdClear => Sys2Proof.Machine.execCmdClear s
    | .cmdEntryInc => Sys2Proof.Machine.execCmdEntryInc s
    | .cmdHome => Sys2Proof.Machine.execCmdHome s
    | .lcdStatus => Sys2Proof.Machine.execLcdStatus s
    | .lcdDataDd code => Sys2Proof.Machine.execLcdDataDd code s
    | .lcdDataCg ignored pattern => Sys2Proof.Machine.execLcdDataCg ignored pattern s

end Sys2Proof.Machine
end

