-- ==== Sys2Proof/Machine/Fetch.lean ====
section
/-! DEFINITION. What FG does next, and placing a word where it is fetched (10_state.md R29, R40; 30_encoding.md R85, R86;
60_exceptions.md R228; 70_reset_and_hazards.md R252). -/

namespace Sys2Proof.Machine

/-- What the machine does next. -/
inductive Fetched where
  /-- An operation or a handler is in progress: it goes on. -/
  | inProgress
  /-- Operation i begins, from state s. -/
  | run (i : Instr) (s : State)
  /-- FG waits (R250, R252); only the environment moves. -/
  | waiting
  /-- The decoder's verdict (R85, R86). -/
  | reject (r : Refusal)

/-- An operation handed to FG as a typed constructor (R80, D1). A handler is none: FG cannot issue it, and it gets the verdict
its event code gets in a stream (R82, R86; notes/assumptions/14). -/
def handedOver (i : Instr) (s : State) : Fetched :=
  if formatOf i = .event then .reject (.reservedOpcode ((encode s.cfg i).headD 0#8)) else .run i { s with direct := none }

/-- FG's next request: a typed constructor if one was handed over, else the next of the request stream. -/
def nextRequest (s : State) : Fetched :=
  match s.direct with
  | some i => handedOver i s
  | none =>
    match decode s.reqs with
    | .request i r => .run i { s with reqs := r }
    | .invalid b => .reject (.reservedOpcode b)
    | .truncated b => .reject (.truncatedRequest b)
    | .exhausted => .waiting

/-- What comes next: what is in progress; else an interrupt that is takeable once the environment has moved at this boundary,
before FG's next micro-step (R224, R228, R230); else FG's next request. A restart at this boundary comes before FG takes a
request: DESIGN CHOICE, notes/assumptions/38. -/
def fetch (s : State) : Fetched :=
  if !s.resting then .inProgress
  else match takeable (boundary s) with
    | some h => .run (handlerInstr h) s
    | none => if restartsNow s then .waiting else nextRequest s

/-- The machine at rest, nothing pending, nothing handed over: what a fetch needs. -/
def readyToFetch (s : State) : State :=
  { s with irq := { s.irq with inIsr := none, tmrPend := false, edgePend := false }, fg := Seq.idle, direct := none }

/-- The bytes of the first request of a stream, without what follows it. -/
def firstRequestBytes (bs : List Byte) : List Byte :=
  match decode bs with
  | .request _ r => bs.take (bs.length - r.length)
  | _ => bs

/-- Place a word of the opcode table where its row is taken from: a request at the head of the request stream; a handler as
its pending, enabled interrupt request; any other row as a typed constructor (notes/assumptions/12, 13, 15). -/
def placeWord (s : State) (nbits w : Nat) : State :=
  let t := readyToFetch s
  match decodeTableWordWith s.cfg nbits w with
  | some .timerIsr => { t with irq := { t.irq with tmrPend := true, tmrIe := true } }
  | some .edgeIsr => { t with irq := { t.irq with edgePend := true } }
  | some i =>
    if formatOf i = .request then { t with reqs := firstRequestBytes (tableBytes nbits w) ++ s.reqs }
    else { t with direct := some i }
  | none => { t with reqs := firstRequestBytes (tableBytes nbits w) ++ s.reqs }

end Sys2Proof.Machine
end

