-- ==== Sys2Proof/Machine/Step.lean ====
section
/-! DEFINITION. One step of the machine: the next operation, or one run of a handler taken between two requests, whole, with
whatever interrupts are taken in it (60_exceptions.md R228). An operation that has not ended after `Config.quantum`
micro-steps goes on in the next step (notes/assumptions/9). -/

namespace Sys2Proof.Machine

/-- One step. -/
def step (s : State) : Host.Outcome State Fault Refusal :=
  match fetch s with
  | .inProgress => resume s
  | .run i t => exec i t
  | .waiting => .next (boundary s)
  | .reject r => .refused r

/-- The state with a word of the opcode table placed where the next step takes it from. -/
def State.withFetchWord (s : State) (nbits w : Nat) : State := placeWord s nbits w

end Sys2Proof.Machine
end

