-- ==== Sys2Proof/Safety.lean ====
section
/-! DEFINITION. The terms statements are made in: the conditions under which a rule says what an operation does, and the
invariant of every state a run reaches. -/

namespace Sys2Proof.Machine

/-- FG idle, no handler running: the boundary between two requests (R29, R228). -/
def State.atRest (s : State) : Bool := decide (s.irq.inIsr = none) && decide (s.fg = Seq.idle)

/-- No interrupt is takeable and the environment raises none: BOOT_QUIET of R251, "no interrupt taken" of R134. -/
def State.quiet (s : State) : Bool :=
  decide (s.env.script = []) && !edgeTakeable s.irq && !timerTakeable s.irq

/-- At rest and undisturbed. -/
def State.calm (s : State) : Bool := s.atRest && s.quiet

/-- No slave is addressed, none drives the wire, no write is pending (R250). -/
def State.busFree (s : State) : Bool :=
  decide (s.bus.ee.slave = Slave.unaddressed) && decide (s.bus.iox.slave = Slave.unaddressed) &&
  decide (s.bus.ee.pend = none) && s.bus.extDrive && decide (s.bus.extScript = [])

/-- A slave that has acknowledged byte v and takes in the next one, in phase k (R66, R68, R69). -/
def Slave.listening (k : SlavePhase) (v : Byte) : Slave :=
  { phase := k, bits := 0, sh := v, acking := false, drive := true }

/-- A slave that has acknowledged its read address and drives bit 7 of m (R66, R68, R69). -/
def Slave.sending (m : Byte) : Slave :=
  { phase := .send, bits := 0, sh := m, acking := false, drive := m.getLsbD 7 }

/-- A slave that takes in no byte now: not addressed, acknowledging, driving one of its eight bits, or waiting for the ninth
clock (R66, R68, R69). -/
def Slave.notReceiving (x : Slave) : Bool :=
  x.acking || decide (x.phase = .ignore) || decide (x.phase = .sendAck) || decide (x.phase = .send ∧ x.bits ≤ 7)

/-- Such a slave after one clock pulse (R69): an acknowledgment is released and a byte to send begins, a sent byte goes on to its
next bit and after the last releases the wire, the ninth clock ends it. -/
def Slave.pulsed (x : Slave) : Slave :=
  if x.acking then
    { x with acking := false, bits := 0, drive := if x.phase = .send then x.sh.getLsbD 7 else true }
  else if x.phase = .send then
    if x.bits = 7 then { x with phase := .sendAck, bits := 0, drive := true }
    else { x with bits := x.bits + 1, drive := x.sh.getLsbD (6 - x.bits) }
  else if x.phase = .sendAck then { x with phase := .sent }
  else x

/-- The coming clock pulse is that of the last bit the slave sends. -/
def Slave.endsByte (x : Slave) : Bool := !x.acking && decide (x.phase = .send) && decide (x.bits = 7)

/-- At rest, and the environment makes no more scripted moves: how a handler's run alone is observed. -/
def State.undisturbed (s : State) : Bool := s.atRest && decide (s.env.script = [])

/-- What an undisturbed operation that returns r leaves, of everything its rule does not name: LCDDEV has had a micro-step
boundary (R75), and the result is returned (R84). -/
def State.done (s : State) (r : Result) : State := { readyEager s with results := s.results ++ [r] }

/-- The module's busy flag is 0 by the time a write reaches it without a wait: it is 0, or LCDDEV is L-eager. -/
def State.lcdFree (s : State) : Bool := !s.lcd.bf || decide (s.env.lcd = .eager)

/-- The module is responsive (R75): every LCD_WAIT ends. -/
def State.lcdAnswers (s : State) : Bool := decide (s.env.lcd ≠ .scripted)

/-- LCD_WAIT ends at its first status read: BF is 0, or the module is responsive (R153). -/
def State.waitEnds (s : State) : Bool := !s.lcd.bf || s.lcdAnswers

/-- The reference EEPROM answers its control byte (R66). -/
def State.eepromAnswers (s : State) : Bool := s.cfg.eePresent && !s.bus.ee.wbusy

/-- The counters lie in their ranges (R33). -/
def Clock.inRange (c : Clock) : Bool :=
  decide (c.raw ≤ 10) && decide (c.ms ≤ 9) && decide (c.sec ≤ 59) && decide (c.min ≤ 59)

/-- An EEPROM cell (R37). -/
def eepromCell (a : Nat) (_ : Byte) : Bool := decide (a < 2048)

/-- A CGRAM cell holds five bits (R31). -/
def glyphCell (a : Nat) (v : Byte) : Bool := decide (a < 64) && decide (v.toNat < 32)

/-- A DDRAM cell lies in one of the four windows (R30). -/
def visibleCell (a : Nat) (_ : Byte) : Bool := decide (a < 128) && visible (BitVec.ofNat 7 a)

/-- DDRAM and CGRAM are in canonical form and list only cells their spaces have. -/
def Lcd.memoriesWf (l : Lcd) : Bool :=
  Memory.wf Config.blank l.ddram && Memory.within visibleCell l.ddram &&
  Memory.wf Config.unwritten l.cgram && Memory.within glyphCell l.cgram

/-- EE_MEM is in canonical form and lists only cells it has. -/
def Eeprom.memoryWf (e : Eeprom) : Bool := Memory.wf Config.unwritten e.mem && Memory.within eepromCell e.mem

/-- A write is pending only while the EEPROM waits for the stop condition after its data byte (R66). -/
def Eeprom.pendingPlaced (e : Eeprom) : Bool := e.pend.isNone || decide (e.slave.phase = .extra)

/-- A slave that is not addressed keeps the wire released (R69). -/
def Slave.releases (x : Slave) : Bool := decide (x.phase ≠ .ignore) || x.drive

/-- The invariant of the bus: EE_MEM canonical, the slaves as R66 and R69 say. -/
def Bus.inv (b : Bus) : Bool :=
  b.ee.memoryWf && b.ee.pendingPlaced && b.ee.slave.releases && b.iox.slave.releases

/-- The invariant of every reachable state: the parameters are legal (R7), EDGE_IE is 1 (R35), the counters are in range
(R33, R198), the memories are canonical, and the slaves stand as R66 and R69 say. -/
def State.Inv (s : State) : Prop :=
  s.cfg.legal = true ∧ s.irq.edgeIe = true ∧ s.clk.inRange = true ∧ s.lcd.memoriesWf = true ∧ s.bus.inv = true

/-- The state a step or a meaning leaves satisfies P; false of a fault and of a refusal. -/
def Leaves (r : Res) (P : State → Prop) : Prop :=
  match r with
  | .next t => P t
  | .fault _ => False
  | .refused _ => False

/-- The byte of an operation that writes one data byte through the window without a wait (R94, R151). -/
def dataByte : Instr → Option Byte
  | .lcdDatawr v => some v
  | .lcdDataDd v => some v
  | .lcdDataCg x q => some (x ++ q)
  | _ => none

/-- The last of an operation's data bytes is stored: DDRAM after a data byte v (R57). -/
def ddramAfter (l : Lcd) (v : Byte) : List Host.Cell :=
  if l.ramsel = .dd then writeDdram l.ddram l.ac v else l.ddram

/-- CGRAM after a data byte v (R57). -/
def cgramAfter (l : Lcd) (v : Byte) : List Host.Cell :=
  if l.ramsel = .cg then writeCgram l.cgram (l.ac.extractLsb 5 0) v else l.cgram

/-- n micro-steps of the whole machine, stopping at a fault or a refusal. -/
def microSteps : Nat → State → Res
  | 0, s => .next s
  | n + 1, s => thenDo (microStep s) (microSteps n)

/-- n steps of the machine, stopping at a fault or a refusal. -/
def steps : Nat → State → Res
  | 0, s => .next s
  | n + 1, s => thenDo (step s) (steps n)

/-- n executions of operation i, one after another. -/
def execTimes (i : Instr) : Nat → State → Res
  | 0, s => .next s
  | n + 1, s => thenDo (execTimes i n s) (exec i)

/-- n ticks of the clock's counters (R198). -/
def tickTimes : Nat → Clock → Clock
  | 0, c => c
  | n + 1, c => (tick (tickTimes n c)).1

/-- The DDRAM address of a logical cell number: rows 0 to 3 in order, 16 columns each, counted round the display (R176,
R178). -/
def cellAddr (n : Nat) : BitVec 7 := cursorAddr (n % 64 / 16) (n % 16)

end Sys2Proof.Machine
end

