-- ==== Sys2Proof/Certificates/Slice0/Obligations.lean ====
section
/-! DEFINITION. The statements for the provers, in the order of OBLIGATIONS.json. A statement about every state is a statement
about every value of the OPEN parameters (`s.cfg`, R7): a value it needs is a premise. `s.done r` is the whole state an
undisturbed operation leaves but for what a statement writes over it, so each equation is also the operation's frame. -/

open Sys2Proof Sys2Proof.Machine

/-! ## Bus primitives (40_bus_primitives.md) -/

/-- R111: four micro-steps leave both lines 0 and ACK alone whatever the lines were; where no slave holds the data wire it is a
start condition, which every reference slave on the bus hears. A write the EEPROM holds pending is performed where the first
micro-step makes a stop condition (b); else the start condition finds it pending, and it is performed or discarded (R66, U10): that
one performed there also begins its write cycle is the model's choice (notes/assumptions/18). Where a slave holds the wire (c),
a further one or a reference slave that acknowledges or sends, there is no start condition: the slaves see one clock pulse (EE_PTR
within a sent byte: notes/assumptions/37). -/
def Obligations.BusStartLowersBothLines : Prop :=
  (∀ s : State, s.calm = true → slvSda s.bus = true → s.bus.ee.pend = none →
    exec .busStart s = .next { s.done .nothing with
      bus := { s.bus with
        sclOut := false, sdaOut := false
        ee := { s.bus.ee with slave := slaveStart s.cfg.eePresent }
        iox := { s.bus.iox with slave := slaveStart s.cfg.ioxPresent }
        extDrive := s.bus.extScript.headD true, extScript := s.bus.extScript.tail } }) ∧
  (∀ (s : State) (d : Byte), s.calm = true → slvSda s.bus = true → s.bus.ee.pend = some d →
    ∃ performed : Bool, (s.bus.sclOut = true → s.bus.sdaOut = false → performed = true) ∧
      exec .busStart s = .next { s.done .nothing with
        bus := { s.bus with
          sclOut := false, sdaOut := false
          ee := { s.bus.ee with
            slave := slaveStart s.cfg.eePresent, pend := none, wbusy := performed || s.bus.ee.wbusy
            mem := if performed then writeEeprom s.bus.ee.mem s.bus.ee.page s.bus.ee.ptr d else s.bus.ee.mem }
          iox := { s.bus.iox with slave := slaveStart s.cfg.ioxPresent }
          extDrive := s.bus.extScript.headD true, extScript := s.bus.extScript.tail
          draws := if s.bus.sclOut = true ∧ s.bus.sdaOut = false then s.bus.draws else s.bus.draws + 1 } }) ∧
  (∀ s : State, s.calm = true → slvSda s.bus = false →
    s.bus.ee.slave.notReceiving = true → s.bus.iox.slave.notReceiving = true →
    (s.bus.sclOut = true → s.bus.ee.slave.phase = .send → s.bus.ee.slave.acking = true) →
    (s.bus.sclOut = true → s.bus.iox.slave.phase = .send → s.bus.iox.slave.acking = true) →
    ∃ ptr, (s.bus.ee.slave.endsByte = false → ptr = s.bus.ee.ptr) ∧
      exec .busStart s = .next { s.done .nothing with
        bus := { s.bus with
          sclOut := false, sdaOut := false
          ee := { s.bus.ee with slave := s.bus.ee.slave.pulsed, ptr := ptr }
          iox := { s.bus.iox with slave := s.bus.iox.slave.pulsed }
          extDrive := s.bus.extScript.headD true, extScript := s.bus.extScript.tail
          draws := if s.bus.ee.slave.endsByte then s.bus.draws + 1 else s.bus.draws } })

/-- R112, R66: three micro-steps leave the idle bus (1, 1) and ACK alone; the stop condition ends the transaction in both
slaves and performs a write the EEPROM holds pending, that one cell and no other, and begins its write cycle. Entered from the
idle bus (b) the first micro-step makes a start condition, at which the pending write is performed or discarded (U10; that one
performed there begins its write cycle is the model's choice, notes/assumptions/18). Where a slave holds the data wire (c)
there is no stop condition: the slaves see at most a rising clock edge with the wire at 0, and nothing is written. -/
def Obligations.BusStopEndsTransaction : Prop :=
  (∀ s : State, s.calm = true → slvSda s.bus = true → s.bus.ee.pend = none →
    exec .busStop s = .next { s.done .nothing with
      bus := { s.bus with
        sclOut := true, sdaOut := true
        ee := { s.bus.ee with slave := Slave.unaddressed }
        iox := { s.bus.iox with slave := Slave.unaddressed } } }) ∧
  (∀ (s : State) (d : Byte), s.calm = true → slvSda s.bus = true → s.bus.ee.pend = some d →
    s.bus.sclOut = false ∨ s.bus.sdaOut = false → s.bus.ee.memoryWf = true →
    ∃ m, exec .busStop s = .next { s.done .nothing with
      bus := { s.bus with
        sclOut := true, sdaOut := true
        ee := { s.bus.ee with slave := Slave.unaddressed, pend := none, wbusy := true, mem := m }
        iox := { s.bus.iox with slave := Slave.unaddressed } } } ∧
    ∀ a, Memory.read Config.unwritten m a =
      if a = eeIndex s.bus.ee.page s.bus.ee.ptr then d else Memory.read Config.unwritten s.bus.ee.mem a) ∧
  (∀ (s : State) (d : Byte), s.calm = true → slvSda s.bus = true → s.bus.ee.pend = some d →
    s.bus.sclOut = true → s.bus.sdaOut = true →
    ∃ performed : Bool, exec .busStop s = .next { s.done .nothing with
      bus := { s.bus with
        ee := { s.bus.ee with
          slave := Slave.unaddressed, pend := none, wbusy := performed || s.bus.ee.wbusy
          mem := if performed then writeEeprom s.bus.ee.mem s.bus.ee.page s.bus.ee.ptr d else s.bus.ee.mem }
        iox := { s.bus.iox with slave := Slave.unaddressed }
        draws := s.bus.draws + 1 } }) ∧
  (∀ s : State, s.calm = true → slvSda s.bus = false →
    exec .busStop s = .next { s.done .nothing with
      bus := { s.bus with
        sclOut := true, sdaOut := true
        ee := { s.bus.ee with slave := if s.bus.sclOut then s.bus.ee.slave else slaveRise false s.bus.ee.slave }
        iox := { s.bus.iox with slave := if s.bus.sclOut then s.bus.iox.slave else slaveRise false s.bus.iox.slave } } })

/-- R114, R52 and the bus law of section 8 (S10): entered with the clock low and no reference slave addressed, BUS_SEND returns
in ACK the level a further slave drives during the ninth pulse, whatever byte is sent: 0 when it pulls low, 1 when nobody
answers. -/
def Obligations.BusSendReturnsNinthBit : Prop :=
  ∀ (v : Byte) (s : State), s.calm = true → s.bus.sclOut = false →
    s.bus.ee.slave = Slave.unaddressed → s.bus.iox.slave = Slave.unaddressed →
    (s.cfg.busOpenDrain = true ∨ s.bus.extScript.getD 7 true = true) →
    exec (.busSend v) s = .next { s.done (.ack (s.bus.extScript.getD 7 true)) with
      bus := { s.bus with
        sclOut := false, sdaOut := true, ack := s.bus.extScript.getD 7 true
        extDrive := s.bus.extScript.getD 8 true, extScript := s.bus.extScript.drop 9 } }

/-- R116: the byte v a slave drives, bit 7 first, is the result, and the lines end as they were; with the master holding the
data line low (b) the result is 0 whatever the slave drives. -/
def Obligations.BusRecvAssemblesByte : Prop :=
  ∀ (v : Byte) (s : State), s.calm = true → s.bus.sclOut = false → s.cfg.busOpenDrain = true →
    s.bus.ee.slave = Slave.unaddressed → s.bus.iox.slave = Slave.unaddressed →
    s.bus.extDrive = v.getLsbD 7 → (∀ i < 7, s.bus.extScript.getD i true = v.getLsbD (6 - i)) →
    exec .busRecv s = .next { s.done (.byte (if s.bus.sdaOut then v else 0#8)) with
      bus := { s.bus with extDrive := s.bus.extScript.getD 7 true, extScript := s.bus.extScript.drop 8 } }

/-- R117, R88: the data line is released and the clock pulsed once, whoever drives the wire: a further slave takes its next
level, a reference slave waiting for the ninth clock is done with its byte; ACK is not sampled. That EE_PTR stays until the last
bit of a sent byte is the model's choice (notes/assumptions/37). -/
def Obligations.BusNoackPulsesClock : Prop :=
  (∀ s : State, s.calm = true → s.bus.ee.slave = Slave.unaddressed → s.bus.iox.slave = Slave.unaddressed →
    s.bus.ee.pend = none →
    exec .busNoack s = .next { s.done .nothing with
      bus := { s.bus with
        sclOut := false, sdaOut := true
        extDrive := s.bus.extScript.headD true, extScript := s.bus.extScript.tail } }) ∧
  (∀ s : State, s.calm = true → s.bus.sclOut = false →
    s.bus.ee.slave.notReceiving = true → s.bus.iox.slave.notReceiving = true →
    ∃ ptr, (s.bus.ee.slave.endsByte = false → ptr = s.bus.ee.ptr) ∧
      exec .busNoack s = .next { s.done .nothing with
        bus := { s.bus with
          sclOut := false, sdaOut := true
          ee := { s.bus.ee with slave := s.bus.ee.slave.pulsed, ptr := ptr }
          iox := { s.bus.iox with slave := s.bus.iox.slave.pulsed }
          extDrive := s.bus.extScript.headD true, extScript := s.bus.extScript.tail
          draws := if s.bus.ee.slave.endsByte then s.bus.draws + 1 else s.bus.draws } })

/-! ## EEPROM client (41_eeprom_client.md) and the reference EEPROM (R66) -/

/-- R66, R67, R89: the EEPROM acknowledges its control byte when its write cycle is over, takes the page, and then listens for
an offset (write) or drives the addressed cell (read); absent or busy it does not answer. That the row EE_CTRL_BYTE is a start
condition and then the byte, with the acknowledgment as its result, is the model's choice (notes/assumptions/12). -/
def Obligations.EeControlByteSelectsPage : Prop :=
  ∀ (page : BitVec 3) (rw : Bit) (s : State), s.calm = true → s.busFree = true → s.cfg.legal = true →
    s.cfg.busOpenDrain = true →
    exec (.eeCtrlByte page rw) s = .next (
      if s.eepromAnswers then
        { s.done (.ack false) with
          bus := { s.bus with
            sclOut := false, sdaOut := true, ack := false
            ee := { s.bus.ee with
              page := page
              slave :=
                if rw then Slave.sending (readEeprom s (page.toNat * 256 + s.bus.ee.ptr.toNat))
                else Slave.listening .second (0b1010#4 ++ page ++ 0#1) } } }
      else
        { s.done (.ack true) with bus := { s.bus with sclOut := false, sdaOut := true, ack := true } })

/-- R131 with the reference EEPROM answering: ack 0, bus idle, EE_PTR the offset, the one cell page*256 + offset written;
the write cycle is over after the delay exactly when it settles (R67). -/
def Obligations.EeWriteStoresByte : Prop :=
  ∀ (page offset data : Byte) (s : State), page.toNat ≤ 7 → s.calm = true → s.busFree = true → s.cfg.legal = true →
    s.cfg.busOpenDrain = true → s.eepromAnswers = true → s.bus.ee.memoryWf = true →
    ∃ m, exec (.eeWrite page offset data) s = .next { s.done (.ack false) with
      bus := { s.bus with
        sclOut := true, sdaOut := true, ack := false
        ee := { s.bus.ee with
          page := page.setWidth 3, ptr := offset, wbusy := decide (s.env.ee ≠ .settles), mem := m } } } ∧
    ∀ a, Memory.read Config.unwritten m a =
      if a = page.toNat * 256 + offset.toNat then data else Memory.read Config.unwritten s.bus.ee.mem a

/-- R131, R133, R67: with the EEPROM absent or in its write cycle the control byte is not acknowledged: result 1, the closing
steps and the delay done, no cell changed. -/
def Obligations.EeWriteUnanswered : Prop :=
  ∀ (page offset data : Byte) (s : State), page.toNat ≤ 7 → s.calm = true → s.busFree = true → s.cfg.legal = true →
    s.eepromAnswers = false →
    exec (.eeWrite page offset data) s = .next { s.done (.ack true) with
      bus := { s.bus with
        sclOut := true, sdaOut := true, ack := true
        ee := { s.bus.ee with wbusy := s.bus.ee.wbusy && decide (s.env.ee ≠ .settles) } } }

/-- R132 with the reference EEPROM answering: (0, the cell), bus idle, no cell changed. EE_PTR is free afterwards (U10). -/
def Obligations.EeReadReturnsCell : Prop :=
  ∀ (page offset : Byte) (s : State), page.toNat ≤ 7 → s.calm = true → s.busFree = true → s.cfg.legal = true →
    s.cfg.busOpenDrain = true → s.eepromAnswers = true →
    ∃ ptr, exec (.eeRead page offset) s = .next
      { s.done (.ackData false (readEeprom s (page.toNat * 256 + offset.toNat))) with
        bus := { s.bus with
          sclOut := true, sdaOut := true, ack := false, draws := s.bus.draws + 1
          ee := { s.bus.ee with page := page.setWidth 3, ptr := ptr } }
        draws := s.draws + 1 }

/-- R132, R133: unanswered, EE_READ returns (1, any) after its closing steps. -/
def Obligations.EeReadUnanswered : Prop :=
  ∀ (page offset : Byte) (s : State), page.toNat ≤ 7 → s.calm = true → s.busFree = true → s.cfg.legal = true →
    s.eepromAnswers = false →
    ∃ d, exec (.eeRead page offset) s = .next { s.done (.ackData true d) with
      bus := { s.bus with sclOut := true, sdaOut := true, ack := true }
      draws := s.draws + 1 }

/-- R134: the round-trip law, and no other cell is disturbed. -/
def Obligations.EepromRoundTrip : Prop :=
  ∀ (page offset value : Byte) (s : State), page.toNat ≤ 7 → s.calm = true → s.busFree = true → s.cfg.legal = true →
    s.cfg.busOpenDrain = true → s.eepromAnswers = true → s.env.ee = .settles → s.bus.ee.memoryWf = true →
    ∃ t u, exec (.eeWrite page offset value) s = .next t ∧ exec (.eeRead page offset) t = .next u ∧
      u.results = s.results ++ [.ack false, .ackData false value] ∧
      ∀ a, readEeprom u a = if a = page.toNat * 256 + offset.toNat then value else readEeprom s a

/-- R265: with a settle delay shorter than the write cycle the next EEPROM operation, a read or a write, goes unanswered and
changes no cell, although the first write is done. -/
def Obligations.ShortSettleGoesUnanswered : Prop :=
  ∀ (page offset value page' offset' : Byte) (s : State), page.toNat ≤ 7 → page'.toNat ≤ 7 → s.calm = true →
    s.busFree = true → s.cfg.legal = true → s.cfg.busOpenDrain = true → s.eepromAnswers = true →
    s.env.ee = .scripted → s.bus.ee.memoryWf = true →
    ∃ t, exec (.eeWrite page offset value) s = .next t ∧
      (∀ a, readEeprom t a = if a = page.toNat * 256 + offset.toNat then value else readEeprom s a) ∧
      (∃ u d, exec (.eeRead page' offset') t = .next u ∧ u.results = s.results ++ [.ack false, .ackData true d] ∧
        ∀ a, readEeprom u a = readEeprom t a) ∧
      (∀ value' : Byte, ∃ u, exec (.eeWrite page' offset' value') t = .next u ∧
        u.results = s.results ++ [.ack false, .ack true] ∧ ∀ a, readEeprom u a = readEeprom t a)

/-- R87, R173: page > 7 and slot > 7 are refused in every state; LCD_GOTO out of range is a legal request that touches nothing
and does no micro-step, so that nothing pending is taken in it either. -/
def Obligations.OutOfRangeOperands : Prop :=
  (∀ (page offset data : Byte) (s : State), page.toNat > 7 →
    exec (.eeWrite page offset data) s = .refused .operandOutsideDomain ∧
    exec (.eeRead page offset) s = .refused .operandOutsideDomain) ∧
  (∀ (slot : Byte) (rows : Vector Byte 8) (s : State), slot.toNat > 7 →
    exec (.lcdGlyph slot rows) s = .refused .operandOutsideDomain) ∧
  (∀ (row column : Byte) (s : State), row.toNat > 3 ∨ column.toNat > 15 → s.atRest = true →
    exec (.lcdGoto row column) s = .next { s with results := s.results ++ [.applied false] })

/-! ## Expander client (42_ioexpander_client.md) and the reference expander (R68) -/

/-- R141, R68: the port takes the mask when the expander answers; absent, ack = 1 and nothing else changes. -/
def Obligations.IoxCfgWritesPort : Prop :=
  ∀ (mask : Byte) (s : State), s.calm = true → s.busFree = true → s.cfg.legal = true → s.cfg.busOpenDrain = true →
    exec (.ioxCfg mask) s = .next { s.done (.ack (!s.cfg.ioxPresent)) with
      bus := { s.bus with
        sclOut := true, sdaOut := true, ack := !s.cfg.ioxPresent
        iox := { s.bus.iox with port := if s.cfg.ioxPresent then mask else s.bus.iox.port } } }

/-- R142, R68: the result is the port when the expander answers and any value when it does not; ACK tells. -/
def Obligations.IoxReadReturnsPort : Prop :=
  ∀ s : State, s.calm = true → s.busFree = true → s.cfg.legal = true → s.cfg.busOpenDrain = true →
    ∃ d, (s.cfg.ioxPresent = true → d = s.bus.iox.port) ∧
      exec .ioxRead s = .next { s.done (.byte d) with
        bus := { s.bus with sclOut := true, sdaOut := true, ack := !s.cfg.ioxPresent }
        draws := s.draws + 1 }

/-- R68, R91: the expander answers both its address bytes, then takes a port byte or drives its port. That the rows IOX_ADDR_W
and IOX_ADDR_R are a start condition and then the byte, with the acknowledgment as the result, is the model's choice
(notes/assumptions/12). -/
def Obligations.IoxAddressBytesAnswered : Prop :=
  ∀ s : State, s.calm = true → s.busFree = true → s.cfg.legal = true → s.cfg.busOpenDrain = true →
    exec .ioxAddrW s = .next { s.done (.ack (!s.cfg.ioxPresent)) with
      bus := { s.bus with
        sclOut := false, sdaOut := true, ack := !s.cfg.ioxPresent
        iox := { s.bus.iox with
          slave := if s.cfg.ioxPresent then Slave.listening .second s.cfg.ioxAddrW else Slave.unaddressed } } } ∧
    exec .ioxAddrR s = .next { s.done (.ack (!s.cfg.ioxPresent)) with
      bus := { s.bus with
        sclOut := false, sdaOut := true, ack := !s.cfg.ioxPresent
        iox := { s.bus.iox with
          slave := if s.cfg.ioxPresent then Slave.sending s.bus.iox.port else Slave.unaddressed } } }

/-! ## LCD window (43_lcd_primitives.md) and the reference module (20_memory.md section 4) -/

/-- R25: the latch takes RS and RW, and nothing else changes but what LCDDEV does at the boundary. -/
def Obligations.LcdModeWritesLatch : Prop :=
  ∀ (rs rw : Bit) (s : State), s.calm = true →
    exec (.lcdMode rs rw) s = .next { s.done .nothing with
      lcd := { (readyEager s).lcd with mode := BitVec.ofBool rs ++ BitVec.ofBool rw } }

/-- R60, R92, R150: the two address commands, as LCD_CMDWR bytes and as the rows that name them. -/
def Obligations.AddressCommandsSetAddress : Prop :=
  ∀ s : State, s.calm = true → s.lcdFree = true →
    (∀ v : Byte, v.getLsbD 7 = true →
      exec (.lcdCmdwr v) s = .next { s.done .nothing with
        lcd := { s.lcd with mode := 0b00#2, ac := v.extractLsb 6 0, ramsel := .dd, bf := true } }) ∧
    (∀ v : Byte, v.extractLsb 7 6 = 0b01#2 →
      exec (.lcdCmdwr v) s = .next { s.done .nothing with
        lcd := { s.lcd with mode := 0b00#2, ac := 0#1 ++ v.extractLsb 5 0, ramsel := .cg, bf := true } }) ∧
    (∀ a : BitVec 7,
      exec (.setDdramAddr a) s = .next { s.done .nothing with
        lcd := { s.lcd with mode := 0b00#2, ac := a, ramsel := .dd, bf := true } }) ∧
    (∀ slot row : BitVec 3,
      exec (.setCgramAddr slot row) s = .next { s.done .nothing with
        lcd := { s.lcd with mode := 0b00#2, ac := 0#1 ++ slot ++ row, ramsel := .cg, bf := true } })

/-- R60: the effects of the named commands, for every legal choice of their bytes. Clear-display leaves every visible cell
BLANK. -/
def Obligations.NamedCommandsTakeEffect : Prop :=
  ∀ s : State, s.calm = true → s.lcdFree = true → s.cfg.legal = true → Memory.wf Config.blank s.lcd.ddram = true →
    (∃ m, exec .cmdClear s = .next { s.done .nothing with
        lcd := { s.lcd with mode := 0b00#2, ddram := m, ac := 0#7, ramsel := .dd, bf := true } } ∧
      ∀ a, Memory.read Config.blank m a = if a ∈ visibleAddrs then Config.blank else readDdram s a) ∧
    exec .cmdHome s = .next { s.done .nothing with
      lcd := { s.lcd with mode := 0b00#2, ac := 0#7, ramsel := .dd, bf := true } } ∧
    exec .cmdEntryInc s = .next { s.done .nothing with lcd := { s.lcd with mode := 0b00#2, entryInc := true, bf := true } } ∧
    exec .cmdDisplayOff s = .next { s.done .nothing with
      lcd := { s.lcd with mode := 0b00#2, displayOn := false, bf := true } } ∧
    exec .cmdFsFinal s = .next { s.done .nothing with
      lcd := { s.lcd with mode := 0b00#2, func := s.cfg.cmdFsFinal, bf := true } }

/-- R62, R171: the wake-up function-set is accepted whatever BF is. The row CMD_FS_WAKE stands for one such write
(notes/assumptions/26). -/
def Obligations.WakeCommandIgnoresBusy : Prop :=
  ∀ s : State, s.calm = true → s.cfg.legal = true →
    exec .cmdFsWake s = .next { s.done .nothing with
      lcd := { s.lcd with mode := 0b00#2, func := s.cfg.cmdFsWake, bf := true } }

/-- R92, R150: writing a command row's byte with LCD_CMDWR is that row, the wake-up row too where the module is free (busy, the
two differ: notes/assumptions/26). -/
def Obligations.CommandRowsAreCommandWrites : Prop :=
  ∀ (i : Instr) (v : Byte) (s : State), formatOf i = .lcdCmd → (i = .cmdFsWake → s.lcdFree = true) →
    encode s.cfg i = [v] → s.calm = true →
    exec (.lcdCmdwr v) s = exec i s

/-- R60, U14: a command byte with bits 7:6 = 00 that is none of the six is refused. -/
def Obligations.UnlistedCommandRefused : Prop :=
  ∀ (v : Byte) (s : State), v.extractLsb 7 6 = 0b00#2 → v ∉ s.cfg.commandBytes → s.calm = true → s.lcdFree = true →
    exec (.lcdCmdwr v) s = .refused (.unlistedCommand v)

/-- R62: a command or a data byte delivered while BF = 1 is the fault LCD_BUSY_WRITE. -/
def Obligations.BusyWriteFaults : Prop :=
  ∀ (i : Instr) (s : State),
    ((∃ v, i = .lcdCmdwr v) ∨ (∃ v, i = .lcdDatawr v) ∨ (∃ v, i = .lcdDataDd v) ∨ (∃ x q, i = .lcdDataCg x q) ∨
      (formatOf i = .lcdCmd ∧ i ≠ .cmdFsWake)) →
    s.calm = true → s.lcd.bf = true → s.env.lcd ≠ .eager → exec i s = .fault .lcdBusyWrite

/-- R57, R94, R151: with ENTRY_INC = 1 a data byte goes to the one cell RAMSEL and AC name, if the module has it, and AC
advances, modulo 128 in DDRAM, modulo 64 in its low six bits in CGRAM. -/
def Obligations.DataByteStoredAndAdvances : Prop :=
  ∀ (i : Instr) (v : Byte) (s : State), dataByte i = some v → s.calm = true → s.lcdFree = true → s.lcd.entryInc = true →
    s.lcd.memoriesWf = true →
    ∃ d g, exec i s = .next { s.done .nothing with
        lcd := { s.lcd with
          mode := 0b10#2, bf := true, ddram := d, cgram := g
          ac := if s.lcd.ramsel = .dd then s.lcd.ac + 1#7 else s.lcd.ac.extractLsb 6 6 ++ (s.lcd.ac.extractLsb 5 0 + 1#6) } } ∧
      (∀ a, Memory.read Config.blank d a =
        if s.lcd.ramsel = .dd ∧ a = s.lcd.ac.toNat ∧ a ∈ visibleAddrs then v else readDdram s a) ∧
      (∀ a, Memory.read Config.unwritten g a =
        if s.lcd.ramsel = .cg ∧ a = s.lcd.ac.toNat % 64 then v &&& 0x1F#8 else readCgram s a)

/-- R57, U9: with ENTRY_INC = 0 the byte is stored all the same, and AC is any value. -/
def Obligations.DataByteWithoutEntryMode : Prop :=
  ∀ (i : Instr) (v : Byte) (s : State), dataByte i = some v → s.calm = true → s.lcdFree = true → s.lcd.entryInc = false →
    ∃ ac, exec i s = .next { s.done .nothing with
      lcd := { s.lcd with
        mode := 0b10#2, bf := true, ac := ac, draws := s.lcd.draws + 1
        ddram := ddramAfter s.lcd v, cgram := cgramAfter s.lcd v } }

/-- R59, R61, R93, R152: the status byte is BF and AC, and reading it changes nothing of the module but what LCDDEV did. -/
def Obligations.StatusReadReturnsBusyAndAddress : Prop :=
  ∀ (i : Instr) (s : State), i = .lcdStatrd ∨ i = .lcdStatus → s.calm = true →
    exec i s = .next
      { s.done (.byte (BitVec.ofBool (s.lcd.bf && decide (s.env.lcd = .scripted)) ++ s.lcd.ac)) with
        lcd := { s.lcd with mode := 0b01#2, bf := s.lcd.bf && decide (s.env.lcd = .scripted) } }

/-- R153: LCD_WAIT ends with a status byte whose bit 7 is 0, at its first read when the module is ready or responsive; and when
the module becomes ready at some later boundary the loop goes on until the first read after that. (n below the quantum, so that
one step sees the end: notes/assumptions/9.) -/
def Obligations.WaitReturnsReadyStatus : Prop :=
  (∀ s : State, s.calm = true → s.waitEnds = true →
    exec .lcdWait s = .next { s.done (.byte (0#1 ++ s.lcd.ac)) with lcd := { s.lcd with mode := 0b01#2, bf := false } }) ∧
  (∀ (n : Nat) (s : State), n < Config.quantum → s.calm = true → s.lcd.bf = true → s.env.lcd = .scripted →
    exec .lcdWait { s with env := { s.env with script := List.replicate n [] ++ [[.lcdReady]] } } =
      .next { s.done (.byte (0#1 ++ s.lcd.ac)) with lcd := { s.lcd with mode := 0b01#2, bf := false } })

/-- R153, R236: with a module that never clears BF, LCD_WAIT never returns: however many steps follow, the caller's SEQ is
still in it and it has returned nothing. -/
def Obligations.UnresponsiveModuleHangs : Prop :=
  ∀ s : State, s.calm = true → s.lcd.bf = true → s.env.lcd = .scripted →
    ∃ t, exec .lcdWait s = .next t ∧ ∀ n, ∃ u, steps n t = .next u ∧ u.fg.op = some .lcdWait ∧ u.resting = false ∧
      u.lcd.bf = true ∧ u.results = s.results

/-! ## LCD operations (44_lcd_operations.md) -/

/-- R172: the state of the module after LCD_INIT returns. Its delays also let the EEPROM's write cycle end (R67, R71). -/
def Obligations.InitLeavesModuleReady : Prop :=
  ∀ s : State, s.calm = true → s.cfg.legal = true → s.lcdAnswers = true → Memory.wf Config.blank s.lcd.ddram = true →
    ∃ bf m, exec .lcdInit s = .next { s.done .nothing with
        lcd := { s.lcd with
          mode := 0b00#2, bf := bf, ac := 0#7, ramsel := .dd, entryInc := true, displayOn := false
          func := s.cfg.cmdFsFinal, ddram := m }
        bus := { s.bus with ee := { s.bus.ee with wbusy := s.bus.ee.wbusy && decide (s.env.ee ≠ .settles) } } } ∧
      ∀ a, Memory.read Config.blank m a = if a ∈ visibleAddrs then Config.blank else readDdram s a

/-- R173, R180: within range LCD_GOTO sets AC to ROW_BASE[row] + column and is applied. -/
def Obligations.GotoSetsCursor : Prop :=
  ∀ (row column : Byte) (s : State), row.toNat ≤ 3 → column.toNat ≤ 15 → s.calm = true → s.waitEnds = true →
    exec (.lcdGoto row column) s = .next { s.done (.applied true) with
      lcd := { s.lcd with
        mode := 0b00#2, ramsel := .dd, bf := true
        ac := BitVec.ofNat 7 ([0x00, 0x40, 0x10, 0x50].getD row.toNat 0 + column.toNat) } }

/-- R174, R57: LCD_PUTC stores one character and AC advances. -/
def Obligations.PutcStoresCharacter : Prop :=
  ∀ (code : Byte) (s : State), s.calm = true → s.waitEnds = true → s.lcd.entryInc = true → s.lcd.memoriesWf = true →
    ∃ d g, exec (.lcdPutc code) s = .next { s.done .nothing with
        lcd := { s.lcd with
          mode := 0b10#2, bf := true, ddram := d, cgram := g
          ac := if s.lcd.ramsel = .dd then s.lcd.ac + 1#7 else s.lcd.ac.extractLsb 6 6 ++ (s.lcd.ac.extractLsb 5 0 + 1#6) } } ∧
      (∀ a, Memory.read Config.blank d a =
        if s.lcd.ramsel = .dd ∧ a = s.lcd.ac.toNat ∧ a ∈ visibleAddrs then code else readDdram s a) ∧
      (∀ a, Memory.read Config.unwritten g a =
        if s.lcd.ramsel = .cg ∧ a = s.lcd.ac.toNat % 64 then code &&& 0x1F#8 else readCgram s a)

/-- R176, R178, the wrap law: a text started at logical cell m (rows 0 to 3 in order) lands cell after cell round the display,
the last 64 characters remaining, under both policies; they differ in the final address and LCD_MODE, since only eager ends with a
set-address command where the last character ended a row. -/
def Obligations.PutsGoesRoundTheDisplay : Prop :=
  ∀ (text : List Byte) (m : Nat) (s : State), text.length ≤ 255 → m < 64 → s.calm = true → s.lcdAnswers = true →
    s.lcd.entryInc = true → s.lcd.ramsel = .dd → s.lcd.ac = cellAddr m → Memory.wf Config.blank s.lcd.ddram = true →
    ∃ mode ac d, exec (.lcdPuts text) s = .next { s.done .nothing with
        lcd := { s.lcd with mode := mode, bf := !text.isEmpty, ac := ac, ddram := d } } ∧
      mode = (if text = [] then 0b01#2
        else if s.cfg.putsWrap = .eager ∧ (m + text.length) % 16 = 0 then 0b00#2 else 0b10#2) ∧
      (∀ k < text.length, text.length ≤ k + 64 →
        Memory.read Config.blank d (cellAddr (m + k)).toNat = text.getD k 0#8) ∧
      (∀ j < 64, text.length ≤ j → Memory.read Config.blank d (cellAddr (m + j)).toNat = readDdram s (cellAddr (m + j)).toNat) ∧
      (∀ a, a ∉ visibleAddrs → Memory.read Config.blank d a = readDdram s a) ∧
      ac = (match s.cfg.putsWrap with
        | .eager => cellAddr (m + text.length)
        | .deferred => if text = [] then cellAddr m else cellAddr (m + text.length - 1) + 1#7)

/-- R176, U8: LCD_PUTS started at an address outside the four windows is refused. -/
def Obligations.PutsOutsideWindowsRefused : Prop :=
  ∀ (text : List Byte) (s : State), s.calm = true → s.waitEnds = true → s.lcd.ac.toNat ∉ visibleAddrs →
    exec (.lcdPuts text) s = .refused (.putsOutsideWindows s.lcd.ac)

/-- R179: the eight rows of one slot, low five bits, no other row; the module is left addressing CGRAM after it. -/
def Obligations.GlyphDefinesSlot : Prop :=
  ∀ (slot : Byte) (rows : Vector Byte 8) (s : State), slot.toNat ≤ 7 → s.calm = true → s.lcdAnswers = true →
    s.lcd.entryInc = true → Memory.wf Config.unwritten s.lcd.cgram = true →
    ∃ g, exec (.lcdGlyph slot rows) s = .next { s.done .nothing with
        lcd := { s.lcd with
          mode := 0b10#2, bf := true, cgram := g, ramsel := .cg, ac := BitVec.ofNat 7 ((slot.toNat * 8 + 8) % 64) } } ∧
      (∀ r : Fin 8, Memory.read Config.unwritten g (slot.toNat * 8 + r) = rows[r] &&& 0x1F#8) ∧
      ∀ a, (a < slot.toNat * 8 ∨ slot.toNat * 8 + 8 ≤ a) → Memory.read Config.unwritten g a = readCgram s a

/-! ## Background agents (45_background_agents.md) -/

/-- R191, R97, R192: start and its alias set both bits, stop clears the enable; the counters stay. -/
def Obligations.ClockStartAndStop : Prop :=
  ∀ s : State, s.calm = true →
    exec .clkStart s = .next { s.done .nothing with irq := { s.irq with tmrIe := true, tmrRun := true } } ∧
    exec .clkResume s = .next { s.done .nothing with irq := { s.irq with tmrIe := true, tmrRun := true } } ∧
    exec .clkStop s = .next { s.done .nothing with irq := { s.irq with tmrIe := false } }

/-- R193, R95: the counters are 0, the timer disabled, the seven cells read 00:00:0 and no other cell changes; AC is free. -/
def Obligations.ClockResetRendersZero : Prop :=
  ∀ s : State, s.calm = true → s.cfg.legal = true → s.lcdAnswers = true → s.lcd.entryInc = true →
    Memory.wf Config.blank s.lcd.ddram = true →
    ∃ ac d, exec .clkReset s = .next { s.done .nothing with
        clk := { raw := 0, ms := 0, sec := 0, min := 0 }
        irq := { s.irq with tmrIe := false }
        lcd := { s.lcd with
          mode := 0b10#2, bf := true, ramsel := .dd, ac := ac, ddram := d, draws := s.lcd.draws + 1 } } ∧
      ∀ a, Memory.read Config.blank d a =
        if 0x50 + s.cfg.clkCol ≤ a ∧ a < 0x50 + s.cfg.clkCol + 7
        then [0x30#8, 0x30#8, 0x3A#8, 0x30#8, 0x30#8, 0x3A#8, 0x30#8].getD (a - (0x50 + s.cfg.clkCol)) 0#8
        else readDdram s a

/-- R194: restart is reset, then start, two requests with two results. -/
def Obligations.ClockRestartResetsThenStarts : Prop :=
  ∀ s : State, s.calm = true → s.cfg.legal = true → s.lcdAnswers = true → s.lcd.entryInc = true →
    ∃ t, exec .clkReset s = .next t ∧
      exec .clkRestart s = .next { t with
        irq := { t.irq with tmrIe := true, tmrRun := true }
        results := s.results ++ [.nothing, .nothing]
        lcd := { t.lcd with bf := decide (s.env.lcd ≠ .eager) } }

/-- R195, D31: undisturbed, CLK_READ returns (MIN, SEC, MS) in whatever order it reads them, and changes nothing. -/
def Obligations.ClockReadReturnsFields : Prop :=
  ∀ s : State, s.calm = true → s.cfg.readsEachField = true →
    exec .clkRead s = .next (s.done (.time s.clk.min s.clk.sec s.clk.ms))

/-- R201, R202: EDGE_READ returns CNT; EDGE_RESET clears it, and touches neither the expander nor the display. -/
def Obligations.EdgeReadAndReset : Prop :=
  ∀ s : State, s.calm = true →
    exec .edgeRead s = .next (s.done (.count s.cnt)) ∧
    exec .edgeReset s = .next { s.done .nothing with cnt := 0#4 }

/-- R197, R198, R227, R230: in a firing that changes no field TIMER_ISR advances RAW, leaves TMR_RUN = 1, its request is
cleared, no handler runs afterwards, and neither the window nor anything else is touched. -/
def Obligations.TimerTickWithoutRender : Prop :=
  ∀ s : State, s.undisturbed = true → s.clk.raw ≠ 10 →
    exec .timerIsr s = .next { readyEager s with
      clk := { s.clk with raw := s.clk.raw + 1 }
      irq := { s.irq with tmrRun := true, tmrPend := false }
      tisr := Seq.idle }

/-- R197 to R200: in a firing that changes fields the counters carry, the digits of the changed fields are rendered and no
other cell changes, and the guard puts LCD_MODE and AC back but not RAMSEL and BF. -/
def Obligations.TimerTickRendersChangedFields : Prop :=
  ∀ s : State, s.undisturbed = true → s.cfg.legal = true → s.lcdAnswers = true → s.lcd.entryInc = true →
    Memory.wf Config.blank s.lcd.ddram = true → s.clk.inRange = true → s.clk.raw = 10 →
    ∃ ms sec min d,
      ms = (s.clk.ms + 1) % 10 ∧
      sec = (if s.clk.ms = 9 then (s.clk.sec + 1) % 60 else s.clk.sec) ∧
      min = (if s.clk.ms = 9 ∧ s.clk.sec = 59 then (s.clk.min + 1) % 60 else s.clk.min) ∧
      exec .timerIsr s = .next { readyEager s with
        clk := { raw := 0, ms := ms, sec := sec, min := min }
        irq := { s.irq with tmrRun := true, tmrPend := false }
        lcd := { s.lcd with ddram := d, ramsel := .dd, bf := decide (s.env.lcd ≠ .eager) }
        tisr := Seq.idle } ∧
      ∀ a, Memory.read Config.blank d a =
        if a = 0x50 + s.cfg.clkCol + 6 then BitVec.ofNat 8 (0x30 + ms)
        else if s.clk.ms = 9 ∧ a = 0x50 + s.cfg.clkCol + 3 then BitVec.ofNat 8 (0x30 + sec / 10)
        else if s.clk.ms = 9 ∧ a = 0x50 + s.cfg.clkCol + 4 then BitVec.ofNat 8 (0x30 + sec % 10)
        else if s.clk.ms = 9 ∧ s.clk.sec = 59 ∧ a = 0x50 + s.cfg.clkCol then BitVec.ofNat 8 (0x30 + min / 10)
        else if s.clk.ms = 9 ∧ s.clk.sec = 59 ∧ a = 0x50 + s.cfg.clkCol + 1 then BitVec.ofNat 8 (0x30 + min % 10)
        else readDdram s a

/-- R200, the clock tick law: after CLK_RESET, k firings of TIMER_ISR leave RAW = k mod 11, MS = (k div 11) mod 10, SEC =
(k div 110) mod 60, MIN = (k div 6600) mod 60. -/
def Obligations.ClockTickLaw : Prop :=
  ∀ s : State, s.calm = true → s.cfg.legal = true → s.lcdAnswers = true → s.lcd.entryInc = true →
    ∃ t, exec .clkReset s = .next t ∧ ∀ k, ∃ u, execTimes .timerIsr k t = .next u ∧
      u.clk = { raw := k % 11, ms := k / 11 % 10, sec := k / 110 % 60, min := k / 6600 % 60 }

/-- R203: EDGE_ISR counts, merges the count into the expander's low nibble, renders edge_text from its cell on, and with the
guard puts LCD_MODE and AC back. With the expander absent nothing is merged, both transactions go unanswered and ACK is left 1. Its
request is cleared and no handler runs afterwards (R227, R230). -/
def Obligations.EdgeFiringCountsAndRenders : Prop :=
  ∀ s : State, s.undisturbed = true → s.busFree = true → s.cfg.legal = true → s.cfg.busOpenDrain = true →
    s.lcdAnswers = true → s.lcd.entryInc = true → Memory.wf Config.blank s.lcd.ddram = true →
    s.cfg.edgeRow.toNat ≤ 3 → s.cfg.edgeCol.toNat + (edgeText s.cfg (s.cnt + 1#4)).length ≤ 16 →
    ∃ d, exec .edgeIsr s = .next { readyEager s with
        cnt := s.cnt + 1#4
        bus := { s.bus with
          sclOut := true, sdaOut := true, ack := !s.cfg.ioxPresent
          iox := { s.bus.iox with
            port := if s.cfg.ioxPresent then (s.bus.iox.port &&& 0xF0#8) ||| (s.cnt + 1#4).setWidth 8 else s.bus.iox.port } }
        irq := { s.irq with edgePend := false }
        lcd := { s.lcd with
          ddram := d, ramsel := .dd
          mode := if s.cfg.edgeRenderGuarded then s.lcd.mode else 0b10#2
          ac := if s.cfg.edgeRenderGuarded then s.lcd.ac
            else cursorAddr s.cfg.edgeRow.toNat s.cfg.edgeCol.toNat + BitVec.ofNat 7 (edgeText s.cfg (s.cnt + 1#4)).length
          bf := if s.cfg.edgeRenderGuarded then decide (s.env.lcd ≠ .eager) else true }
        eisr := Seq.idle
        draws := s.draws + 1 } ∧
      ∀ a, Memory.read Config.blank d a =
        if (cursorAddr s.cfg.edgeRow.toNat s.cfg.edgeCol.toNat).toNat ≤ a ∧
            a < (cursorAddr s.cfg.edgeRow.toNat s.cfg.edgeCol.toNat).toNat + (edgeText s.cfg (s.cnt + 1#4)).length
        then (edgeText s.cfg (s.cnt + 1#4)).getD (a - (cursorAddr s.cfg.edgeRow.toNat s.cfg.edgeCol.toNat).toNat) 0#8
        else readDdram s a

/-- R204, the counter wrap law: after EDGE_RESET, k firings of EDGE_ISR leave CNT = k mod 16 and, for k >= 1, the expander's
low nibble equal to it and its high nibble as it was. The text of a count is taken to fit the display's 64 cells, so that a
firing ends within one step (notes/assumptions/9). -/
def Obligations.EdgeCounterLaw : Prop :=
  ∀ s : State, s.calm = true → s.busFree = true → s.cfg.legal = true → s.cfg.busOpenDrain = true →
    s.cfg.ioxPresent = true → s.lcdAnswers = true → (∀ c, (edgeText s.cfg c).length ≤ 64) →
    ∃ t, exec .edgeReset s = .next t ∧ ∀ k, ∃ u, execTimes .edgeIsr k t = .next u ∧
      u.cnt = BitVec.ofNat 4 k ∧
      (1 ≤ k → u.bus.iox.port = (s.bus.iox.port &&& 0xF0#8) ||| BitVec.ofNat 8 (k % 16))

/-! ## Interrupts, restart (60_exceptions.md, 70_reset_and_hazards.md) -/

/-- R227, R228, R231: at a boundary inside an operation of FG a takeable request is taken before FG's next micro-step; its
pending bit is cleared, IN_ISR set, the handler's SEQ is its expansion, of which the first micro-step is done; FG's SEQ with its
transients, the lines, ACK, the latch and both enables stay. The second
element of EDGE_ISR's expansion is no micro-step: it makes the value d of its read free until a byte is received (R142). -/
def Obligations.InterruptEntryKeepsForeground : Prop :=
  (∀ s : State, s.env.script = [] → takeable s = some .tisr → microStep s = .next { readyEager s with
    irq := { s.irq with tmrPend := false, tmrRun := false, inIsr := some .tisr }
    tisr := { op := some (handlerInstr .tisr), rest := (handlerCode s.cfg .tisr).drop 1, tr := Transients.none } }) ∧
  (∀ s : State, s.env.script = [] → takeable s = some .eisr → ∃ d, microStep s = .next { readyEager s with
    irq := { s.irq with edgePend := false, inIsr := some .eisr }
    cnt := s.cnt + 1#4
    eisr := {
      op := some (handlerInstr .eisr)
      rest := (handlerCode s.cfg .eisr).drop 2
      tr := { Transients.none with d := d } }
    draws := s.draws + 1 })

/-- R229: while a handler runs no request is taken, whatever the pending and enable bits are: it stays or returns, neither FG
nor the other handler does a micro-step, and a request pending stays pending, unless the environment restarts the block. -/
def Obligations.HandlersDoNotNest : Prop :=
  ∀ (h : Handler) (s t : State), s.irq.inIsr = some h → (∀ es r, s.env.script = es :: r → .watchdog ∉ es) →
    microStep s = .next t →
    (t.irq.inIsr = some h ∨ t.irq.inIsr = none) ∧ (∀ c, c ≠ handlerCtx h → t.seq c = s.seq c) ∧
      (s.irq.tmrPend = true → t.irq.tmrPend = true) ∧ (s.irq.edgePend = true → t.irq.edgePend = true)

/-- R226: of two takeable requests IRQ_ORDER decides which is taken, and the other is taken at the boundary at which the first
handler returns: between two requests, and inside an operation of FG, which does no micro-step in between (R228, R230). No new
request comes in between (with one of the same source the order is the model's choice: notes/assumptions/41). -/
def Obligations.IrqOrderDecides : Prop :=
  (∀ s : State, s.resting = true → restartsNow s = false → s.irq.tmrPend = true → s.irq.tmrIe = true → s.irq.edgePend = true →
    (s.cfg.irqOrder = .timerFirst → step s = exec .timerIsr s ∧
      (s.env.script = [] → ∀ t, step s = .next t → t.resting = true → step t = exec .edgeIsr t)) ∧
    (s.cfg.irqOrder = .edgeFirst → step s = exec .edgeIsr s ∧
      (s.env.script = [] → ∀ t, step s = .next t → t.resting = true → step t = exec .timerIsr t))) ∧
  (∀ s : State, s.irq.inIsr = none → s.env.script = [] → s.irq.tmrPend = true → s.irq.tmrIe = true → s.irq.edgePend = true →
    ∀ h other : Handler, (h, other) = (if s.cfg.irqOrder = .timerFirst then (.tisr, .eisr) else (.eisr, .tisr)) →
      (∃ u, microStep s = .next u ∧ u.irq.inIsr = some h) ∧
      ∀ k t, (∀ j < k, ∃ u, microSteps (j + 1) s = .next u ∧ u.irq.inIsr = some h) → microSteps (k + 1) s = .next t →
        t.irq.inIsr = none → takeable t = some other ∧ t.fg = s.fg ∧
          ∀ v, microStep t = .next v → v.fg = s.fg)

/-- R224, R191: a timer request raised while TMR_IE = 0 is kept, and taken next after CLK_START. -/
def Obligations.PendingTickTakenAfterStart : Prop :=
  ∀ s : State, s.calm = true → s.irq.tmrPend = true →
    ∃ t, exec .clkStart s = .next t ∧ step t = exec .timerIsr t

/-- R228, R230, R231: a whole firing of TIMER_ISR between two micro-steps of an operation of FG, whose SEQ and transients are
as they were when it returns: four micro-steps where no field changes, and 20, 32 or 44 (R271) where fields are rendered, which
then does what it does between two requests. -/
def Obligations.TickInsideOperation : Prop :=
  (∀ s : State, s.env.script = [] → takeable s = some .tisr → s.clk.raw ≠ 10 →
    microSteps 4 s = .next { readyEager s with
      clk := { s.clk with raw := s.clk.raw + 1 }
      irq := { s.irq with tmrRun := true, tmrPend := false }
      tisr := Seq.idle }) ∧
  (∀ s : State, s.env.script = [] → takeable s = some .tisr → s.clk.raw = 10 → s.cfg.legal = true → s.lcdAnswers = true →
    s.lcd.entryInc = true → s.clk.inRange = true →
    ∃ t, exec .timerIsr { s with fg := Seq.idle } = .next t ∧
      microSteps (if s.clk.ms ≠ 9 then 20 else if s.clk.sec ≠ 59 then 32 else 44) s = .next { t with fg := s.fg })

/-- R250, R236: a watchdog restart at any boundary abandons what was in progress with no closing steps, and leaves the launch
state: EE_MEM kept, a write whose stop condition had not been sent not performed. That the parameters, the request stream, an
operation handed over and the results returned stay is the model's choice (notes/assumptions/24). -/
def Obligations.WatchdogRestart : Prop :=
  ∀ (s : State) (r : List (List Event)), s.env.script = [.watchdog] :: r →
    ∃ t, microStep s = .next t ∧ t.bus.ee.mem = s.bus.ee.mem ∧ t.bus.ee.pend = none ∧ t.bus.ee.wbusy = false ∧
      t.bus.ee.slave = Slave.unaddressed ∧ t.bus.iox.slave = Slave.unaddressed ∧ slvSda t.bus = true ∧
      t.fg = Seq.idle ∧ t.tisr = Seq.idle ∧ t.eisr = Seq.idle ∧ t.direct = s.direct ∧ t.irq.inIsr = none ∧
      t.irq.tmrPend = false ∧ t.irq.edgePend = false ∧ t.irq.edgeIe = true ∧ t.cfg = s.cfg ∧ t.reqs = s.reqs ∧
      t.results = s.results

/-! ## The machine's step (10_state.md R29, 30_encoding.md R85, R86) -/

/-- A step runs the request the decoder reads at the head of the stream, or the operation handed over as a constructor (R80),
where no interrupt is takeable and the block is not restarted at this boundary. -/
def Obligations.StepRunsDecodedRequest : Prop :=
  ∀ s : State, s.resting = true → takeable (boundary s) = none → restartsNow s = false →
    (∀ (i : Instr) (r : List Byte), s.direct = none → decode s.reqs = .request i r →
      step s = exec i { s with reqs := r }) ∧
    (∀ i : Instr, s.direct = some i → formatOf i ≠ .event → step s = exec i { s with direct := none })

/-- What else a step does: an operation in progress goes on (R29); an interrupt takeable once the environment has moved comes
first, one raised at this very boundary too (R224, R225, R228); a reserved opcode is invalid (R86), and a stream that ends inside a request is refused (R85); with nothing to do only the environment moves, and raises requests as
R224 says. A handler is no request (R82): that one handed over is refused with the verdict of its event code is the model's
choice (notes/assumptions/14). That a restart between two requests takes a step of its own, before FG takes the next one, is the model's choice
(notes/assumptions/38). -/
def Obligations.StepOtherwise : Prop :=
  (∀ s : State, s.resting = false → step s = resume s) ∧
  (∀ (s : State) (h : Handler), s.resting = true → takeable (boundary s) = some h → step s = exec (handlerInstr h) s) ∧
  (∀ s : State, s.resting = true → takeable (boundary s) = none → restartsNow s = false →
    (s.direct = some .timerIsr → step s = .refused (.reservedOpcode 0xF0#8)) ∧
    (s.direct = some .edgeIsr → step s = .refused (.reservedOpcode 0xF1#8)) ∧
    (∀ b, s.direct = none → decode s.reqs = .invalid b → step s = .refused (.reservedOpcode b)) ∧
    (∀ b, s.direct = none → decode s.reqs = .truncated b → step s = .refused (.truncatedRequest b)) ∧
    (s.direct = none → s.reqs = [] → step s = .next (boundary s))) ∧
  (∀ (s : State) (r : List (List Event)), s.resting = true → takeable s = none →
    (s.env.script = [.timerOverflow] :: r →
      (s.irq.tmrRun = true → s.irq.tmrIe = true → step s = exec .timerIsr s) ∧
      (s.irq.tmrIe = false → s.direct = none → s.reqs = [] → step s = .next { readyEager s with
        env := { s.env with script := r }, irq := { s.irq with tmrPend := s.irq.tmrPend || s.irq.tmrRun } })) ∧
    (s.env.script = [.fallingEdge] :: r → s.irq.edgeIe = true → step s = exec .edgeIsr s) ∧
    (s.env.script = [.watchdog] :: r → step s = .next (boundary s) ∧ (boundary s).reqs = s.reqs))

/-! ## Encodings (30_encoding.md) -/

/-- R81, R83, R85: the request decoder reads back every well-formed request, with every operand, and leaves what follows it. -/
def Obligations.RequestRoundTrip : Prop :=
  ∀ (p : Params) (i : Instr) (r : List Byte), i.wellFormed = true → formatOf i = .request →
    decode (encode p i ++ r) = .request i r

/-- R80, R85, R86: what the decoder reads as a request is exactly that request's encoding: no byte has a second meaning. -/
def Obligations.DecodedRequestIsItsEncoding : Prop :=
  ∀ (p : Params) (i : Instr) (bs r : List Byte), decode bs = .request i r → bs = encode p i ++ r ∧ formatOf i = .request

/-- R82, R89, R91 to R94, R60, R97: the bytes that are no requests are read back in their own format, under every legal choice
of the OPEN bytes; CMD_FS_FINAL may be the same byte as CMD_FS_WAKE. -/
def Obligations.ByteFormatsRoundTrip : Prop :=
  ∀ (p : Params) (i : Instr) (b : Byte), p.legal = true → formatOf i ≠ .request → encode p i = [b] →
    (i = .cmdFsFinal → p.cmdFsWake ≠ p.cmdFsFinal) → decodeAs p (formatOf i) b = some i

/-- R81, R85, R89, R92: words of the opcode table, written out. -/
def Obligations.SampleWordsDecode : Prop :=
  decode [0x02#8, 0xA6#8] = .request (.busSend 0xA6#8) [] ∧
  decode [0x10#8, 0x03#8, 0x10#8, 0x5A#8] = .request (.eeWrite 0x03#8 0x10#8 0x5A#8) [] ∧
  decode [0x29#8, 0x02#8, 0x07#8] = .request (.lcdGoto 0x02#8 0x07#8) [] ∧
  decode [0x2B#8, 0x02#8, 0x41#8, 0x42#8, 0x30#8] = .request (.lcdPuts [0x41#8, 0x42#8]) [0x30#8] ∧
  decode [0x05#8] = .invalid 0x05#8 ∧
  decode [0xF0#8] = .invalid 0xF0#8 ∧
  decode [0x2B#8, 0x03#8, 0x41#8, 0x42#8] = .truncated 0x2B#8 ∧
  decodeEvent 0xF0#8 = some .timerIsr ∧
  decodeControlByte 0xA7#8 = some (.eeCtrlByte 3#3 true) ∧
  decodeCommand Config.reference 0xC5#8 = some (.setDdramAddr 0x45#7) ∧
  decodeCommand Config.reference 0x53#8 = some (.setCgramAddr 2#3 3#3)

/-! ## Invariants -/

/-- Every step keeps the invariant: EDGE_IE is 1, the counters in range, the memories canonical and inside their spaces, the
slaves as R66 and R69 say; and no step writes a parameter (R7). -/
def Obligations.StepKeepsInvariant : Prop :=
  ∀ s t : State, s.Inv → step s = .next t → t.Inv ∧ t.cfg = s.cfg

/-- The state after reset meets the invariant. -/
def Obligations.ResetMeetsInvariant : Prop := State.reset.Inv

/-- R41, R250: what the spec states of the launch state. -/
def Obligations.ResetIsLaunchState : Prop :=
  State.reset.fg = Seq.idle ∧ State.reset.irq.inIsr = none ∧ State.reset.irq.tmrPend = false ∧
    State.reset.irq.edgePend = false ∧ State.reset.irq.edgeIe = true ∧ State.reset.bus.ee.wbusy = false ∧
    State.reset.bus.ee.slave = Slave.unaddressed ∧ State.reset.bus.iox.slave = Slave.unaddressed ∧
    slvSda State.reset.bus = true ∧ fetch State.reset = .waiting
end

