-- ==== Sys2Proof/Laws/State.lean ====
section
/-! SUPPORT. One simp lemma per field per update of State, so that no proof unfolds a record update. -/

namespace Sys2Proof.Machine

/-! ## Contexts -/

@[simp] theorem State.setSeq_cfg (s : State) (c : Ctx) (q : Seq) : (s.setSeq c q).cfg = s.cfg := by cases c <;> rfl
@[simp] theorem State.setSeq_bus (s : State) (c : Ctx) (q : Seq) : (s.setSeq c q).bus = s.bus := by cases c <;> rfl
@[simp] theorem State.setSeq_lcd (s : State) (c : Ctx) (q : Seq) : (s.setSeq c q).lcd = s.lcd := by cases c <;> rfl
@[simp] theorem State.setSeq_clk (s : State) (c : Ctx) (q : Seq) : (s.setSeq c q).clk = s.clk := by cases c <;> rfl
@[simp] theorem State.setSeq_cnt (s : State) (c : Ctx) (q : Seq) : (s.setSeq c q).cnt = s.cnt := by cases c <;> rfl
@[simp] theorem State.setSeq_irq (s : State) (c : Ctx) (q : Seq) : (s.setSeq c q).irq = s.irq := by cases c <;> rfl
@[simp] theorem State.setSeq_env (s : State) (c : Ctx) (q : Seq) : (s.setSeq c q).env = s.env := by cases c <;> rfl
@[simp] theorem State.setSeq_reqs (s : State) (c : Ctx) (q : Seq) : (s.setSeq c q).reqs = s.reqs := by cases c <;> rfl
@[simp] theorem State.setSeq_direct (s : State) (c : Ctx) (q : Seq) : (s.setSeq c q).direct = s.direct := by cases c <;> rfl
@[simp] theorem State.setSeq_results (s : State) (c : Ctx) (q : Seq) : (s.setSeq c q).results = s.results := by cases c <;> rfl
@[simp] theorem State.setSeq_draws (s : State) (c : Ctx) (q : Seq) : (s.setSeq c q).draws = s.draws := by cases c <;> rfl
@[simp] theorem State.setSeq_seq (s : State) (c : Ctx) (q : Seq) : (s.setSeq c q).seq c = q := by cases c <;> rfl
@[simp] theorem State.setSeq_setSeq (s : State) (c : Ctx) (q r : Seq) : (s.setSeq c q).setSeq c r = s.setSeq c r := by cases c <;> rfl
@[simp] theorem State.setSeq_self (s : State) (c : Ctx) : s.setSeq c (s.seq c) = s := by cases c <;> rfl
@[simp] theorem State.setRest_cfg (s : State) (c : Ctx) (k : List Item) : (s.setRest c k).cfg = s.cfg := by cases c <;> rfl
@[simp] theorem State.setRest_bus (s : State) (c : Ctx) (k : List Item) : (s.setRest c k).bus = s.bus := by cases c <;> rfl
@[simp] theorem State.setRest_lcd (s : State) (c : Ctx) (k : List Item) : (s.setRest c k).lcd = s.lcd := by cases c <;> rfl
@[simp] theorem State.setRest_clk (s : State) (c : Ctx) (k : List Item) : (s.setRest c k).clk = s.clk := by cases c <;> rfl
@[simp] theorem State.setRest_cnt (s : State) (c : Ctx) (k : List Item) : (s.setRest c k).cnt = s.cnt := by cases c <;> rfl
@[simp] theorem State.setRest_irq (s : State) (c : Ctx) (k : List Item) : (s.setRest c k).irq = s.irq := by cases c <;> rfl
@[simp] theorem State.setRest_env (s : State) (c : Ctx) (k : List Item) : (s.setRest c k).env = s.env := by cases c <;> rfl
@[simp] theorem State.setRest_reqs (s : State) (c : Ctx) (k : List Item) : (s.setRest c k).reqs = s.reqs := by cases c <;> rfl
@[simp] theorem State.setRest_direct (s : State) (c : Ctx) (k : List Item) : (s.setRest c k).direct = s.direct := by cases c <;> rfl
@[simp] theorem State.setRest_results (s : State) (c : Ctx) (k : List Item) : (s.setRest c k).results = s.results := by cases c <;> rfl
@[simp] theorem State.setRest_draws (s : State) (c : Ctx) (k : List Item) : (s.setRest c k).draws = s.draws := by cases c <;> rfl
@[simp] theorem State.setRest_rest (s : State) (c : Ctx) (k : List Item) : ((s.setRest c k).seq c).rest = k := by cases c <;> rfl
@[simp] theorem State.setRest_tr (s : State) (c : Ctx) (k : List Item) : (s.setRest c k).tr c = s.tr c := by cases c <;> rfl
@[simp] theorem State.setRest_setRest (s : State) (c : Ctx) (k l : List Item) : (s.setRest c k).setRest c l = s.setRest c l := by cases c <;> rfl
@[simp] theorem State.setTr_cfg (s : State) (c : Ctx) (t : Transients) : (s.setTr c t).cfg = s.cfg := by cases c <;> rfl
@[simp] theorem State.setTr_bus (s : State) (c : Ctx) (t : Transients) : (s.setTr c t).bus = s.bus := by cases c <;> rfl
@[simp] theorem State.setTr_lcd (s : State) (c : Ctx) (t : Transients) : (s.setTr c t).lcd = s.lcd := by cases c <;> rfl
@[simp] theorem State.setTr_clk (s : State) (c : Ctx) (t : Transients) : (s.setTr c t).clk = s.clk := by cases c <;> rfl
@[simp] theorem State.setTr_cnt (s : State) (c : Ctx) (t : Transients) : (s.setTr c t).cnt = s.cnt := by cases c <;> rfl
@[simp] theorem State.setTr_irq (s : State) (c : Ctx) (t : Transients) : (s.setTr c t).irq = s.irq := by cases c <;> rfl
@[simp] theorem State.setTr_env (s : State) (c : Ctx) (t : Transients) : (s.setTr c t).env = s.env := by cases c <;> rfl
@[simp] theorem State.setTr_reqs (s : State) (c : Ctx) (t : Transients) : (s.setTr c t).reqs = s.reqs := by cases c <;> rfl
@[simp] theorem State.setTr_direct (s : State) (c : Ctx) (t : Transients) : (s.setTr c t).direct = s.direct := by cases c <;> rfl
@[simp] theorem State.setTr_results (s : State) (c : Ctx) (t : Transients) : (s.setTr c t).results = s.results := by cases c <;> rfl
@[simp] theorem State.setTr_draws (s : State) (c : Ctx) (t : Transients) : (s.setTr c t).draws = s.draws := by cases c <;> rfl
@[simp] theorem State.setTr_tr (s : State) (c : Ctx) (t : Transients) : (s.setTr c t).tr c = t := by cases c <;> rfl
@[simp] theorem State.setTr_setTr (s : State) (c : Ctx) (t u : Transients) : (s.setTr c t).setTr c u = s.setTr c u := by cases c <;> rfl
@[simp] theorem State.setTr_rest (s : State) (c : Ctx) (t : Transients) : ((s.setTr c t).seq c).rest = (s.seq c).rest := by cases c <;> rfl
@[simp] theorem State.seq_with_cfg (s : State) (c : Ctx) (v) : State.seq { s with cfg := v } c = s.seq c := by cases c <;> rfl
@[simp] theorem State.tr_with_cfg (s : State) (c : Ctx) (v) : State.tr { s with cfg := v } c = s.tr c := by cases c <;> rfl
@[simp] theorem State.seq_with_bus (s : State) (c : Ctx) (v) : State.seq { s with bus := v } c = s.seq c := by cases c <;> rfl
@[simp] theorem State.tr_with_bus (s : State) (c : Ctx) (v) : State.tr { s with bus := v } c = s.tr c := by cases c <;> rfl
@[simp] theorem State.seq_with_lcd (s : State) (c : Ctx) (v) : State.seq { s with lcd := v } c = s.seq c := by cases c <;> rfl
@[simp] theorem State.tr_with_lcd (s : State) (c : Ctx) (v) : State.tr { s with lcd := v } c = s.tr c := by cases c <;> rfl
@[simp] theorem State.seq_with_clk (s : State) (c : Ctx) (v) : State.seq { s with clk := v } c = s.seq c := by cases c <;> rfl
@[simp] theorem State.tr_with_clk (s : State) (c : Ctx) (v) : State.tr { s with clk := v } c = s.tr c := by cases c <;> rfl
@[simp] theorem State.seq_with_cnt (s : State) (c : Ctx) (v) : State.seq { s with cnt := v } c = s.seq c := by cases c <;> rfl
@[simp] theorem State.tr_with_cnt (s : State) (c : Ctx) (v) : State.tr { s with cnt := v } c = s.tr c := by cases c <;> rfl
@[simp] theorem State.seq_with_irq (s : State) (c : Ctx) (v) : State.seq { s with irq := v } c = s.seq c := by cases c <;> rfl
@[simp] theorem State.tr_with_irq (s : State) (c : Ctx) (v) : State.tr { s with irq := v } c = s.tr c := by cases c <;> rfl
@[simp] theorem State.seq_with_env (s : State) (c : Ctx) (v) : State.seq { s with env := v } c = s.seq c := by cases c <;> rfl
@[simp] theorem State.tr_with_env (s : State) (c : Ctx) (v) : State.tr { s with env := v } c = s.tr c := by cases c <;> rfl
@[simp] theorem State.seq_with_reqs (s : State) (c : Ctx) (v) : State.seq { s with reqs := v } c = s.seq c := by cases c <;> rfl
@[simp] theorem State.tr_with_reqs (s : State) (c : Ctx) (v) : State.tr { s with reqs := v } c = s.tr c := by cases c <;> rfl
@[simp] theorem State.seq_with_direct (s : State) (c : Ctx) (v) : State.seq { s with direct := v } c = s.seq c := by cases c <;> rfl
@[simp] theorem State.tr_with_direct (s : State) (c : Ctx) (v) : State.tr { s with direct := v } c = s.tr c := by cases c <;> rfl
@[simp] theorem State.seq_with_results (s : State) (c : Ctx) (v) : State.seq { s with results := v } c = s.seq c := by cases c <;> rfl
@[simp] theorem State.tr_with_results (s : State) (c : Ctx) (v) : State.tr { s with results := v } c = s.tr c := by cases c <;> rfl
@[simp] theorem State.seq_with_draws (s : State) (c : Ctx) (v) : State.seq { s with draws := v } c = s.seq c := by cases c <;> rfl
@[simp] theorem State.tr_with_draws (s : State) (c : Ctx) (v) : State.tr { s with draws := v } c = s.tr c := by cases c <;> rfl

/-! ## The environment's moves -/

@[simp] theorem readyEager_cfg (s : State) : (readyEager s).cfg = s.cfg := rfl
@[simp] theorem readyEager_bus (s : State) : (readyEager s).bus = s.bus := rfl
@[simp] theorem readyEager_lcd (s : State) : (readyEager s).lcd = readyAtBoundary s.env.lcd s.lcd := rfl
@[simp] theorem readyEager_clk (s : State) : (readyEager s).clk = s.clk := rfl
@[simp] theorem readyEager_cnt (s : State) : (readyEager s).cnt = s.cnt := rfl
@[simp] theorem readyEager_irq (s : State) : (readyEager s).irq = s.irq := rfl
@[simp] theorem readyEager_fg (s : State) : (readyEager s).fg = s.fg := rfl
@[simp] theorem readyEager_tisr (s : State) : (readyEager s).tisr = s.tisr := rfl
@[simp] theorem readyEager_eisr (s : State) : (readyEager s).eisr = s.eisr := rfl
@[simp] theorem readyEager_env (s : State) : (readyEager s).env = s.env := rfl
@[simp] theorem readyEager_reqs (s : State) : (readyEager s).reqs = s.reqs := rfl
@[simp] theorem readyEager_direct (s : State) : (readyEager s).direct = s.direct := rfl
@[simp] theorem readyEager_results (s : State) : (readyEager s).results = s.results := rfl
@[simp] theorem readyEager_draws (s : State) : (readyEager s).draws = s.draws := rfl
@[simp] theorem readyAtBoundary_mode (k : LcdSched) (l : Lcd) : (readyAtBoundary k l).mode = l.mode := rfl
@[simp] theorem readyAtBoundary_ac (k : LcdSched) (l : Lcd) : (readyAtBoundary k l).ac = l.ac := rfl
@[simp] theorem readyAtBoundary_ramsel (k : LcdSched) (l : Lcd) : (readyAtBoundary k l).ramsel = l.ramsel := rfl
@[simp] theorem readyAtBoundary_ddram (k : LcdSched) (l : Lcd) : (readyAtBoundary k l).ddram = l.ddram := rfl
@[simp] theorem readyAtBoundary_cgram (k : LcdSched) (l : Lcd) : (readyAtBoundary k l).cgram = l.cgram := rfl
@[simp] theorem readyAtBoundary_entryInc (k : LcdSched) (l : Lcd) : (readyAtBoundary k l).entryInc = l.entryInc := rfl
@[simp] theorem readyAtBoundary_displayOn (k : LcdSched) (l : Lcd) : (readyAtBoundary k l).displayOn = l.displayOn := rfl
@[simp] theorem readyAtBoundary_func (k : LcdSched) (l : Lcd) : (readyAtBoundary k l).func = l.func := rfl
@[simp] theorem readyAtBoundary_draws (k : LcdSched) (l : Lcd) : (readyAtBoundary k l).draws = l.draws := rfl
@[simp] theorem readyAtRead_mode (k : LcdSched) (l : Lcd) : (readyAtRead k l).mode = l.mode := rfl
@[simp] theorem readyAtRead_ac (k : LcdSched) (l : Lcd) : (readyAtRead k l).ac = l.ac := rfl
@[simp] theorem readyAtRead_ramsel (k : LcdSched) (l : Lcd) : (readyAtRead k l).ramsel = l.ramsel := rfl
@[simp] theorem readyAtRead_ddram (k : LcdSched) (l : Lcd) : (readyAtRead k l).ddram = l.ddram := rfl
@[simp] theorem readyAtRead_cgram (k : LcdSched) (l : Lcd) : (readyAtRead k l).cgram = l.cgram := rfl
@[simp] theorem readyAtRead_entryInc (k : LcdSched) (l : Lcd) : (readyAtRead k l).entryInc = l.entryInc := rfl
@[simp] theorem readyAtRead_displayOn (k : LcdSched) (l : Lcd) : (readyAtRead k l).displayOn = l.displayOn := rfl
@[simp] theorem readyAtRead_func (k : LcdSched) (l : Lcd) : (readyAtRead k l).func = l.func := rfl
@[simp] theorem readyAtRead_draws (k : LcdSched) (l : Lcd) : (readyAtRead k l).draws = l.draws := rfl
@[simp] theorem readyAtBoundary_bf (k : LcdSched) (l : Lcd) : (readyAtBoundary k l).bf = (l.bf && !(k == .eager)) := rfl
@[simp] theorem readyAtRead_bf (k : LcdSched) (l : Lcd) : (readyAtRead k l).bf = (l.bf && !(k == .onRead)) := rfl
@[simp] theorem delayMs_cfg (s : State) : (delayMs s).cfg = s.cfg := rfl
@[simp] theorem delayMs_lcd (s : State) : (delayMs s).lcd = s.lcd := rfl
@[simp] theorem delayMs_clk (s : State) : (delayMs s).clk = s.clk := rfl
@[simp] theorem delayMs_cnt (s : State) : (delayMs s).cnt = s.cnt := rfl
@[simp] theorem delayMs_irq (s : State) : (delayMs s).irq = s.irq := rfl
@[simp] theorem delayMs_fg (s : State) : (delayMs s).fg = s.fg := rfl
@[simp] theorem delayMs_tisr (s : State) : (delayMs s).tisr = s.tisr := rfl
@[simp] theorem delayMs_eisr (s : State) : (delayMs s).eisr = s.eisr := rfl
@[simp] theorem delayMs_env (s : State) : (delayMs s).env = s.env := rfl
@[simp] theorem delayMs_reqs (s : State) : (delayMs s).reqs = s.reqs := rfl
@[simp] theorem delayMs_direct (s : State) : (delayMs s).direct = s.direct := rfl
@[simp] theorem delayMs_results (s : State) : (delayMs s).results = s.results := rfl
@[simp] theorem delayMs_draws (s : State) : (delayMs s).draws = s.draws := rfl

/-! ## Taking an interrupt and returning from it (R227, R230) -/

@[simp] theorem enterHandler_cfg (h : Handler) (s : State) : (enterHandler h s).cfg = s.cfg := by cases h <;> rfl
@[simp] theorem enterHandler_bus (h : Handler) (s : State) : (enterHandler h s).bus = s.bus := by cases h <;> rfl
@[simp] theorem enterHandler_lcd (h : Handler) (s : State) : (enterHandler h s).lcd = s.lcd := by cases h <;> rfl
@[simp] theorem enterHandler_clk (h : Handler) (s : State) : (enterHandler h s).clk = s.clk := by cases h <;> rfl
@[simp] theorem enterHandler_cnt (h : Handler) (s : State) : (enterHandler h s).cnt = s.cnt := by cases h <;> rfl
@[simp] theorem enterHandler_env (h : Handler) (s : State) : (enterHandler h s).env = s.env := by cases h <;> rfl
@[simp] theorem enterHandler_reqs (h : Handler) (s : State) : (enterHandler h s).reqs = s.reqs := by cases h <;> rfl
@[simp] theorem enterHandler_direct (h : Handler) (s : State) : (enterHandler h s).direct = s.direct := by cases h <;> rfl
@[simp] theorem enterHandler_results (h : Handler) (s : State) : (enterHandler h s).results = s.results := by cases h <;> rfl
@[simp] theorem enterHandler_draws (h : Handler) (s : State) : (enterHandler h s).draws = s.draws := by cases h <;> rfl
@[simp] theorem enterHandler_fg (h : Handler) (s : State) : (enterHandler h s).fg = s.fg := by cases h <;> rfl
@[simp] theorem enterHandler_irq (h : Handler) (s : State) : (enterHandler h s).irq = enterIrq h s.irq := by cases h <;> rfl
@[simp] theorem enterHandler_inIsr (h : Handler) (s : State) : (enterHandler h s).irq.inIsr = some h := by cases h <;> rfl
@[simp] theorem enterHandler_seq (h : Handler) (s : State) : (enterHandler h s).seq (handlerCtx h) = { op := some (handlerInstr h), rest := handlerCode s.cfg h, tr := Transients.none } := by cases h <;> rfl
@[simp] theorem finish_cfg (c : Ctx) (s : State) : (finish c s).cfg = s.cfg := by cases c <;> rfl
@[simp] theorem finish_bus (c : Ctx) (s : State) : (finish c s).bus = s.bus := by cases c <;> rfl
@[simp] theorem finish_lcd (c : Ctx) (s : State) : (finish c s).lcd = s.lcd := by cases c <;> rfl
@[simp] theorem finish_clk (c : Ctx) (s : State) : (finish c s).clk = s.clk := by cases c <;> rfl
@[simp] theorem finish_cnt (c : Ctx) (s : State) : (finish c s).cnt = s.cnt := by cases c <;> rfl
@[simp] theorem finish_env (c : Ctx) (s : State) : (finish c s).env = s.env := by cases c <;> rfl
@[simp] theorem finish_reqs (c : Ctx) (s : State) : (finish c s).reqs = s.reqs := by cases c <;> rfl
@[simp] theorem finish_direct (c : Ctx) (s : State) : (finish c s).direct = s.direct := by cases c <;> rfl
@[simp] theorem finish_results (c : Ctx) (s : State) : (finish c s).results = s.results := by cases c <;> rfl
@[simp] theorem finish_draws (c : Ctx) (s : State) : (finish c s).draws = s.draws := by cases c <;> rfl
@[simp] theorem finish_seq (c : Ctx) (s : State) : (finish c s).seq c = Seq.idle := by cases c <;> rfl
@[simp] theorem finish_fg_irq (s : State) : (finish .fg s).irq = s.irq := rfl
@[simp] theorem finish_tisr_irq (s : State) : (finish .tisr s).irq = { s.irq with inIsr := none } := rfl
@[simp] theorem finish_eisr_irq (s : State) : (finish .eisr s).irq = { s.irq with inIsr := none } := rfl

/-! ## A result returned -/

@[simp] theorem returnResult_cfg (c : Ctx) (k : RetKind) (s : State) : (returnResult c k s).cfg = s.cfg := rfl
@[simp] theorem returnResult_bus (c : Ctx) (k : RetKind) (s : State) : (returnResult c k s).bus = s.bus := rfl
@[simp] theorem returnResult_lcd (c : Ctx) (k : RetKind) (s : State) : (returnResult c k s).lcd = s.lcd := rfl
@[simp] theorem returnResult_clk (c : Ctx) (k : RetKind) (s : State) : (returnResult c k s).clk = s.clk := rfl
@[simp] theorem returnResult_cnt (c : Ctx) (k : RetKind) (s : State) : (returnResult c k s).cnt = s.cnt := rfl
@[simp] theorem returnResult_irq (c : Ctx) (k : RetKind) (s : State) : (returnResult c k s).irq = s.irq := rfl
@[simp] theorem returnResult_fg (c : Ctx) (k : RetKind) (s : State) : (returnResult c k s).fg = s.fg := rfl
@[simp] theorem returnResult_tisr (c : Ctx) (k : RetKind) (s : State) : (returnResult c k s).tisr = s.tisr := rfl
@[simp] theorem returnResult_eisr (c : Ctx) (k : RetKind) (s : State) : (returnResult c k s).eisr = s.eisr := rfl
@[simp] theorem returnResult_env (c : Ctx) (k : RetKind) (s : State) : (returnResult c k s).env = s.env := rfl
@[simp] theorem returnResult_reqs (c : Ctx) (k : RetKind) (s : State) : (returnResult c k s).reqs = s.reqs := rfl
@[simp] theorem returnResult_direct (c : Ctx) (k : RetKind) (s : State) : (returnResult c k s).direct = s.direct := rfl
@[simp] theorem returnResult_draws (c : Ctx) (k : RetKind) (s : State) : (returnResult c k s).draws = s.draws := rfl
@[simp] theorem returnResult_results (c : Ctx) (k : RetKind) (s : State) : (returnResult c k s).results = s.results ++ [resultOf k (s.tr c)] := rfl

end Sys2Proof.Machine
end

