-- ==== Sys2Proof/Laws/Ops.lean ====
section
/-! SUPPORT. How the sequencer runs: what each shared operation of Machine/Ops.lean can do, said once. `go c n k s` is context
c about to do the elements `k` from state s, with n micro-steps allowed after that: its laws turn a run into one rewrite an
element, and a caller never unfolds `settle`, `drive` or `microStep`. -/

namespace Sys2Proof.Machine

/-! ## Outcomes in sequence -/

@[simp] theorem thenDo_next (s : State) (f : State → Res) : thenDo (.next s) f = f s := rfl
@[simp] theorem thenDo_fault (e : Fault) (f : State → Res) : thenDo (.fault e) f = .fault e := rfl
@[simp] theorem thenDo_refused (e : Refusal) (f : State → Res) : thenDo (.refused e) f = .refused e := rfl

theorem thenDo_assoc (r : Res) (f g : State → Res) : thenDo (thenDo r f) g = thenDo r fun t => thenDo (f t) g := by
  cases r <;> rfl

theorem thenDo_eq_next {r : Res} {f : State → Res} {t : State} (h : thenDo r f = .next t) :
    ∃ u, r = .next u ∧ f u = .next t := by
  cases r with
  | next u => exact ⟨u, rfl, h⟩
  | fault e => exact absurd h (by simp)
  | refused e => exact absurd h (by simp)

@[simp] theorem Leaves_next (t : State) (P : State → Prop) : Leaves (.next t) P = P t := rfl

/-! ## What a context has to do plays no part in what a micro-step does -/

/-- Give context c another list of things to do, in the outcome. -/
def withRest (c : Ctx) (k : List Item) (r : Res) : Res := thenDo r fun t => .next (t.setRest c k)

theorem runPrim_setRest (c : Ctx) (p : Prim) (k : List Item) (s : State) :
    runPrim c p (s.setRest c k) = withRest c k (runPrim c p s) := by
  cases p with
  | scl b =>
    simp only [runPrim, withRest, State.setRest_bus, State.setRest_cfg]
    cases setScl s.cfg b s.bus <;> cases c <;> rfl
  | writePort v =>
    simp only [runPrim, withRest, State.setRest_lcd, State.setRest_cfg]
    cases portWrite s.cfg false v s.lcd <;> cases c <;> rfl
  | wakePort v =>
    simp only [runPrim, withRest, State.setRest_lcd, State.setRest_cfg]
    cases portWrite s.cfg true v s.lcd <;> cases c <;> rfl
  | readPort =>
    simp only [runPrim, withRest, readStatus, State.setRest_lcd, State.setRest_env]
    cases portRead (readyAtRead s.env.lcd s.lcd) <;> cases c <;> rfl
  | readClock f => cases c <;> cases f <;> rfl
  | _ => cases c <;> rfl

/-- The choice a bookkeeping element makes, with another list of things to do behind it. -/
def Choice.setRest (c : Ctx) (k : List Item) : Choice → Choice
  | .goOn t => .goOn (t.setRest c k)
  | .skip t => .skip (t.setRest c k)
  | .insert l t => .insert l (t.setRest c k)
  | .reject r => .reject r

theorem runCtl_setRest (c : Ctx) (x : Ctl) (k : List Item) (s : State) :
    runCtl c x (s.setRest c k) = (runCtl c x s).setRest c k := by
  cases x with
  | nackToClosing =>
    simp only [runCtl, State.setRest_tr]
    split <;> rfl
  | againIfBusy =>
    simp only [runCtl, State.setRest_tr]
    split <;> rfl
  | putsFrom text =>
    simp only [runCtl, putsStart, State.setRest_tr, State.setRest_cfg]
    split <;> rfl
  | _ => cases c <;> rfl

theorem finish_setRest (c : Ctx) (k : List Item) (s : State) : finish c (s.setRest c k) = finish c s := by
  cases c <;> rfl

theorem settle_setRest (c : Ctx) (b : Bool) (k l : List Item) (s : State) :
    settle c b k (s.setRest c l) = settle c b k s := by
  induction k generalizing b s with
  | nil => simp [settle, finish_setRest]
  | cons i k ih =>
    cases b with
    | true =>
      cases i with
      | prim p => simp [settle, ih]
      | ctl x => cases x <;> simp [settle, ih]
    | false =>
      cases i with
      | prim p => simp [settle]
      | ctl x =>
        simp only [settle, runCtl_setRest]
        cases runCtl c x s with
        | goOn t => exact ih false t
        | skip t => exact ih true t
        | insert m t =>
          cases m with
          | nil => exact ih false t
          | cons j m => simp [Choice.setRest]
        | reject r => rfl

/-! ## One boundary, no interrupt -/

/-- Context c has the core at the coming boundary and the environment's script is used up. -/
def Running (c : Ctx) (s : State) : Prop :=
  s.env.script = [] ∧
  match c with
  | .fg => s.irq.inIsr = none ∧ timerTakeable s.irq = false ∧ edgeTakeable s.irq = false
  | .tisr => s.irq.inIsr = some .tisr
  | .eisr => s.irq.inIsr = some .eisr

theorem running_fg_iff {s : State} : Running .fg s ↔ s.irq.inIsr = none ∧ s.quiet = true := by
  simp only [Running, State.quiet, Bool.and_eq_true, decide_eq_true_eq, Bool.not_eq_true']
  constructor
  · rintro ⟨a, b, c, d⟩; exact ⟨b, ⟨a, d⟩, c⟩
  · rintro ⟨b, ⟨a, d⟩, c⟩; exact ⟨a, b, c, d⟩

/-- Only the script and the interrupt bookkeeping matter. -/
theorem Running.congr {c : Ctx} {s t : State} (h : Running c s) (he : t.env.script = s.env.script)
    (hi : t.irq = s.irq) : Running c t := by
  unfold Running at *
  rw [he, hi]
  exact h

theorem boundary_of_script {s : State} (h : s.env.script = []) : boundary s = readyEager s := by
  simp [boundary, scriptMoves, h]

theorem coreStep_of_running {c : Ctx} {s : State} (h : Running c s) : coreStep s = ctxStep c s := by
  obtain ⟨_, h⟩ := h
  cases c with
  | fg =>
    obtain ⟨h1, h2, h3⟩ := h
    simp [coreStep, h1, takeable, h2, h3]
  | tisr => simp only at h; simp [coreStep, h, handlerCtx]
  | eisr => simp only at h; simp [coreStep, h, handlerCtx]

theorem microStep_of_running {c : Ctx} {s : State} (h : Running c s) : microStep s = ctxStep c (readyEager s) := by
  rw [microStep, boundary_of_script h.1]
  exact coreStep_of_running (h.congr (by simp) (by simp))

theorem not_resting_of_running {c : Ctx} {s : State} (h : Running c s) (hr : (s.seq c).rest ≠ []) : s.resting = false := by
  obtain ⟨_, h⟩ := h
  cases c with
  | fg =>
    have hr' : s.fg.rest ≠ [] := hr
    simp [State.resting, hr']
  | tisr => simp only at h; simp [State.resting, h]
  | eisr => simp only at h; simp [State.resting, h]

/-! ## Runs of micro-steps -/

theorem drive_succ (n : Nat) (s : State) :
    drive (n + 1) s = if s.resting then .next s else thenDo (microStep s) (drive n) := rfl

theorem drive_resting {n : Nat} {s : State} (h : s.resting = true) : drive n s = .next s := by
  cases n with
  | zero => rfl
  | succ n => rw [drive_succ, h]; rfl

/-- A run that has come to rest does not change with more micro-steps. -/
theorem drive_mono {m n : Nat} {s t : State} (h : drive m s = .next t) (ht : t.resting = true) (hmn : m ≤ n) :
    drive n s = .next t := by
  induction m generalizing n s with
  | zero =>
    simp only [drive, Host.Outcome.next.injEq] at h
    subst h
    exact drive_resting ht
  | succ m ih =>
    obtain ⟨n, rfl⟩ : ∃ j, n = j + 1 := ⟨n - 1, by omega⟩
    rw [drive_succ] at h ⊢
    split at h
    · rename_i hr
      rw [if_pos hr, h]
    · rename_i hr
      rw [if_neg hr]
      obtain ⟨u, hu, hd⟩ := thenDo_eq_next h
      rw [hu]
      exact ih hd (by omega)

/-- The same for a stop. -/
theorem drive_mono_refused {m n : Nat} {s : State} {r : Refusal} (h : drive m s = .refused r) (hmn : m ≤ n) :
    drive n s = .refused r := by
  induction m generalizing n s with
  | zero => exact absurd h (by simp [drive])
  | succ m ih =>
    obtain ⟨n, rfl⟩ : ∃ j, n = j + 1 := ⟨n - 1, by omega⟩
    rw [drive_succ] at h ⊢
    split at h
    · exact absurd h (by simp)
    · rename_i hr
      rw [if_neg hr]
      cases hm : microStep s with
      | next u => rw [hm] at h; exact ih h (by omega)
      | fault e => rw [hm] at h; exact absurd h (by simp)
      | refused e => rw [hm] at h; simpa using h

theorem drive_mono_fault {m n : Nat} {s : State} {e : Fault} (h : drive m s = .fault e) (hmn : m ≤ n) :
    drive n s = .fault e := by
  induction m generalizing n s with
  | zero => exact absurd h (by simp [drive])
  | succ m ih =>
    obtain ⟨n, rfl⟩ : ∃ j, n = j + 1 := ⟨n - 1, by omega⟩
    rw [drive_succ] at h ⊢
    split at h
    · exact absurd h (by simp)
    · rename_i hr
      rw [if_neg hr]
      cases hm : microStep s with
      | next u => rw [hm] at h; exact ih h (by omega)
      | fault e' => rw [hm] at h; exact h
      | refused r => rw [hm] at h; exact absurd h (by simp)

/-- Context c does the elements `k` from s on, then the machine runs n micro-steps more. -/
def go (c : Ctx) (n : Nat) (k : List Item) (s : State) : Res := thenDo (settle c false k s) (drive n)

/-- The same on the way to the closing steps. -/
def goSkip (c : Ctx) (n : Nat) (k : List Item) (s : State) : Res := thenDo (settle c true k s) (drive n)

/-- One micro-step: LCDDEV at the boundary, then its effect. -/
theorem go_prim {c : Ctx} {n : Nat} {p : Prim} {k : List Item} {s : State} (h : Running c s) :
    go c (n + 1) (.prim p :: k) s = thenDo (runPrim c p (readyEager s)) (go c n k) := by
  have h1 : Running c (s.setRest c (.prim p :: k)) := h.congr (by simp) (by simp)
  have h2 : readyEager (s.setRest c (.prim p :: k)) = (readyEager s).setRest c (.prim p :: k) := by cases c <;> rfl
  have h3 : (readyEager (s.setRest c (.prim p :: k))).setRest c k = (readyEager s).setRest c k := by rw [h2]; simp
  have h4 : ((readyEager (s.setRest c (.prim p :: k))).seq c).rest = .prim p :: k := by rw [h2]; simp
  simp only [go, settle, thenDo_next]
  rw [drive_succ, not_resting_of_running h1 (by simp), microStep_of_running h1]
  simp only [ctxStep, h4, h3, runPrim_setRest, withRest, thenDo_assoc, thenDo_next, settle_setRest, Bool.false_eq_true,
    if_false]
  rfl

theorem go_goOn {c : Ctx} {n : Nat} {x : Ctl} {k : List Item} {s t : State} (h : runCtl c x s = .goOn t) :
    go c n (.ctl x :: k) s = go c n k t := by
  simp [go, settle, h]

theorem go_skip {c : Ctx} {n : Nat} {x : Ctl} {k : List Item} {s t : State} (h : runCtl c x s = .skip t) :
    go c n (.ctl x :: k) s = goSkip c n k t := by
  simp [go, goSkip, settle, h]

/-- An inserted list that is empty or begins with a micro-step: all of Machine/Expansion.lean's do. -/
def startsPrim : List Item → Bool
  | .ctl _ :: _ => false
  | _ => true

theorem go_insert {c : Ctx} {n : Nat} {x : Ctl} {l k : List Item} {s t : State} (h : runCtl c x s = .insert l t)
    (hl : startsPrim l = true) : go c n (.ctl x :: k) s = go c n (l ++ k) t := by
  cases l with
  | nil => simp [go, settle, h]
  | cons i l =>
    cases i with
    | prim p => simp [go, settle, h]
    | ctl y => exact absurd hl (by simp [startsPrim])

theorem go_reject {c : Ctx} {n : Nat} {x : Ctl} {k : List Item} {s : State} {r : Refusal} (h : runCtl c x s = .reject r) :
    go c n (.ctl x :: k) s = .refused r := by
  simp [go, settle, h]

theorem goSkip_prim {c : Ctx} {n : Nat} {p : Prim} {k : List Item} {s : State} :
    goSkip c n (.prim p :: k) s = goSkip c n k s := by
  simp [goSkip, settle]

theorem goSkip_closing {c : Ctx} {n : Nat} {k : List Item} {s : State} :
    goSkip c n (.ctl .closing :: k) s = go c n k s := by
  simp [go, goSkip, settle]

theorem goSkip_ctl {c : Ctx} {n : Nat} {x : Ctl} {k : List Item} {s : State} (h : x ≠ .closing) :
    goSkip c n (.ctl x :: k) s = goSkip c n k s := by
  cases x <;> first | exact absurd rfl h | simp [goSkip, settle]

/-- FG's operation is done. -/
theorem go_nil_fg {n : Nat} {s : State} (h : s.irq.inIsr = none) : go .fg n [] s = .next (finish .fg s) := by
  simp only [go, settle, thenDo_next]
  exact drive_resting (by simp [State.resting, finish, h, Seq.idle])

/-- A handler is done while FG is idle. -/
theorem go_nil_handler {n : Nat} {s : State} (h : Handler) (hf : s.fg.rest = []) :
    go (handlerCtx h) n [] s = .next (finish (handlerCtx h) s) := by
  simp only [go, settle, thenDo_next]
  apply drive_resting
  cases h <;> simp [State.resting, finish, returnHandler, handlerCtx, State.setSeq, hf]

theorem go_mono {c : Ctx} {m n : Nat} {k : List Item} {s t : State} (h : go c m k s = .next t) (ht : t.resting = true)
    (hmn : m ≤ n) : go c n k s = .next t := by
  simp only [go] at *
  obtain ⟨u, hu, hd⟩ := thenDo_eq_next h
  rw [hu]
  exact drive_mono hd ht hmn

/-! ## Operations and handlers -/

/-- An operation begun at rest is a run of its expansion. -/
theorem perform_eq_go {i : Instr} {code : List Item} {s : State} (h : s.resting = true) :
    perform i code s = go .fg Config.quantum code { s with fg := { op := some i, rest := [], tr := Transients.none } } := by
  simp only [perform, h, if_true, begin, go]
  rfl

theorem resting_of_calm {s : State} (h : s.calm = true) : s.resting = true := by
  simp only [State.calm, State.atRest, Bool.and_eq_true, decide_eq_true_eq] at h
  simp [State.resting, h.1.1, h.1.2, Seq.idle]

theorem running_of_calm {s : State} (h : s.calm = true) (q : Seq) : Running .fg { s with fg := q } := by
  simp only [State.calm, State.atRest, Bool.and_eq_true, decide_eq_true_eq] at h
  exact running_fg_iff.mpr ⟨h.1.1, h.2⟩

/-- An operation that ends within m micro-steps, whatever m below the quantum. -/
theorem perform_of_go {i : Instr} {code : List Item} {s t : State} (m : Nat) (hm : m ≤ Config.quantum)
    (hs : s.resting = true)
    (h : go .fg m code { s with fg := { op := some i, rest := [], tr := Transients.none } } = .next t)
    (ht : t.resting = true) : perform i code s = .next t := by
  rw [perform_eq_go hs]
  exact go_mono h ht hm

/-- The moves of the environment with no script left and a handler's entry commute. -/
theorem readyEager_enterHandler (h : Handler) (s : State) : readyEager (enterHandler h s) = enterHandler h (readyEager s) := by
  cases h <;> rfl

theorem running_enterHandler {h : Handler} {s : State} (hs : s.env.script = []) : Running (handlerCtx h) (enterHandler h s) := by
  cases h <;> exact ⟨hs, rfl⟩

/-- An interrupt takeable at a boundary is taken there: entry and first micro-step (R227, R228). -/
theorem microStep_of_takeable {h : Handler} {s : State} (ht : takeable (boundary s) = some h) :
    microStep s = takeInterrupt h (boundary s) := by
  have hi : (boundary s).irq.inIsr = none := by
    cases hx : (boundary s).irq.inIsr with
    | none => rfl
    | some x => simp [takeable, hx] at ht
  simp [microStep, coreStep, hi, ht]

/-- A handler's run is a run of its expansion from its entry. -/
theorem fireHandler_eq_drive {h : Handler} {s : State} (hs : s.irq.inIsr = none) (he : s.env.script = []) :
    fireHandler h s = drive (Config.quantum + 1) (enterHandler h s) := by
  have hr : (enterHandler h s).resting = false := by
    simp only [State.resting, enterHandler_inIsr, Option.isNone_some, Bool.false_and]
  rw [drive_succ, hr, microStep_of_running (running_enterHandler he), readyEager_enterHandler]
  simp [fireHandler, hs, takeInterrupt, boundary_of_script he]
  rfl

theorem fireHandler_of_drive {h : Handler} {s t : State} (m : Nat) (hm : m ≤ Config.quantum) (hs : s.irq.inIsr = none)
    (he : s.env.script = []) (hd : drive m (enterHandler h s) = .next t) (ht : t.resting = true) :
    fireHandler h s = .next t := by
  rw [fireHandler_eq_drive hs he]
  exact drive_mono hd ht (by omega)

/-- A handler just entered is about to do its expansion. -/
theorem drive_enterHandler {h : Handler} {n : Nat} {s : State} (hp : startsPrim (handlerCode s.cfg h) = true)
    (hne : handlerCode s.cfg h ≠ []) :
    drive n (enterHandler h s) = go (handlerCtx h) n (handlerCode s.cfg h) (enterHandler h s) := by
  have hx : (enterHandler h s).setRest (handlerCtx h) (handlerCode s.cfg h) = enterHandler h s := by cases h <;> rfl
  cases hk : handlerCode s.cfg h with
  | nil => exact absurd hk hne
  | cons i k =>
    cases i with
    | prim p => rw [hk] at hx; simp only [go, settle, thenDo_next, hx]
    | ctl x => rw [hk] at hp; exact absurd hp (by simp [startsPrim])

/-- No interrupt is taken while a handler runs (R229). -/
theorem takeable_of_inIsr {s : State} (h : s.irq.inIsr ≠ none) : takeable s = none := by
  cases hx : s.irq.inIsr with
  | none => exact absurd hx h
  | some x => simp [takeable, hx]

/-! ## Fetch -/

theorem restartsNow_of_script {s : State} (h : s.env.script = []) : restartsNow s = false := by
  simp [restartsNow, h]

/-- A handler handed over is no request (R82). -/
theorem handedOver_cases (i : Instr) (s : State) :
    (formatOf i = .event ∧ ∃ b, handedOver i s = .reject (.reservedOpcode b)) ∨
    (formatOf i ≠ .event ∧ handedOver i s = .run i { s with direct := none }) := by
  unfold handedOver
  split
  · exact .inl ⟨‹_›, _, rfl⟩
  · exact .inr ⟨‹_›, rfl⟩

/-- At rest: an interrupt takeable once the environment has moved, a restart, or FG's next request. -/
theorem fetch_of_resting {s : State} (h : s.resting = true) :
    (∃ x, takeable (boundary s) = some x ∧ fetch s = .run (handlerInstr x) s) ∨
    (takeable (boundary s) = none ∧ restartsNow s = true ∧ fetch s = .waiting) ∨
    (takeable (boundary s) = none ∧ restartsNow s = false ∧ fetch s = nextRequest s) := by
  simp only [fetch, h]
  cases ht : takeable (boundary s) with
  | some x => exact .inl ⟨x, rfl, rfl⟩
  | none =>
    cases hr : restartsNow s with
    | true => exact .inr (.inl ⟨rfl, rfl, rfl⟩)
    | false => exact .inr (.inr ⟨rfl, rfl, rfl⟩)

/-- The four things a step can do. -/
theorem step_cases (s : State) :
    (fetch s = .inProgress ∧ step s = resume s) ∨ (∃ i t, fetch s = .run i t ∧ step s = exec i t) ∨
    (fetch s = .waiting ∧ step s = .next (boundary s)) ∨ (∃ r, fetch s = .reject r ∧ step s = .refused r) := by
  unfold step
  cases fetch s with
  | inProgress => exact .inl ⟨rfl, rfl⟩
  | run i t => exact .inr (.inl ⟨i, t, rfl, rfl⟩)
  | waiting => exact .inr (.inr (.inl ⟨rfl, rfl⟩))
  | reject r => exact .inr (.inr (.inr ⟨r, rfl, rfl⟩))

end Sys2Proof.Machine
end

