-- ==== Sys2Proof/Laws/Run.lean ====
section
/-! SUPPORT. Runs of the bus engine and of the LCD window, a piece of an expansion at a time: what a caller needs of the wires is
`busRun`, a function of the bus alone, and of the LCD what one wait and one write do. -/

namespace Sys2Proof.Machine

/-! ## The bus engine -/

/-- The micro-steps that touch the bus alone. -/
inductive Wire where
  | scl (b : Bit)
  | sda (b : Bit)
  | ack

/-- The micro-step. -/
def Wire.prim : Wire → Prim
  | .scl b => .scl b
  | .sda b => .sda b
  | .ack => .sampleAck

/-- Its effect. -/
def Wire.run (p : Params) (w : Wire) (b : Bus) : Except Refusal Bus :=
  match w with
  | .scl v => setScl p v b
  | .sda v => .ok (setSda p v b)
  | .ack => .ok (sampleAck p b)

/-- The effect of several. -/
def busRun (p : Params) : List Wire → Bus → Except Refusal Bus
  | [], b => .ok b
  | w :: ws, b =>
    match w.run p b with
    | .ok c => busRun p ws c
    | .error r => .error r

theorem busRun_append (p : Params) (u w : List Wire) (b : Bus) :
    busRun p (u ++ w) b =
      match busRun p u b with
      | .ok c => busRun p w c
      | .error r => .error r := by
  induction u generalizing b with
  | nil => rfl
  | cons x u ih =>
    simp only [List.cons_append, busRun]
    cases x.run p b with
    | ok c => exact ih c
    | error r => rfl

/-- Go on with the bus, or stop as the bus did. -/
def thenBus (r : Except Refusal Bus) (f : Bus → Res) : Res :=
  match r with
  | .ok b => f b
  | .error e => .refused e

@[simp] theorem thenBus_ok (b : Bus) (f : Bus → Res) : thenBus (.ok b) f = f b := rfl
@[simp] theorem thenBus_error (e : Refusal) (f : Bus → Res) : thenBus (.error e) f = .refused e := rfl

theorem readyAtBoundary_twice (k : LcdSched) (l : Lcd) :
    readyAtBoundary k (readyAtBoundary k l) = readyAtBoundary k l := by
  simp [readyAtBoundary]

@[simp] theorem readyEager_twice (s : State) : readyEager (readyEager s) = readyEager s := by
  simp [readyEager, readyAtBoundary_twice]

theorem go_wire {c : Ctx} {n : Nat} {w : Wire} {k : List Item} {s : State} (h : Running c s) :
    go c (n + 1) (.prim w.prim :: k) s = thenBus (w.run s.cfg s.bus) fun b => go c n k { readyEager s with bus := b } := by
  rw [go_prim h]
  cases w with
  | scl v =>
    simp only [Wire.prim, Wire.run, runPrim, readyEager_cfg, readyEager_bus]
    cases setScl s.cfg v s.bus <;> rfl
  | sda v => rfl
  | ack => rfl

/-- A list of bus micro-steps in front of an expansion. -/
theorem go_wires {c : Ctx} {n : Nat} (w : Wire) (ws : List Wire) {k : List Item} {s : State} (h : Running c s) :
    go c (n + (w :: ws).length) ((w :: ws).map (fun x => .prim x.prim) ++ k) s =
      thenBus (busRun s.cfg (w :: ws) s.bus) fun b => go c n k { readyEager s with bus := b } := by
  induction ws generalizing w s with
  | nil =>
    simp only [List.map_cons, List.map_nil, List.length_cons, List.length_nil, List.cons_append, List.nil_append, busRun]
    rw [go_wire h]
    cases w.run s.cfg s.bus <;> rfl
  | cons v ws ih =>
    have hl : n + (w :: v :: ws).length = n + (v :: ws).length + 1 := by simp [Nat.add_assoc]
    rw [hl, List.map_cons, List.cons_append, go_wire h, busRun]
    cases hw : w.run s.cfg s.bus with
    | error r => rfl
    | ok b =>
      have h' : Running c { readyEager s with bus := b } := h.congr rfl rfl
      simp only [thenBus_ok]
      rw [ih v h']
      have : readyEager { readyEager s with bus := b } = { readyEager s with bus := b } := by
        simp [readyEager, readyAtBoundary_twice]
      simp only [this]
      rfl

/-- One data bit on the wires. -/
def bitWires (b : Bit) : List Wire := [.sda b, .scl true, .scl false]

/-- The ninth clock with its sample. -/
def ackWires : List Wire := [.sda true, .scl true, .ack, .scl false]

/-- BUS_SEND on the wires (R114). -/
def sendWires (v : Byte) : List Wire :=
  bitWires (v.getLsbD 7) ++ bitWires (v.getLsbD 6) ++ bitWires (v.getLsbD 5) ++ bitWires (v.getLsbD 4) ++
    bitWires (v.getLsbD 3) ++ bitWires (v.getLsbD 2) ++ bitWires (v.getLsbD 1) ++ bitWires (v.getLsbD 0) ++ ackWires

/-- BUS_START on the wires (R111). -/
def startWires : List Wire := [.sda true, .scl true, .sda false, .scl false]

/-- BUS_STOP on the wires (R112). -/
def stopWires : List Wire := [.sda false, .scl true, .sda true]

/-- BUS_NOACK on the wires (R117). -/
def noackWires : List Wire := [.sda true, .scl true, .scl false]

/-- A state with context c's transients and the bus replaced, LCDDEV having had its boundary. -/
def State.onBusTr (s : State) (c : Ctx) (b : Bus) (t : Transients) : State :=
  State.setTr { readyEager s with bus := b } c t

theorem readyEager_onBusTr (s : State) (c : Ctx) (b : Bus) (t : Transients) :
    readyEager (s.onBusTr c b t) = s.onBusTr c b t := by
  cases c <;> simp [readyEager, State.onBusTr, State.setTr, State.setSeq, readyAtBoundary_twice, State.seq]

@[simp] theorem onBusTr_twice (s : State) (c : Ctx) (b b' : Bus) (t t' : Transients) :
    (s.onBusTr c b t).onBusTr c b' t' = s.onBusTr c b' t' := by
  cases c <;> simp [readyEager, State.onBusTr, State.setTr, State.setSeq, readyAtBoundary_twice, State.seq]

@[simp] theorem onBusTr_bus (s : State) (c : Ctx) (b : Bus) (t : Transients) : (s.onBusTr c b t).bus = b := by
  cases c <;> rfl
@[simp] theorem onBusTr_cfg (s : State) (c : Ctx) (b : Bus) (t : Transients) : (s.onBusTr c b t).cfg = s.cfg := by
  cases c <;> rfl
@[simp] theorem onBusTr_tr (s : State) (c : Ctx) (b : Bus) (t : Transients) : (s.onBusTr c b t).tr c = t := by
  cases c <;> rfl

@[simp] theorem onBusTr_env (s : State) (c : Ctx) (b : Bus) (t : Transients) : (s.onBusTr c b t).env = s.env := by
  cases c <;> rfl
@[simp] theorem onBusTr_irq (s : State) (c : Ctx) (b : Bus) (t : Transients) : (s.onBusTr c b t).irq = s.irq := by
  cases c <;> rfl
@[simp] theorem onBusTr_draws (s : State) (c : Ctx) (b : Bus) (t : Transients) : (s.onBusTr c b t).draws = s.draws := by
  cases c <;> rfl

theorem Running.onBusTr {c : Ctx} {s : State} (h : Running c s) (b : Bus) (t : Transients) :
    Running c (s.onBusTr c b t) := h.congr (by cases c <;> rfl) (by cases c <;> rfl)

theorem onBusTr_self (s : State) (c : Ctx) (b : Bus) :
    ({ readyEager s with bus := b } : State) = s.onBusTr c b (s.tr c) := by
  cases c <;> rfl

/-- BUS_START in front of an expansion (R111). -/
theorem go_busStart {c : Ctx} {n : Nat} {k : List Item} {s : State} (h : Running c s) :
    go c (n + 4) (busStartCode ++ k) s =
      thenBus (busRun s.cfg startWires s.bus) fun b => go c n k (s.onBusTr c b (s.tr c)) := by
  simp only [← onBusTr_self]
  exact go_wires (.sda true) [.scl true, .sda false, .scl false] h

/-- BUS_STOP in front of an expansion (R112). -/
theorem go_busStop {c : Ctx} {n : Nat} {k : List Item} {s : State} (h : Running c s) :
    go c (n + 3) (busStopCode ++ k) s =
      thenBus (busRun s.cfg stopWires s.bus) fun b => go c n k (s.onBusTr c b (s.tr c)) := by
  simp only [← onBusTr_self]
  exact go_wires (.sda false) [.scl true, .sda true] h

/-- BUS_NOACK in front of an expansion (R117). -/
theorem go_busNoack {c : Ctx} {n : Nat} {k : List Item} {s : State} (h : Running c s) :
    go c (n + 3) (busNoackCode ++ k) s =
      thenBus (busRun s.cfg noackWires s.bus) fun b => go c n k (s.onBusTr c b (s.tr c)) := by
  simp only [← onBusTr_self]
  exact go_wires (.sda true) [.scl true, .scl false] h

/-- BUS_NOACK, then BUS_STOP: how a read closes (R132, R142). -/
theorem go_busClose {c : Ctx} {n : Nat} {k : List Item} {s : State} (h : Running c s) :
    go c (n + 6) (busNoackCode ++ busStopCode ++ k) s =
      thenBus (busRun s.cfg (noackWires ++ stopWires) s.bus) fun b => go c n k (s.onBusTr c b (s.tr c)) := by
  simp only [← onBusTr_self]
  exact go_wires (.sda true) [.scl true, .scl false, .sda false, .scl true, .sda true] h

theorem go_sendBit {c : Ctx} {n : Nat} (i : Nat) {k : List Item} {s : State} (h : Running c s) :
    go c (n + 3) (sendBitCode i ++ k) s =
      thenBus (busRun s.cfg (bitWires ((s.tr c).txv.getLsbD i)) s.bus) fun b =>
        go c n k (s.onBusTr c b { s.tr c with bit := i }) := by
  simp only [sendBitCode, List.cons_append, List.nil_append]
  rw [go_goOn (t := s.setTr c { s.tr c with bit := i }) rfl]
  have h1 : Running c (s.setTr c { s.tr c with bit := i }) := h.congr (by simp) (by simp)
  have e1 : runPrim c .sdaTx (readyEager (s.setTr c { s.tr c with bit := i })) =
      .next (s.onBusTr c (setSda s.cfg ((s.tr c).txv.getLsbD i) s.bus) { s.tr c with bit := i }) := by
    cases c <;> rfl
  rw [go_prim h1, e1, thenDo_next]
  have h2 := h.onBusTr (setSda s.cfg ((s.tr c).txv.getLsbD i) s.bus) { s.tr c with bit := i }
  have e2 := go_wires (n := n) (k := k) (.scl true) [.scl false] h2
  have e3 : go c (n + 2) (.prim (.scl true) :: .prim (.scl false) :: k)
      (s.onBusTr c (setSda s.cfg ((s.tr c).txv.getLsbD i) s.bus) { s.tr c with bit := i }) =
      thenBus (busRun s.cfg [.scl true, .scl false] (setSda s.cfg ((s.tr c).txv.getLsbD i) s.bus)) fun b =>
        go c n k (s.onBusTr c b { s.tr c with bit := i }) := by
    refine Eq.trans (Eq.trans ?_ e2) ?_
    · rfl
    · simp only [onBusTr_bus, onBusTr_cfg, readyEager_onBusTr]
      congr 1
      funext b
      congr 1
      cases c <;> rfl
  rw [e3]
  rfl

/-- BUS_SEND in front of an expansion (R114): the wires do `sendWires`, and `a` is the ACK register then. -/
theorem go_busSend {c : Ctx} {n : Nat} (v : Byte) {k : List Item} {s : State} (h : Running c s) :
    go c (n + 28) (busSendCode v ++ k) s =
      thenBus (busRun s.cfg (sendWires v) s.bus) fun b =>
        go c n k (s.onBusTr c b { s.tr c with txv := v, bit := 0, a := b.ack }) := by
  have step : ∀ (m i : Nat) (k : List Item) (x : Bus) (t : Transients),
      go c (m + 3) (sendBitCode i ++ k) (s.onBusTr c x t) =
        thenBus (busRun s.cfg (bitWires (t.txv.getLsbD i)) x) fun b => go c m k (s.onBusTr c b { t with bit := i }) := by
    intro m i k x t
    rw [go_sendBit i (h.onBusTr x t)]
    simp only [onBusTr_bus, onBusTr_cfg, onBusTr_tr, onBusTr_twice]
  simp only [busSendCode, List.cons_append, List.append_assoc]
  rw [go_goOn (t := s.setTr c { s.tr c with txv := v }) rfl]
  have h0 : Running c (s.setTr c { s.tr c with txv := v }) := h.congr (by simp) (by simp)
  have hb : ∀ (b : Bus) (u : Transients),
      (s.setTr c { s.tr c with txv := v }).onBusTr c b u = s.onBusTr c b u := by
    intro b u
    cases c <;> rfl
  rw [go_sendBit (n := n + 25) 7 h0]
  simp only [State.setTr_cfg, State.setTr_bus, State.setTr_tr, hb, sendWires, List.append_assoc, busRun_append]
  cases busRun s.cfg (bitWires (v.getLsbD 7)) s.bus with
  | error r => rfl
  | ok b7 =>
    simp only [thenBus_ok]
    rw [step (n + 22) 6]
    cases busRun s.cfg (bitWires (v.getLsbD 6)) b7 with
    | error r => rfl
    | ok b6 =>
      simp only [thenBus_ok]
      rw [step (n + 19) 5]
      cases busRun s.cfg (bitWires (v.getLsbD 5)) b6 with
      | error r => rfl
      | ok b5 =>
        simp only [thenBus_ok]
        rw [step (n + 16) 4]
        cases busRun s.cfg (bitWires (v.getLsbD 4)) b5 with
        | error r => rfl
        | ok b4 =>
          simp only [thenBus_ok]
          rw [step (n + 13) 3]
          cases busRun s.cfg (bitWires (v.getLsbD 3)) b4 with
          | error r => rfl
          | ok b3 =>
            simp only [thenBus_ok]
            rw [step (n + 10) 2]
            cases busRun s.cfg (bitWires (v.getLsbD 2)) b3 with
            | error r => rfl
            | ok b2 =>
              simp only [thenBus_ok]
              rw [step (n + 7) 1]
              cases busRun s.cfg (bitWires (v.getLsbD 1)) b2 with
              | error r => rfl
              | ok b1 =>
                simp only [thenBus_ok]
                rw [step (n + 4) 0]
                cases busRun s.cfg (bitWires (v.getLsbD 0)) b1 with
                | error r => rfl
                | ok b0 =>
                  simp only [thenBus_ok]
                  have hr := h.onBusTr b0 { s.tr c with txv := v, bit := 0 }
                  have e := go_wires (n := n) (k := .ctl .takeAck :: k) (.sda true) [.scl true, .ack, .scl false] hr
                  refine Eq.trans (Eq.trans ?_ e) ?_
                  · rfl
                  · simp only [onBusTr_bus, onBusTr_cfg, readyEager_onBusTr]
                    show thenBus (busRun s.cfg ackWires b0) _ = thenBus (busRun s.cfg ackWires b0) _
                    congr 1
                    funext b
                    rw [go_goOn (t := s.onBusTr c b { s.tr c with txv := v, bit := 0, a := b.ack })]
                    cases c <;> rfl

/-- One clock pulse with a sample (R113, R116): the bit and the bus after it. -/
def takeBit (p : Params) (b : Bus) : Except Refusal (Bit × Bus) :=
  match setScl p true b with
  | .error r => .error r
  | .ok c =>
    match setScl p false (readLine p c).2 with
    | .error r => .error r
    | .ok d => .ok ((readLine p c).1, d)

/-- n of them, shifted into r most significant bit first. -/
def takeBits (p : Params) : Nat → Byte → Bus → Except Refusal (Byte × Bus)
  | 0, r, b => .ok (r, b)
  | n + 1, r, b =>
    match takeBit p b with
    | .error e => .error e
    | .ok (x, c) => takeBits p n (shiftIn r x) c

/-- Go on with the byte and the bus. -/
def thenByte {α : Type} (r : Except Refusal (α × Bus)) (f : α → Bus → Res) : Res :=
  match r with
  | .ok (x, b) => f x b
  | .error e => .refused e

@[simp] theorem thenByte_ok {α : Type} (x : α) (b : Bus) (f : α → Bus → Res) : thenByte (.ok (x, b)) f = f x b := rfl
@[simp] theorem thenByte_error {α : Type} (e : Refusal) (f : α → Bus → Res) : thenByte (.error e) f = .refused e := rfl

theorem go_recvBit {c : Ctx} {n : Nat} (i : Nat) {k : List Item} {s : State} (h : Running c s) :
    go c (n + 3) (recvBitCode i ++ k) s =
      thenByte (takeBit s.cfg s.bus) fun x b =>
        go c n k (s.onBusTr c b { s.tr c with bit := i, rxv := shiftIn (s.tr c).rxv x }) := by
  simp only [recvBitCode, List.cons_append, List.nil_append]
  rw [go_goOn (t := s.setTr c { s.tr c with bit := i }) rfl]
  have h1 : Running c (s.setTr c { s.tr c with bit := i }) := h.congr (by simp) (by simp)
  have e1 := go_wire (n := n + 2) (w := .scl true) (k := .prim .sampleRx :: .prim (.scl false) :: k) h1
  simp only [Wire.prim, Wire.run, State.setTr_cfg, State.setTr_bus] at e1
  rw [e1]
  simp only [takeBit]
  cases setScl s.cfg true s.bus with
  | error r => rfl
  | ok b =>
    simp only [thenBus_ok]
    have e2 : ({ readyEager (s.setTr c { s.tr c with bit := i }) with bus := b } : State) =
        s.onBusTr c b { s.tr c with bit := i } := by cases c <;> rfl
    rw [e2, go_prim (h.onBusTr b _), readyEager_onBusTr]
    have e3 : runPrim c .sampleRx (s.onBusTr c b { s.tr c with bit := i }) =
        .next (s.onBusTr c (readLine s.cfg b).2
          { s.tr c with bit := i, rxv := shiftIn (s.tr c).rxv (readLine s.cfg b).1 }) := by
      cases c <;> rfl
    rw [e3, thenDo_next]
    have e4 := go_wire (n := n) (w := .scl false) (k := k) (h.onBusTr (readLine s.cfg b).2
      { s.tr c with bit := i, rxv := shiftIn (s.tr c).rxv (readLine s.cfg b).1 })
    simp only [Wire.prim, Wire.run, onBusTr_cfg, onBusTr_bus, readyEager_onBusTr] at e4
    rw [e4]
    cases setScl s.cfg false (readLine s.cfg b).2 with
    | error r => rfl
    | ok d =>
      simp only [thenBus_ok, thenByte_ok]
      congr 1
      cases c <;> rfl

/-- BUS_RECV in front of an expansion (R116): `d` is the byte assembled from eight samples. -/
theorem go_busRecv {c : Ctx} {n : Nat} {k : List Item} {s : State} (h : Running c s) :
    go c (n + 24) (busRecvCode ++ k) s =
      thenByte (takeBits s.cfg 8 0#8 s.bus) fun v b =>
        go c n k (s.onBusTr c b { s.tr c with rxv := v, bit := 0, d := v }) := by
  have step : ∀ (m i : Nat) (k : List Item) (x : Bus) (t : Transients),
      go c (m + 3) (recvBitCode i ++ k) (s.onBusTr c x t) =
        thenByte (takeBit s.cfg x) fun y b => go c m k (s.onBusTr c b { t with bit := i, rxv := shiftIn t.rxv y }) := by
    intro m i k x t
    rw [go_recvBit i (h.onBusTr x t)]
    simp only [onBusTr_bus, onBusTr_cfg, onBusTr_tr, onBusTr_twice]
  simp only [busRecvCode, List.cons_append, List.append_assoc]
  rw [go_goOn (t := s.setTr c { s.tr c with rxv := 0#8 }) rfl]
  have h0 : Running c (s.setTr c { s.tr c with rxv := 0#8 }) := h.congr (by simp) (by simp)
  have hb : ∀ (b : Bus) (u : Transients),
      (s.setTr c { s.tr c with rxv := 0#8 }).onBusTr c b u = s.onBusTr c b u := by
    intro b u
    cases c <;> rfl
  rw [go_recvBit (n := n + 21) 7 h0]
  simp only [State.setTr_cfg, State.setTr_bus, State.setTr_tr, hb, takeBits]
  cases takeBit s.cfg s.bus with
  | error r => rfl
  | ok y7 =>
    obtain ⟨x7, b7⟩ := y7
    simp only [thenByte_ok]
    rw [step (n + 18) 6]
    cases takeBit s.cfg b7 with
    | error r => rfl
    | ok y6 =>
      obtain ⟨x6, b6⟩ := y6
      simp only [thenByte_ok]
      rw [step (n + 15) 5]
      cases takeBit s.cfg b6 with
      | error r => rfl
      | ok y5 =>
        obtain ⟨x5, b5⟩ := y5
        simp only [thenByte_ok]
        rw [step (n + 12) 4]
        cases takeBit s.cfg b5 with
        | error r => rfl
        | ok y4 =>
          obtain ⟨x4, b4⟩ := y4
          simp only [thenByte_ok]
          rw [step (n + 9) 3]
          cases takeBit s.cfg b4 with
          | error r => rfl
          | ok y3 =>
            obtain ⟨x3, b3⟩ := y3
            simp only [thenByte_ok]
            rw [step (n + 6) 2]
            cases takeBit s.cfg b3 with
            | error r => rfl
            | ok y2 =>
              obtain ⟨x2, b2⟩ := y2
              simp only [thenByte_ok]
              rw [step (n + 3) 1]
              cases takeBit s.cfg b2 with
              | error r => rfl
              | ok y1 =>
                obtain ⟨x1, b1⟩ := y1
                simp only [thenByte_ok]
                rw [step n 0]
                cases takeBit s.cfg b1 with
                | error r => rfl
                | ok y0 =>
                  obtain ⟨x0, b0⟩ := y0
                  simp only [thenByte_ok, List.nil_append]
                  rw [go_goOn]
                  cases c <;> rfl

end Sys2Proof.Machine
end

