-- ==== Sys2Proof/Laws/Bus.lean ====
section
/-! SUPPORT. What the wires and the reference slaves do in a start, a stop, a byte and a ninth clock (R53, R66, R68, R69), as
functions of the bus. -/

namespace Sys2Proof.Machine

/-- A slave that takes in a byte, n bits of it so far, or that is not addressed; its drive released either way. -/
def Slave.hears (n : Nat) (x : Slave) : Prop :=
  x.acking = false ∧ x.drive = true ∧
  (x.phase = .ignore ∨ (x.phase = .first ∨ x.phase = .second ∨ x.phase = .third ∨ x.phase = .extra) ∧ x.bits = n)

theorem Slave.unaddressed_hears (n : Nat) : Slave.unaddressed.hears n := ⟨rfl, rfl, .inl rfl⟩

theorem slaveStart_hears (present : Bool) : (slaveStart present).hears 0 := by
  cases present <;> simp [slaveStart, Slave.unaddressed, Slave.hears]

theorem Slave.hears_rise {n : Nat} {x : Slave} (h : x.hears n) (b : Bit) : (slaveRise b x).hears (n + 1) := by
  obtain ⟨h1, h2, h3 | ⟨h3, h4⟩⟩ := h
  · simp [slaveRise, slaveReceiving, h1, h2, h3, Slave.hears]
  · rcases h3 with h3 | h3 | h3 | h3 <;> simp [slaveRise, slaveReceiving, h1, h2, h3, h4, Slave.hears]

theorem Slave.hears_fall {n : Nat} {x : Slave} (h : x.hears n) (hn : n ≠ 8) : slaveFall x = .quiet x := by
  obtain ⟨h1, h2, h3 | ⟨h3, h4⟩⟩ := h
  · simp [slaveFall, h1, h3]
  · rcases h3 with h3 | h3 | h3 | h3 <;> simp [slaveFall, h1, h3, h4, hn]

/-- A bus whose reference slaves listen, n bits into a byte, and on which no further slave drives. -/
structure Bus.Hears (n : Nat) (b : Bus) : Prop where
  ee : b.ee.slave.hears n
  iox : b.iox.slave.hears n
  ext : b.extDrive = true
  script : b.extScript = []

theorem Bus.Hears.slvSda {n : Nat} {b : Bus} (h : b.Hears n) : slvSda b = true := by
  simp [Machine.slvSda, h.ee.2.1, h.iox.2.1, h.ext]

/-- The bus with the two reference slaves' bit engines and the lines replaced. -/
def Bus.withSlaves (b : Bus) (scl sda : Bit) (e x : Slave) : Bus :=
  { b with sclOut := scl, sdaOut := sda, ee := { b.ee with slave := e }, iox := { b.iox with slave := x } }

theorem busRun_bit {p : Params} {n : Nat} {b : Bus} (v : Bit) (h : b.Hears n) (hn : n < 7) (hc : b.sclOut = false) :
    busRun p (bitWires v) b =
      .ok (b.withSlaves false v (slaveRise v b.ee.slave) (slaveRise v b.iox.slave)) ∧
    (b.withSlaves false v (slaveRise v b.ee.slave) (slaveRise v b.iox.slave)).Hears (n + 1) := by
  obtain ⟨scl, sda, ack, ⟨es, page, pend, ptr, wb, mem⟩, ⟨xs, port⟩, ed, esc, dr⟩ := b
  obtain ⟨he, hx, rfl, rfl⟩ := h
  simp only at hc he hx
  subst hc
  have e1 := Slave.hears_fall (Slave.hears_rise he v) (by omega)
  have x1 := Slave.hears_fall (Slave.hears_rise hx v) (by omega)
  have e2 : (slaveRise v es).drive = true := (Slave.hears_rise he v).2.1
  have x2 : (slaveRise v xs).drive = true := (Slave.hears_rise hx v).2.1
  refine ⟨?_, ⟨Slave.hears_rise he v, Slave.hears_rise hx v, rfl, rfl⟩⟩
  simp [busRun, bitWires, Wire.run, setSda, setScl, onRise, sdaWire, slvSda, he.2.1, hx.2.1, onFall, eeFall, ioxFall, e1, x1,
    extFall, eeEndsByte, Bus.withSlaves]

/-- The slave after the eight bits of v, before the falling edge. -/
def slaveTake (v : Byte) (x : Slave) : Slave :=
  if x.phase = .ignore then x else { x with sh := v, bits := 8 }

/-- After eight shifts every initial bit has been shifted out (R11). -/
theorem shift_eight (r v : Byte) :
    shiftIn (shiftIn (shiftIn (shiftIn (shiftIn (shiftIn (shiftIn (shiftIn r (v.getLsbD 7)) (v.getLsbD 6)) (v.getLsbD 5))
      (v.getLsbD 4)) (v.getLsbD 3)) (v.getLsbD 2)) (v.getLsbD 1)) (v.getLsbD 0) = v := by
  apply BitVec.eq_of_getLsbD_eq
  intro i hi
  rcases i with _ | _ | _ | _ | _ | _ | _ | _ | i
  all_goals first
    | (exfalso; omega)
    | simp [shiftIn]

theorem slaveRise_receiving (w : Bit) (r : Byte) (n : Nat) (x : Slave) (h : slaveReceiving x = true) :
    slaveRise w { x with sh := r, bits := n } = { x with sh := shiftIn r w, bits := n + 1 } := by
  have h' : slaveReceiving { x with sh := r, bits := n } = true := h
  simp only [slaveRise, h', if_true, shiftIn]

theorem Slave.rise_eight {x : Slave} (h : x.hears 0) (v : Byte) :
    slaveRise (v.getLsbD 0) (slaveRise (v.getLsbD 1) (slaveRise (v.getLsbD 2) (slaveRise (v.getLsbD 3)
      (slaveRise (v.getLsbD 4) (slaveRise (v.getLsbD 5) (slaveRise (v.getLsbD 6) (slaveRise (v.getLsbD 7) x))))))) =
      slaveTake v x := by
  obtain ⟨h1, h2, h3 | ⟨h3, h4⟩⟩ := h
  · simp [slaveRise, slaveReceiving, slaveTake, h1, h3]
  · have hr : slaveReceiving x = true := by rcases h3 with h3 | h3 | h3 | h3 <;> simp [slaveReceiving, h1, h3]
    have hi : x.phase ≠ .ignore := by rcases h3 with h3 | h3 | h3 | h3 <;> simp [h3]
    have h7 : slaveRise (v.getLsbD 7) x = { x with sh := shiftIn x.sh (v.getLsbD 7), bits := 1 } := by
      have hx : x = { x with sh := x.sh, bits := 0 } := by cases x; simp only at h4; rw [h4]
      rw [hx]
      exact slaveRise_receiving (v.getLsbD 7) x.sh 0 x hr
    rw [h7]
    simp only [slaveRise_receiving _ _ _ x hr, slaveTake, hi, if_false, shift_eight]

@[simp] theorem withSlaves_ee (b : Bus) (scl sda : Bit) (e x : Slave) :
    (b.withSlaves scl sda e x).ee.slave = e := rfl
@[simp] theorem withSlaves_iox (b : Bus) (scl sda : Bit) (e x : Slave) :
    (b.withSlaves scl sda e x).iox.slave = x := rfl
@[simp] theorem withSlaves_scl (b : Bus) (scl sda : Bit) (e x : Slave) :
    (b.withSlaves scl sda e x).sclOut = scl := rfl
@[simp] theorem withSlaves_twice (b : Bus) (scl sda scl' sda' : Bit) (e x e' x' : Slave) :
    (b.withSlaves scl sda e x).withSlaves scl' sda' e' x' = b.withSlaves scl' sda' e' x' := rfl

/-- The last bit of a byte up to its falling edge. -/
theorem busRun_lastBit {p : Params} {n : Nat} {b : Bus} (v : Bit) (w : List Wire) (h : b.Hears n)
    (hc : b.sclOut = false) :
    busRun p (bitWires v ++ w) b =
      busRun p (.scl false :: w) (b.withSlaves true v (slaveRise v b.ee.slave) (slaveRise v b.iox.slave)) := by
  obtain ⟨scl, sda, ack, ⟨es, page, pend, ptr, wb, mem⟩, ⟨xs, port⟩, ed, esc, dr⟩ := b
  obtain ⟨he, hx, rfl, rfl⟩ := h
  simp only at hc he hx
  subst hc
  simp only [bitWires, List.cons_append, List.nil_append, busRun, Wire.run, setSda, Bool.false_eq_true, if_false, setScl]
  simp [onRise, sdaWire, slvSda, he.2.1, hx.2.1, Bus.withSlaves]

/-- Eight data bits up to the eighth falling edge. -/
theorem busRun_byte {p : Params} {b : Bus} (v : Byte) (h : b.Hears 0) (hc : b.sclOut = false) :
    busRun p (sendWires v) b =
      busRun p (.scl false :: ackWires)
        (b.withSlaves true (v.getLsbD 0) (slaveTake v b.ee.slave) (slaveTake v b.iox.slave)) := by
  obtain ⟨q7, h7⟩ := busRun_bit (p := p) (v.getLsbD 7) h (by omega) hc
  obtain ⟨q6, h6⟩ := busRun_bit (p := p) (v.getLsbD 6) h7 (by omega) rfl
  obtain ⟨q5, h5⟩ := busRun_bit (p := p) (v.getLsbD 5) h6 (by omega) rfl
  obtain ⟨q4, h4⟩ := busRun_bit (p := p) (v.getLsbD 4) h5 (by omega) rfl
  obtain ⟨q3, h3⟩ := busRun_bit (p := p) (v.getLsbD 3) h4 (by omega) rfl
  obtain ⟨q2, h2⟩ := busRun_bit (p := p) (v.getLsbD 2) h3 (by omega) rfl
  obtain ⟨q1, h1⟩ := busRun_bit (p := p) (v.getLsbD 1) h2 (by omega) rfl
  simp only [withSlaves_ee, withSlaves_iox, withSlaves_twice] at q6 q5 q4 q3 q2 q1 h1
  have e8 := Slave.rise_eight h.ee v
  have x8 := Slave.rise_eight h.iox v
  simp only [sendWires, List.append_assoc]
  rw [busRun_append, q7]
  simp only
  rw [busRun_append, q6]
  simp only
  rw [busRun_append, q5]
  simp only
  rw [busRun_append, q4]
  simp only
  rw [busRun_append, q3]
  simp only
  rw [busRun_append, q2]
  simp only
  rw [busRun_append, q1]
  simp only
  rw [← e8, ← x8]
  exact busRun_lastBit (v.getLsbD 0) ackWires h1 rfl

/-! ## The reference slaves after a byte -/

/-- No reference slave acknowledges: both are unaddressed after the byte. -/
theorem busRun_sendNack {p : Params} {b : Bus} (v : Byte) (hc : b.sclOut = false) (he : b.ee.slave = Slave.unaddressed)
    (hx : b.iox.slave = Slave.unaddressed) (hd : b.extDrive = true) (hs : b.extScript = []) :
    busRun p (sendWires v) b = .ok { b with sclOut := false, sdaOut := true, ack := true } := by
  rw [busRun_byte v ⟨he ▸ Slave.unaddressed_hears 0, hx ▸ Slave.unaddressed_hears 0, hd, hs⟩ hc]
  obtain ⟨scl, sda, ack, ⟨es, page, pend, ptr, wb, mem⟩, ⟨xs, port⟩, ed, esc, dr⟩ := b
  simp only at hc he hx hd hs
  subst hc he hx hd hs
  simp [busRun, ackWires, Wire.run, slaveTake, Slave.unaddressed, Bus.withSlaves, setScl, setSda, onFall, eeFall, ioxFall,
    slaveFall, extFall, eeEndsByte, onRise, slaveRise, slaveReceiving, sdaWire, slvSda, sampleAck, readLine, contention]

/-- A start condition, made whatever the lines were, when no slave holds the wire (R111). -/
theorem busRun_start {p : Params} {b : Bus} (hw : slvSda b = true) (hp : b.ee.pend = none) :
    busRun p startWires b =
      .ok { extFall b with
            sclOut := false
            sdaOut := false
            ee := { b.ee with slave := slaveStart p.eePresent }
            iox := { b.iox with slave := slaveStart p.ioxPresent } } := by
  obtain ⟨scl, sda, ack, ⟨⟨ep, eb, esh, ea, edr⟩, page, pend, ptr, wb, mem⟩, ⟨⟨xp, xb, xsh, xa, xdr⟩, port⟩, ed, esc, dr⟩ := b
  simp only [slvSda, Bool.and_eq_true] at hw hp
  obtain ⟨⟨rfl, rfl⟩, rfl⟩ := hw
  subst hp
  have hr : ∀ (w : Bit) (y : Slave), (slaveRise w y).drive = y.drive := by
    intro w y
    simp only [slaveRise]
    split
    · rfl
    · split <;> rfl
  cases scl <;> cases sda <;> cases hpe : p.eePresent <;> cases hpi : p.ioxPresent <;>
    simp [busRun, startWires, Wire.run, setScl, setSda, onRise, sdaWire, slvSda, hr, wireEvent, onStart, onStop, eeStart,
      eeStop, slaveStart, Slave.unaddressed, onFall, eeFall, ioxFall, slaveFall, extFall, eeEndsByte, hpe, hpi]

/-- A stop condition (R112): a pending write is performed (R66). -/
theorem busRun_stop {p : Params} {b : Bus} (hc : b.sclOut = false) (hw : slvSda b = true) :
    busRun p stopWires b =
      .ok { b with sclOut := true, sdaOut := true, ee := eeStop b.ee, iox := { b.iox with slave := Slave.unaddressed } } := by
  obtain ⟨scl, sda, ack, ⟨⟨ep, eb, esh, ea, edr⟩, page, pend, ptr, wb, mem⟩, ⟨⟨xp, xb, xsh, xa, xdr⟩, port⟩, ed, esc, dr⟩ := b
  simp only [slvSda, Bool.and_eq_true] at hw hc
  obtain ⟨⟨rfl, rfl⟩, rfl⟩ := hw
  subst hc
  have hr : ∀ (w : Bit) (y : Slave), (slaveRise w y).drive = y.drive := by
    intro w y
    simp only [slaveRise]
    split
    · rfl
    · split <;> rfl
  cases pend <;>
    simp [busRun, stopWires, Wire.run, setScl, setSda, onRise, sdaWire, slvSda, hr, wireEvent, onStop, eeStop, eeSettlePending]

/-- A ninth clock nobody needs (R117). -/
theorem busRun_noackFree {p : Params} {b : Bus} (he : b.ee.slave = Slave.unaddressed)
    (hx : b.iox.slave = Slave.unaddressed) (hp : b.ee.pend = none) (hd : b.extDrive = true) (hs : b.extScript = []) :
    busRun p noackWires b = .ok { b with sclOut := false, sdaOut := true } := by
  obtain ⟨scl, sda, ack, ⟨es, page, pend, ptr, wb, mem⟩, ⟨xs, port⟩, ed, esc, dr⟩ := b
  simp only at he hx hp hd hs
  subst he hx hp hd hs
  cases scl <;> cases sda <;>
    simp [busRun, noackWires, Wire.run, setScl, setSda, onRise, sdaWire, slvSda, wireEvent, onStop, eeStop, Slave.unaddressed,
      onFall, eeFall, ioxFall, slaveFall, slaveRise, slaveReceiving, extFall, eeEndsByte]

/-- No other slave drives, and the clock line is low: how a client's byte begins. -/
structure Bus.Ready (b : Bus) : Prop where
  scl : b.sclOut = false
  ext : b.extDrive = true
  script : b.extScript = []

/-- The first byte after a start condition that neither reference slave answers. -/
theorem busRun_firstNack {p : Params} {b : Bus} (v : Byte) (hb : b.Ready) (he : b.ee.slave = slaveStart p.eePresent)
    (hx : b.iox.slave = slaveStart p.ioxPresent)
    (hee : p.eePresent = true → ¬ (v.extractLsb 7 4 = 0b1010#4 ∧ b.ee.wbusy = false))
    (hix : p.ioxPresent = true → v ≠ p.ioxAddrW ∧ v ≠ p.ioxAddrR) :
    busRun p (sendWires v) b =
      .ok { b with
            sclOut := false, sdaOut := true, ack := true
            ee := { b.ee with slave := Slave.unaddressed }, iox := { b.iox with slave := Slave.unaddressed } } := by
  rw [busRun_byte v ⟨he ▸ slaveStart_hears _, hx ▸ slaveStart_hears _, hb.ext, hb.script⟩ hb.scl]
  obtain ⟨scl, sda, ack, ⟨es, page, pend, ptr, wb, mem⟩, ⟨xs, port⟩, ed, esc, dr⟩ := b
  obtain ⟨h1, h2, h3⟩ := hb
  simp only at h1 h2 h3 he hx hee
  subst h1 h2 h3 he hx
  cases hpe : p.eePresent <;> cases hpi : p.ioxPresent <;> simp only [hpe, hpi, true_implies] at hee hix <;>
    simp [busRun, ackWires, Wire.run, slaveTake, slaveStart, Slave.unaddressed, Bus.withSlaves, setScl, setSda, onFall, eeFall,
      ioxFall, slaveFall, extFall, eeEndsByte, onRise, slaveRise, slaveReceiving, sdaWire, slvSda, sampleAck, readLine,
      contention, eeGot, eeControl, ioxGot, ioxAddress, slaveIgnore, hee, hix]

/-- The EEPROM answers its control byte (R66): with r/w = 0 it waits for an offset, with 1 it sends. -/
theorem busRun_control {p : Params} {b : Bus} (v : Byte) (ho : p.busOpenDrain = true) (hb : b.Ready) (he : b.ee.slave = slaveStart true)
    (hx : b.iox.slave = slaveStart p.ioxPresent) (hv : v.extractLsb 7 4 = 0b1010#4) (hw : b.ee.wbusy = false)
    (hix : p.ioxPresent = true → v ≠ p.ioxAddrW ∧ v ≠ p.ioxAddrR) :
    busRun p (sendWires v) b =
      .ok { b with
            sclOut := false, sdaOut := true, ack := false
            ee :=
              { b.ee with
                page := v.extractLsb 3 1
                slave :=
                  if v.getLsbD 0 then Slave.sending (Memory.read Config.unwritten b.ee.mem (eeIndex (v.extractLsb 3 1) b.ee.ptr))
                  else Slave.listening .second v }
            iox := { b.iox with slave := Slave.unaddressed } } := by
  rw [busRun_byte v ⟨he ▸ slaveStart_hears _, hx ▸ slaveStart_hears _, hb.ext, hb.script⟩ hb.scl]
  obtain ⟨scl, sda, ack, ⟨es, page, pend, ptr, wb, mem⟩, ⟨xs, port⟩, ed, esc, dr⟩ := b
  obtain ⟨h1, h2, h3⟩ := hb
  simp only at h1 h2 h3 he hx hw
  subst h1 h2 h3 he hx hw
  cases hpi : p.ioxPresent <;> simp only [hpi, true_implies] at hix <;> cases h0 : v.getLsbD 0 <;>
    (try rw [BitVec.getLsbD_eq_getElem (by omega)] at h0) <;>
    simp [busRun, ackWires, Wire.run, slaveTake, slaveStart, Slave.unaddressed, Bus.withSlaves, setScl, setSda, onFall, eeFall,
      ioxFall, slaveFall, extFall, eeEndsByte, onRise, slaveRise, slaveReceiving, sdaWire, slvSda, sampleAck, readLine,
      contention, ho, eeGot, eeControl, ioxGot, ioxAddress, slaveIgnore, hix, hv, h0, slaveAck, slaveAckSend, Slave.sending,
      Slave.listening]

/-- The EEPROM takes its offset byte (R66). -/
theorem busRun_offset {p : Params} {b : Bus} (v u : Byte) (ho : p.busOpenDrain = true) (hb : b.Ready) (he : b.ee.slave = Slave.listening .second u)
    (hx : b.iox.slave = Slave.unaddressed) :
    busRun p (sendWires v) b =
      .ok { b with
            sclOut := false, sdaOut := true, ack := false
            ee := { b.ee with ptr := v, slave := Slave.listening .third v } } := by
  have hh : b.ee.slave.hears 0 := by rw [he]; simp [Slave.hears, Slave.listening]
  rw [busRun_byte v ⟨hh, hx ▸ Slave.unaddressed_hears 0, hb.ext, hb.script⟩ hb.scl]
  obtain ⟨scl, sda, ack, ⟨es, page, pend, ptr, wb, mem⟩, ⟨xs, port⟩, ed, esc, dr⟩ := b
  obtain ⟨h1, h2, h3⟩ := hb
  simp only at h1 h2 h3 he hx
  subst h1 h2 h3 he hx
  simp [busRun, ackWires, Wire.run, slaveTake, Slave.unaddressed, Bus.withSlaves, setScl, setSda, onFall, eeFall, ioxFall,
    slaveFall, extFall, eeEndsByte, onRise, slaveRise, slaveReceiving, sdaWire, slvSda, sampleAck, readLine, contention, ho, eeGot,
    slaveAck, Slave.listening]

/-- The EEPROM takes its data byte and holds it pending (R66). -/
theorem busRun_data {p : Params} {b : Bus} (v u : Byte) (ho : p.busOpenDrain = true) (hb : b.Ready) (he : b.ee.slave = Slave.listening .third u)
    (hx : b.iox.slave = Slave.unaddressed) :
    busRun p (sendWires v) b =
      .ok { b with
            sclOut := false, sdaOut := true, ack := false
            ee := { b.ee with pend := some v, slave := Slave.listening .extra v } } := by
  have hh : b.ee.slave.hears 0 := by rw [he]; simp [Slave.hears, Slave.listening]
  rw [busRun_byte v ⟨hh, hx ▸ Slave.unaddressed_hears 0, hb.ext, hb.script⟩ hb.scl]
  obtain ⟨scl, sda, ack, ⟨es, page, pend, ptr, wb, mem⟩, ⟨xs, port⟩, ed, esc, dr⟩ := b
  obtain ⟨h1, h2, h3⟩ := hb
  simp only at h1 h2 h3 he hx
  subst h1 h2 h3 he hx
  simp [busRun, ackWires, Wire.run, slaveTake, Slave.unaddressed, Bus.withSlaves, setScl, setSda, onFall, eeFall, ioxFall,
    slaveFall, extFall, eeEndsByte, onRise, slaveRise, slaveReceiving, sdaWire, slvSda, sampleAck, readLine, contention, ho, eeGot,
    slaveAck, Slave.listening]

/-- The expander answers its write address (R68). -/
theorem busRun_ioxWrite {p : Params} {b : Bus} (ho : p.busOpenDrain = true) (hb : b.Ready) (he : b.ee.slave = slaveStart p.eePresent)
    (hx : b.iox.slave = slaveStart true) (hee : p.ioxAddrW.extractLsb 7 4 ≠ 0b1010#4) :
    busRun p (sendWires p.ioxAddrW) b =
      .ok { b with
            sclOut := false, sdaOut := true, ack := false
            ee := { b.ee with slave := Slave.unaddressed }
            iox := { b.iox with slave := Slave.listening .second p.ioxAddrW } } := by
  rw [busRun_byte _ ⟨he ▸ slaveStart_hears _, hx ▸ slaveStart_hears _, hb.ext, hb.script⟩ hb.scl]
  obtain ⟨scl, sda, ack, ⟨es, page, pend, ptr, wb, mem⟩, ⟨xs, port⟩, ed, esc, dr⟩ := b
  obtain ⟨h1, h2, h3⟩ := hb
  simp only at h1 h2 h3 he hx
  subst h1 h2 h3 he hx
  cases hpe : p.eePresent <;>
    simp [busRun, ackWires, Wire.run, slaveTake, slaveStart, Slave.unaddressed, Bus.withSlaves, setScl, setSda, onFall, eeFall,
      ioxFall, slaveFall, extFall, eeEndsByte, onRise, slaveRise, slaveReceiving, sdaWire, slvSda, sampleAck, readLine,
      contention, ho, eeGot, eeControl, ioxGot, ioxAddress, slaveIgnore, hee, slaveAck, Slave.listening]

/-- The expander answers its read address and sends its port (R68). -/
theorem busRun_ioxRead {p : Params} {b : Bus} (ho : p.busOpenDrain = true) (hb : b.Ready) (he : b.ee.slave = slaveStart p.eePresent)
    (hx : b.iox.slave = slaveStart true) (hee : p.ioxAddrR.extractLsb 7 4 ≠ 0b1010#4) (hne : p.ioxAddrR ≠ p.ioxAddrW) :
    busRun p (sendWires p.ioxAddrR) b =
      .ok { b with
            sclOut := false, sdaOut := true, ack := false
            ee := { b.ee with slave := Slave.unaddressed }
            iox := { b.iox with slave := Slave.sending b.iox.port } } := by
  rw [busRun_byte _ ⟨he ▸ slaveStart_hears _, hx ▸ slaveStart_hears _, hb.ext, hb.script⟩ hb.scl]
  obtain ⟨scl, sda, ack, ⟨es, page, pend, ptr, wb, mem⟩, ⟨xs, port⟩, ed, esc, dr⟩ := b
  obtain ⟨h1, h2, h3⟩ := hb
  simp only at h1 h2 h3 he hx
  subst h1 h2 h3 he hx
  cases hpe : p.eePresent <;>
    simp [busRun, ackWires, Wire.run, slaveTake, slaveStart, Slave.unaddressed, Bus.withSlaves, setScl, setSda, onFall, eeFall,
      ioxFall, slaveFall, extFall, eeEndsByte, onRise, slaveRise, slaveReceiving, sdaWire, slvSda, sampleAck, readLine,
      contention, ho, eeGot, eeControl, ioxGot, ioxAddress, slaveIgnore, hee, hne, slaveAck, slaveAckSend, Slave.sending]

/-- The expander takes its port byte (R68). -/
theorem busRun_ioxPort {p : Params} {b : Bus} (v u : Byte) (ho : p.busOpenDrain = true) (hb : b.Ready) (he : b.ee.slave = Slave.unaddressed)
    (hx : b.iox.slave = Slave.listening .second u) :
    busRun p (sendWires v) b =
      .ok { b with
            sclOut := false, sdaOut := true, ack := false
            iox := { port := v, slave := Slave.listening .extra v } } := by
  have hh : b.iox.slave.hears 0 := by rw [hx]; simp [Slave.hears, Slave.listening]
  rw [busRun_byte v ⟨he ▸ Slave.unaddressed_hears 0, hh, hb.ext, hb.script⟩ hb.scl]
  obtain ⟨scl, sda, ack, ⟨es, page, pend, ptr, wb, mem⟩, ⟨xs, port⟩, ed, esc, dr⟩ := b
  obtain ⟨h1, h2, h3⟩ := hb
  simp only at h1 h2 h3 he hx
  subst h1 h2 h3 he hx
  simp [busRun, ackWires, Wire.run, slaveTake, Slave.unaddressed, Bus.withSlaves, setScl, setSda, onFall, eeFall, ioxFall,
    slaveFall, extFall, eeEndsByte, onRise, slaveRise, slaveReceiving, sdaWire, slvSda, sampleAck, readLine, contention, ho,
    ioxGot, slaveAck, Slave.listening]

/-! ## A byte received -/

/-- The level a slave that sends m drives before clock n of its byte. -/
def sendingAt (m : Byte) (n : Nat) : Slave :=
  { phase := .send, bits := n, sh := m, acking := false, drive := m.getLsbD (7 - n) }

theorem takeBit_ee {p : Params} {b : Bus} (m : Byte) (n : Nat) (hn : n < 7) (ho : p.busOpenDrain = true) (hb : b.Ready) (hs : b.sdaOut = true)
    (he : b.ee.slave = sendingAt m n) (hx : b.iox.slave = Slave.unaddressed) :
    takeBit p b = .ok (m.getLsbD (7 - n), { b with ee := { b.ee with slave := sendingAt m (n + 1) } }) := by
  obtain ⟨scl, sda, ack, ⟨es, page, pend, ptr, wb, mem⟩, ⟨xs, port⟩, ed, esc, dr⟩ := b
  obtain ⟨h1, h2, h3⟩ := hb
  simp only at h1 h2 h3 he hx hs
  subst h1 h2 h3 he hx hs
  have h8 : ¬ n + 1 = 8 := by omega
  cases hm : m.getLsbD (7 - n) <;>
    simp [takeBit, setScl, onRise, slaveRise, slaveReceiving, sendingAt, sdaWire, slvSda, readLine, contention, onFall, eeFall,
      ioxFall, slaveFall, extFall, eeEndsByte, Slave.unaddressed, h8, hm, ho]

/-- A slave that has sent m: the wire is released, the ninth clock is to come. -/
def sentSlave (m : Byte) : Slave :=
  { phase := .sendAck, bits := 0, sh := m, acking := false, drive := true }

theorem takeBit_eeLast {p : Params} {b : Bus} (m : Byte) (ho : p.busOpenDrain = true) (hb : b.Ready)
    (hs : b.sdaOut = true) (he : b.ee.slave = sendingAt m 7) (hx : b.iox.slave = Slave.unaddressed) :
    takeBit p b = .ok (m.getLsbD 0,
      { b with ee := { b.ee with slave := sentSlave m, ptr := Config.any .bus 8 b.draws }, draws := b.draws + 1 }) := by
  obtain ⟨scl, sda, ack, ⟨es, page, pend, ptr, wb, mem⟩, ⟨xs, port⟩, ed, esc, dr⟩ := b
  obtain ⟨h1, h2, h3⟩ := hb
  simp only at h1 h2 h3 he hx hs
  subst h1 h2 h3 he hx hs
  cases hm : m.getLsbD 0 <;> (rw [BitVec.getLsbD_eq_getElem (by omega)] at hm) <;>
    simp [takeBit, setScl, onRise, slaveRise, slaveReceiving, sendingAt, sentSlave, sdaWire, slvSda, readLine, contention,
      onFall, eeFall, ioxFall, slaveFall, extFall, eeEndsByte, Slave.unaddressed, hm, ho]

/-- The EEPROM's read byte (R66, R116). EE_PTR is free afterwards (U10). -/
theorem takeBits_ee {p : Params} {b : Bus} (m : Byte) (ho : p.busOpenDrain = true) (hb : b.Ready) (hs : b.sdaOut = true)
    (he : b.ee.slave = Slave.sending m) (hx : b.iox.slave = Slave.unaddressed) :
    takeBits p 8 0#8 b = .ok (m,
      { b with ee := { b.ee with slave := sentSlave m, ptr := Config.any .bus 8 b.draws }, draws := b.draws + 1 }) := by
  have hr : ∀ x : Slave, ({ b with ee := { b.ee with slave := x } } : Bus).Ready := fun x => ⟨hb.1, hb.2, hb.3⟩
  have e0 := takeBit_ee m 0 (by omega) ho hb hs he hx
  have e1 := takeBit_ee (b := { b with ee := { b.ee with slave := sendingAt m 1 } }) m 1 (by omega) ho (hr _) hs rfl hx
  have e2 := takeBit_ee (b := { b with ee := { b.ee with slave := sendingAt m 2 } }) m 2 (by omega) ho (hr _) hs rfl hx
  have e3 := takeBit_ee (b := { b with ee := { b.ee with slave := sendingAt m 3 } }) m 3 (by omega) ho (hr _) hs rfl hx
  have e4 := takeBit_ee (b := { b with ee := { b.ee with slave := sendingAt m 4 } }) m 4 (by omega) ho (hr _) hs rfl hx
  have e5 := takeBit_ee (b := { b with ee := { b.ee with slave := sendingAt m 5 } }) m 5 (by omega) ho (hr _) hs rfl hx
  have e6 := takeBit_ee (b := { b with ee := { b.ee with slave := sendingAt m 6 } }) m 6 (by omega) ho (hr _) hs rfl hx
  have e7 := takeBit_eeLast (b := { b with ee := { b.ee with slave := sendingAt m 7 } }) m ho (hr _) hs rfl hx
  simp only [takeBits, e0, e1, e2, e3, e4, e5, e6, e7]
  have h8 := shift_eight 0#8 m
  simpa using h8

theorem takeBit_iox {p : Params} {b : Bus} (m : Byte) (n : Nat) (hn : n < 7) (ho : p.busOpenDrain = true) (hb : b.Ready)
    (hs : b.sdaOut = true) (he : b.ee.slave = Slave.unaddressed) (hx : b.iox.slave = sendingAt m n) :
    takeBit p b = .ok (m.getLsbD (7 - n), { b with iox := { b.iox with slave := sendingAt m (n + 1) } }) := by
  obtain ⟨scl, sda, ack, ⟨es, page, pend, ptr, wb, mem⟩, ⟨xs, port⟩, ed, esc, dr⟩ := b
  obtain ⟨h1, h2, h3⟩ := hb
  simp only at h1 h2 h3 he hx hs
  subst h1 h2 h3 he hx hs
  have h8 : ¬ n + 1 = 8 := by omega
  cases hm : m.getLsbD (7 - n) <;>
    simp [takeBit, setScl, onRise, slaveRise, slaveReceiving, sendingAt, sdaWire, slvSda, readLine, contention, onFall, eeFall,
      ioxFall, slaveFall, extFall, eeEndsByte, Slave.unaddressed, h8, hm, ho]

theorem takeBit_ioxLast {p : Params} {b : Bus} (m : Byte) (ho : p.busOpenDrain = true) (hb : b.Ready)
    (hs : b.sdaOut = true) (he : b.ee.slave = Slave.unaddressed) (hx : b.iox.slave = sendingAt m 7) :
    takeBit p b = .ok (m.getLsbD 0, { b with iox := { b.iox with slave := sentSlave m } }) := by
  obtain ⟨scl, sda, ack, ⟨es, page, pend, ptr, wb, mem⟩, ⟨xs, port⟩, ed, esc, dr⟩ := b
  obtain ⟨h1, h2, h3⟩ := hb
  simp only at h1 h2 h3 he hx hs
  subst h1 h2 h3 he hx hs
  cases hm : m.getLsbD 0 <;> (rw [BitVec.getLsbD_eq_getElem (by omega)] at hm) <;>
    simp [takeBit, setScl, onRise, slaveRise, slaveReceiving, sendingAt, sentSlave, sdaWire, slvSda, readLine, contention,
      onFall, eeFall, ioxFall, slaveFall, extFall, eeEndsByte, Slave.unaddressed, hm, ho]

/-- The expander's port byte (R68, R116). -/
theorem takeBits_iox {p : Params} {b : Bus} (m : Byte) (ho : p.busOpenDrain = true) (hb : b.Ready) (hs : b.sdaOut = true)
    (he : b.ee.slave = Slave.unaddressed) (hx : b.iox.slave = Slave.sending m) :
    takeBits p 8 0#8 b = .ok (m, { b with iox := { b.iox with slave := sentSlave m } }) := by
  have hr : ∀ x : Slave, ({ b with iox := { b.iox with slave := x } } : Bus).Ready := fun x => ⟨hb.1, hb.2, hb.3⟩
  have e0 := takeBit_iox m 0 (by omega) ho hb hs he hx
  have e1 := takeBit_iox (b := { b with iox := { b.iox with slave := sendingAt m 1 } }) m 1 (by omega) ho (hr _) hs he rfl
  have e2 := takeBit_iox (b := { b with iox := { b.iox with slave := sendingAt m 2 } }) m 2 (by omega) ho (hr _) hs he rfl
  have e3 := takeBit_iox (b := { b with iox := { b.iox with slave := sendingAt m 3 } }) m 3 (by omega) ho (hr _) hs he rfl
  have e4 := takeBit_iox (b := { b with iox := { b.iox with slave := sendingAt m 4 } }) m 4 (by omega) ho (hr _) hs he rfl
  have e5 := takeBit_iox (b := { b with iox := { b.iox with slave := sendingAt m 5 } }) m 5 (by omega) ho (hr _) hs he rfl
  have e6 := takeBit_iox (b := { b with iox := { b.iox with slave := sendingAt m 6 } }) m 6 (by omega) ho (hr _) hs he rfl
  have e7 := takeBit_ioxLast (b := { b with iox := { b.iox with slave := sendingAt m 7 } }) m ho (hr _) hs he rfl
  simp only [takeBits, e0, e1, e2, e3, e4, e5, e6, e7]
  have h8 := shift_eight 0#8 m
  simpa using h8

/-- The ninth clock after a byte read from the EEPROM, then the stop condition (R90). -/
theorem busRun_closeEe {p : Params} {b : Bus} (m : Byte) (hb : b.Ready) (he : b.ee.slave = sentSlave m)
    (hx : b.iox.slave = Slave.unaddressed) (hp : b.ee.pend = none) :
    busRun p (noackWires ++ stopWires) b =
      .ok { b with sclOut := true, sdaOut := true, ee := { b.ee with slave := Slave.unaddressed } } := by
  obtain ⟨scl, sda, ack, ⟨es, page, pend, ptr, wb, mem⟩, ⟨xs, port⟩, ed, esc, dr⟩ := b
  obtain ⟨h1, h2, h3⟩ := hb
  simp only at h1 h2 h3 he hx hp
  subst h1 h2 h3 he hx hp
  simp [busRun, noackWires, stopWires, Wire.run, sentSlave, setScl, setSda, onRise, slaveRise, slaveReceiving, sdaWire, slvSda,
    wireEvent, onStop, eeStop, onFall, eeFall, ioxFall, slaveFall, extFall, eeEndsByte, Slave.unaddressed]

/-- The same after a byte read from the expander (R91). -/
theorem busRun_closeIox {p : Params} {b : Bus} (m : Byte) (hb : b.Ready) (he : b.ee.slave = Slave.unaddressed)
    (hx : b.iox.slave = sentSlave m) (hp : b.ee.pend = none) :
    busRun p (noackWires ++ stopWires) b =
      .ok { b with sclOut := true, sdaOut := true, iox := { b.iox with slave := Slave.unaddressed } } := by
  obtain ⟨scl, sda, ack, ⟨es, page, pend, ptr, wb, mem⟩, ⟨xs, port⟩, ed, esc, dr⟩ := b
  obtain ⟨h1, h2, h3⟩ := hb
  simp only at h1 h2 h3 he hx hp
  subst h1 h2 h3 he hx hp
  simp [busRun, noackWires, stopWires, Wire.run, sentSlave, setScl, setSda, onRise, slaveRise, slaveReceiving, sdaWire, slvSda,
    wireEvent, onStop, eeStop, onFall, eeFall, ioxFall, slaveFall, extFall, eeEndsByte, Slave.unaddressed]

end Sys2Proof.Machine
end

