-- ==== Sys2Proof/Laws/Memory.lean ====
section
/-! SUPPORT. The laws of the byte memories: a read after a write, and the canonical form every operation keeps. -/

namespace Sys2Proof.Machine

theorem Memory.read_cons (d : Byte) (a : Nat) (v : Byte) (r : Memory) (x : Nat) (h : Memory.read d r a = d) :
    Memory.read d (Memory.cons d a v r) x = if x = a then v else Memory.read d r x := by
  unfold Memory.cons
  split
  · rename_i hv
    split
    · rename_i hx; rw [hx, h, hv]
    · rfl
  · rfl

/-- Below every listed address a memory reads as unlisted. -/
theorem Memory.read_below {d : Byte} {lo : Nat} {m : Memory} (h : Memory.wfAbove d lo m = true) {a : Nat} (ha : a < lo) :
    Memory.read d m a = d := by
  induction m generalizing lo with
  | nil => rfl
  | cons c r ih =>
    obtain ⟨b, w⟩ := c
    simp only [Memory.wfAbove, Bool.and_eq_true, decide_eq_true_eq] at h
    simp only [Memory.read]
    rw [if_neg (by omega)]
    exact ih h.2 (by omega)

theorem Memory.wfAbove_mono {d : Byte} {lo hi : Nat} {m : Memory} (h : Memory.wfAbove d hi m = true) (hl : lo ≤ hi) :
    Memory.wfAbove d lo m = true := by
  cases m with
  | nil => rfl
  | cons c r =>
    obtain ⟨b, w⟩ := c
    simp only [Memory.wfAbove, Bool.and_eq_true, decide_eq_true_eq] at h ⊢
    exact ⟨⟨by omega, h.1.2⟩, h.2⟩

theorem Memory.wfAbove_cons {d : Byte} {lo a : Nat} {v : Byte} {r : Memory} (h : Memory.wfAbove d (a + 1) r = true)
    (hl : lo ≤ a) : Memory.wfAbove d lo (Memory.cons d a v r) = true := by
  unfold Memory.cons
  split
  · exact Memory.wfAbove_mono h (by omega)
  · rename_i hv
    simp only [Memory.wfAbove, Bool.and_eq_true, decide_eq_true_eq]
    exact ⟨⟨hl, hv⟩, h⟩

theorem Memory.write_wfAbove {d : Byte} {lo : Nat} {m : Memory} (h : Memory.wfAbove d lo m = true) {a : Nat} (ha : lo ≤ a)
    (v : Byte) : Memory.wfAbove d lo (Memory.write d m a v) = true := by
  induction m generalizing lo with
  | nil => exact Memory.wfAbove_cons rfl ha
  | cons c r ih =>
    obtain ⟨b, w⟩ := c
    have h' := h
    simp only [Memory.wfAbove, Bool.and_eq_true, decide_eq_true_eq] at h
    simp only [Memory.write]
    split
    · rename_i hab
      apply Memory.wfAbove_cons _ ha
      simp only [Memory.wfAbove, Bool.and_eq_true, decide_eq_true_eq]
      exact ⟨⟨by omega, h.1.2⟩, h.2⟩
    · split
      · rename_i hab
        exact Memory.wfAbove_cons (hab ▸ h.2) ha
      · simp only [Memory.wfAbove, Bool.and_eq_true, decide_eq_true_eq]
        exact ⟨h.1, ih h.2 (by omega)⟩

/-- A write keeps the canonical form. -/
theorem Memory.write_wf {d : Byte} {m : Memory} (h : Memory.wf d m = true) (a : Nat) (v : Byte) :
    Memory.wf d (Memory.write d m a v) = true :=
  Memory.write_wfAbove h (Nat.zero_le a) v

theorem Memory.read_write_above {d : Byte} {lo : Nat} {m : Memory} (h : Memory.wfAbove d lo m = true) (a : Nat)
    (v : Byte) (x : Nat) : Memory.read d (Memory.write d m a v) x = if x = a then v else Memory.read d m x := by
  induction m generalizing lo with
  | nil => exact Memory.read_cons d a v [] x rfl
  | cons c r ih =>
    obtain ⟨b, w⟩ := c
    simp only [Memory.wfAbove, Bool.and_eq_true, decide_eq_true_eq] at h
    simp only [Memory.write]
    split
    · rename_i hab
      rw [Memory.read_cons]
      simp only [Memory.read]
      rw [if_neg (by omega)]
      exact Memory.read_below h.2 (by omega)
    · split
      · rename_i hab
        rw [Memory.read_cons _ _ _ _ _ (Memory.read_below h.2 (by omega))]
        simp only [Memory.read]
        subst hab
        split <;> simp_all
      · simp only [Memory.read]
        rw [ih h.2]
        split
        · rename_i h1
          rw [if_neg (by omega)]
        · rfl

/-- A read after a write: the value written at its address, the old one everywhere else. -/
theorem Memory.read_write {d : Byte} {m : Memory} (h : Memory.wf d m = true) (a : Nat) (v : Byte) (x : Nat) :
    Memory.read d (Memory.write d m a v) x = if x = a then v else Memory.read d m x :=
  Memory.read_write_above h a v x

theorem Memory.within_cons {ok : Nat → Byte → Bool} (d : Byte) {a : Nat} {v : Byte} {r : Memory}
    (h : Memory.within ok r = true) (hv : ok a v = true) : Memory.within ok (Memory.cons d a v r) = true := by
  unfold Memory.cons
  split
  · exact h
  · simp only [Memory.within, List.all_cons, Bool.and_eq_true] at h ⊢
    exact ⟨hv, h⟩

/-- A write of a value its cell can hold keeps every cell where the space has one. -/
theorem Memory.write_within {ok : Nat → Byte → Bool} {d : Byte} {m : Memory} (h : Memory.within ok m = true) {a : Nat}
    {v : Byte} (hv : ok a v = true) : Memory.within ok (Memory.write d m a v) = true := by
  induction m with
  | nil => exact Memory.within_cons d rfl hv
  | cons c r ih =>
    obtain ⟨b, w⟩ := c
    have hr : Memory.within ok r = true := by
      simp only [Memory.within, List.all_cons, Bool.and_eq_true] at h ⊢
      exact h.2
    simp only [Memory.write]
    split
    · exact Memory.within_cons d h hv
    · split
      · exact Memory.within_cons d hr hv
      · simp only [Memory.within, List.all_cons, Bool.and_eq_true] at h ⊢
        exact ⟨h.1, ih hr⟩

/-- Writing at each of a list of addresses keeps the canonical form. -/
theorem Memory.fillWith_wf {d : Byte} {m : Memory} (h : Memory.wf d m = true) (f : Nat → Byte) (as : List Nat) :
    Memory.wf d (Memory.fillWith d m f as) = true := by
  induction as with
  | nil => exact h
  | cons a as ih => exact Memory.write_wf ih a (f a)

theorem Memory.fillWith_within {ok : Nat → Byte → Bool} {d : Byte} {m : Memory} (h : Memory.within ok m = true)
    (f : Nat → Byte) {as : List Nat} (hf : ∀ a ∈ as, ok a (f a) = true) :
    Memory.within ok (Memory.fillWith d m f as) = true := by
  induction as with
  | nil => exact h
  | cons a as ih =>
    exact Memory.write_within (ih fun b hb => hf b (List.mem_cons_of_mem a hb)) (hf a (List.mem_cons_self ..))

/-- What a memory reads as after a fill. -/
theorem Memory.read_fillWith {d : Byte} {m : Memory} (h : Memory.wf d m = true) (f : Nat → Byte) (as : List Nat)
    (x : Nat) : Memory.read d (Memory.fillWith d m f as) x = if x ∈ as then f x else Memory.read d m x := by
  induction as with
  | nil => rfl
  | cons a as ih =>
    simp only [Memory.fillWith]
    rw [Memory.read_write (Memory.fillWith_wf h f as), ih]
    by_cases hx : x = a
    · subst hx; simp
    · simp [hx]

theorem Memory.fill_eq (d : Byte) (m : Memory) (v : Byte) (as : List Nat) :
    Memory.fill d m v as = Memory.fillWith d m (fun _ => v) as := by
  induction as with
  | nil => rfl
  | cons a as ih => simp only [Memory.fill, Memory.fillWith, ih]

/-- Memories in canonical form that list only admitted cells and read alike are equal data. -/
theorem Memory.ext_above {d : Byte} {lo : Nat} {m n : Memory} (hm : Memory.wfAbove d lo m = true)
    (hn : Memory.wfAbove d lo n = true) (h : ∀ x, Memory.read d m x = Memory.read d n x) : m = n := by
  induction m generalizing lo n with
  | nil =>
    cases n with
    | nil => rfl
    | cons c r =>
      obtain ⟨b, w⟩ := c
      simp only [Memory.wfAbove, Bool.and_eq_true, decide_eq_true_eq] at hn
      have := h b
      simp only [Memory.read, if_true] at this
      exact absurd this.symm hn.1.2
  | cons c r ih =>
    obtain ⟨b, w⟩ := c
    have hm' := hm
    simp only [Memory.wfAbove, Bool.and_eq_true, decide_eq_true_eq] at hm
    cases n with
    | nil =>
      have := h b
      simp only [Memory.read, if_true] at this
      exact absurd this hm.1.2
    | cons c' r' =>
      obtain ⟨b', w'⟩ := c'
      have hn' := hn
      simp only [Memory.wfAbove, Bool.and_eq_true, decide_eq_true_eq] at hn
      have hb : b = b' := by
        rcases Nat.lt_trichotomy b b' with hlt | heq | hgt
        · have := h b
          simp only [Memory.read, if_true] at this
          rw [if_neg (by omega), Memory.read_below hn.2 (by omega)] at this
          exact absurd this hm.1.2
        · exact heq
        · have := h b'
          simp only [Memory.read, if_true] at this
          rw [if_neg (by omega), Memory.read_below hm.2 (by omega)] at this
          exact absurd this.symm hn.1.2
      subst hb
      have hw : w = w' := by simpa [Memory.read] using h b
      subst hw
      have hr : r = r' := by
        apply ih hm.2 hn.2
        intro x
        by_cases hx : x = b
        · subst hx
          rw [Memory.read_below hm.2 (by omega), Memory.read_below hn.2 (by omega)]
        · simpa [Memory.read, hx] using h x
      rw [hr]

/-- Equal memories are equal data. -/
theorem Memory.ext {d : Byte} {m n : Memory} (hm : Memory.wf d m = true) (hn : Memory.wf d n = true)
    (h : ∀ x, Memory.read d m x = Memory.read d n x) : m = n :=
  Memory.ext_above hm hn h

end Sys2Proof.Machine
end

