-- ==== Sys2Proof/Laws/Cells.lean ====
section
/-! SUPPORT. Every operation on the three cell memories keeps their canonical form and lists only cells the spaces have; the
memories after reset have it. -/

namespace Sys2Proof.Machine

theorem visibleCell_of_visible {a : BitVec 7} (v : Byte) (h : visible a = true) : visibleCell a.toNat v = true := by
  have e : BitVec.ofNat 7 a.toNat = a := by simp
  have l := a.isLt
  simp only [visibleCell, e, h, Bool.and_true, decide_eq_true_eq]
  omega

theorem writeDdram_wf {m : Memory} (h : Memory.wf Config.blank m = true) (a : BitVec 7) (v : Byte) :
    Memory.wf Config.blank (writeDdram m a v) = true := by
  unfold writeDdram
  split
  · exact Memory.write_wf h _ _
  · exact h

theorem writeDdram_within {m : Memory} (h : Memory.within visibleCell m = true) (a : BitVec 7) (v : Byte) :
    Memory.within visibleCell (writeDdram m a v) = true := by
  unfold writeDdram
  split
  · exact Memory.write_within h (visibleCell_of_visible v ‹_›)
  · exact h

theorem writeCgram_wf {m : Memory} (h : Memory.wf Config.unwritten m = true) (a : BitVec 6) (v : Byte) :
    Memory.wf Config.unwritten (writeCgram m a v) = true := Memory.write_wf h _ _

theorem glyphCell_low (a : BitVec 6) (v : Byte) : glyphCell a.toNat (v &&& 0x1F#8) = true := by
  have l := a.isLt
  have e : (v &&& 0x1F#8).toNat < 32 := by
    rw [BitVec.toNat_and]
    exact Nat.lt_of_le_of_lt Nat.and_le_right (by decide)
  simp only [glyphCell, Bool.and_eq_true, decide_eq_true_eq]
  omega

theorem writeCgram_within {m : Memory} (h : Memory.within glyphCell m = true) (a : BitVec 6) (v : Byte) :
    Memory.within glyphCell (writeCgram m a v) = true := Memory.write_within h (glyphCell_low a v)

theorem writeEeprom_wf {m : Memory} (h : Memory.wf Config.unwritten m = true) (p : BitVec 3) (o d : Byte) :
    Memory.wf Config.unwritten (writeEeprom m p o d) = true := Memory.write_wf h _ _

theorem eeIndex_lt (p : BitVec 3) (o : Byte) : eeIndex p o < 2048 := by
  have := p.isLt
  have := o.isLt
  simp only [eeIndex]
  omega

theorem writeEeprom_within {m : Memory} (h : Memory.within eepromCell m = true) (p : BitVec 3) (o d : Byte) :
    Memory.within eepromCell (writeEeprom m p o d) = true :=
  Memory.write_within h (by simpa [eepromCell] using eeIndex_lt p o)

/-- An accepted data byte keeps both LCD memories in form (R57). -/
theorem acceptData_memoriesWf {l : Lcd} (h : l.memoriesWf = true) (v : Byte) : (acceptData v l).memoriesWf = true := by
  simp only [Lcd.memoriesWf, Bool.and_eq_true] at h ⊢
  obtain ⟨⟨⟨h1, h2⟩, h3⟩, h4⟩ := h
  refine ⟨⟨⟨?_, ?_⟩, ?_⟩, ?_⟩ <;> simp only [acceptData] <;> split <;>
    first
      | assumption
      | exact writeDdram_wf h1 _ _
      | exact writeDdram_within h2 _ _
      | exact writeCgram_wf h3 _ _
      | exact writeCgram_within h4 _ _

/-- Settling a pending write keeps EE_MEM in form, whichever way it goes (R66, U10). -/
theorem eeSettlePending_memoryWf {e : Eeprom} (h : e.memoryWf = true) (d : Byte) (performed : Bool) :
    (eeSettlePending d performed e).memoryWf = true := by
  simp only [Eeprom.memoryWf, Bool.and_eq_true] at h ⊢
  cases performed
  · exact h
  · exact ⟨writeEeprom_wf h.1 _ _ _, writeEeprom_within h.2 _ _ _⟩

theorem reset_ddram_wf : Memory.wf Config.blank State.reset.lcd.ddram = true := rfl
theorem reset_cgram_wf : Memory.wf Config.unwritten State.reset.lcd.cgram = true := rfl
theorem reset_eeprom_wf : Memory.wf Config.unwritten State.reset.bus.ee.mem = true := rfl

end Sys2Proof.Machine
end

