-- ==== Sys2Proof/Laws/PerInstr.lean ====
section
/-! SUPPORT. The family EncodedLength: the encoder writes as many bytes as the opcode table gives the row (30_encoding.md R81,
R82, R85, R97; LCD_STATUS is read and never written, R93), and no more than the longest request. -/

namespace Sys2Proof.Laws.EncodedLength

/-- The length in bytes of each row (R81, R85, R97). -/
def bytes : Instr → Nat
  | .lcdStatus => 0
  | .busSend _ | .ioxCfg _ | .lcdCmdwr _ | .lcdDatawr _ | .lcdPutc _ | .clkRestart => 2
  | .eeRead _ _ | .lcdGoto _ _ => 3
  | .eeWrite _ _ _ => 4
  | .lcdPuts text => 2 + text.length
  | .lcdGlyph _ _ => 10
  | .busStart | .busStop | .busRecv | .busNoack | .ioxRead | .lcdStatrd | .lcdWait | .lcdInit | .clkStart | .clkStop |
  .clkReset | .clkRead | .edgeRead | .edgeReset | .timerIsr | .edgeIsr | .clkResume | .eeCtrlByte _ _ | .ioxAddrW |
  .ioxAddrR | .lcdMode _ _ | .setDdramAddr _ | .setCgramAddr _ _ | .cmdFsWake | .cmdFsFinal | .cmdDisplayOff |
  .cmdClear | .cmdEntryInc | .cmdHome | .lcdDataDd _ | .lcdDataCg _ _ => 1

/-- The encoding of a well-formed operation has its row's length, and fits the longest request. -/
def Statement (i : Instr) : Prop :=
  i.wellFormed = true → ∀ p : Params, (encode p i).length = bytes i ∧ (encode p i).length ≤ longestRequest

theorem busStart : Statement .busStart := fun _ _ => ⟨rfl, Nat.le_of_ble_eq_true rfl⟩

theorem busStop : Statement .busStop := fun _ _ => ⟨rfl, Nat.le_of_ble_eq_true rfl⟩

theorem busSend (value : Byte) : Statement (.busSend value) := fun _ _ => ⟨rfl, Nat.le_of_ble_eq_true rfl⟩

theorem busRecv : Statement .busRecv := fun _ _ => ⟨rfl, Nat.le_of_ble_eq_true rfl⟩

theorem busNoack : Statement .busNoack := fun _ _ => ⟨rfl, Nat.le_of_ble_eq_true rfl⟩

theorem eeWrite (page offset data : Byte) : Statement (.eeWrite page offset data) := fun _ _ => ⟨rfl, Nat.le_of_ble_eq_true rfl⟩

theorem eeRead (page offset : Byte) : Statement (.eeRead page offset) := fun _ _ => ⟨rfl, Nat.le_of_ble_eq_true rfl⟩

theorem ioxCfg (mask : Byte) : Statement (.ioxCfg mask) := fun _ _ => ⟨rfl, Nat.le_of_ble_eq_true rfl⟩

theorem ioxRead : Statement .ioxRead := fun _ _ => ⟨rfl, Nat.le_of_ble_eq_true rfl⟩

theorem lcdCmdwr (byte : Byte) : Statement (.lcdCmdwr byte) := fun _ _ => ⟨rfl, Nat.le_of_ble_eq_true rfl⟩

theorem lcdDatawr (byte : Byte) : Statement (.lcdDatawr byte) := fun _ _ => ⟨rfl, Nat.le_of_ble_eq_true rfl⟩

theorem lcdStatrd : Statement .lcdStatrd := fun _ _ => ⟨rfl, Nat.le_of_ble_eq_true rfl⟩

theorem lcdWait : Statement .lcdWait := fun _ _ => ⟨rfl, Nat.le_of_ble_eq_true rfl⟩

theorem lcdInit : Statement .lcdInit := fun _ _ => ⟨rfl, Nat.le_of_ble_eq_true rfl⟩

theorem lcdGoto (row column : Byte) : Statement (.lcdGoto row column) := fun _ _ => ⟨rfl, Nat.le_of_ble_eq_true rfl⟩

theorem lcdPutc (code : Byte) : Statement (.lcdPutc code) := fun _ _ => ⟨rfl, Nat.le_of_ble_eq_true rfl⟩

theorem lcdPuts (text : List Byte) : Statement (.lcdPuts text) := by
  intro h p
  simp only [Instr.wellFormed, decide_eq_true_eq] at h
  simp only [encode, bytes, longestRequest, List.length_cons]
  omega

theorem lcdGlyph (slot : Byte) (rows : Vector Byte 8) : Statement (.lcdGlyph slot rows) := fun _ _ => by simp [encode, bytes, longestRequest]

theorem clkStart : Statement .clkStart := fun _ _ => ⟨rfl, Nat.le_of_ble_eq_true rfl⟩

theorem clkStop : Statement .clkStop := fun _ _ => ⟨rfl, Nat.le_of_ble_eq_true rfl⟩

theorem clkReset : Statement .clkReset := fun _ _ => ⟨rfl, Nat.le_of_ble_eq_true rfl⟩

theorem clkRead : Statement .clkRead := fun _ _ => ⟨rfl, Nat.le_of_ble_eq_true rfl⟩

theorem edgeRead : Statement .edgeRead := fun _ _ => ⟨rfl, Nat.le_of_ble_eq_true rfl⟩

theorem edgeReset : Statement .edgeReset := fun _ _ => ⟨rfl, Nat.le_of_ble_eq_true rfl⟩

theorem timerIsr : Statement .timerIsr := fun _ _ => ⟨rfl, Nat.le_of_ble_eq_true rfl⟩

theorem edgeIsr : Statement .edgeIsr := fun _ _ => ⟨rfl, Nat.le_of_ble_eq_true rfl⟩

theorem clkResume : Statement .clkResume := fun _ _ => ⟨rfl, Nat.le_of_ble_eq_true rfl⟩

theorem clkRestart : Statement .clkRestart := fun _ _ => ⟨rfl, Nat.le_of_ble_eq_true rfl⟩

theorem eeCtrlByte (page : BitVec 3) (rw : Bit) : Statement (.eeCtrlByte page rw) := fun _ _ => ⟨rfl, Nat.le_of_ble_eq_true rfl⟩

theorem ioxAddrW : Statement .ioxAddrW := fun _ _ => ⟨rfl, Nat.le_of_ble_eq_true rfl⟩

theorem ioxAddrR : Statement .ioxAddrR := fun _ _ => ⟨rfl, Nat.le_of_ble_eq_true rfl⟩

theorem lcdMode (rs rw : Bit) : Statement (.lcdMode rs rw) := fun _ _ => ⟨rfl, Nat.le_of_ble_eq_true rfl⟩

theorem setDdramAddr (a : BitVec 7) : Statement (.setDdramAddr a) := fun _ _ => ⟨rfl, Nat.le_of_ble_eq_true rfl⟩

theorem setCgramAddr (slot row : BitVec 3) : Statement (.setCgramAddr slot row) := fun _ _ => ⟨rfl, Nat.le_of_ble_eq_true rfl⟩

theorem cmdFsWake : Statement .cmdFsWake := fun _ _ => ⟨rfl, Nat.le_of_ble_eq_true rfl⟩

theorem cmdFsFinal : Statement .cmdFsFinal := fun _ _ => ⟨rfl, Nat.le_of_ble_eq_true rfl⟩

theorem cmdDisplayOff : Statement .cmdDisplayOff := fun _ _ => ⟨rfl, Nat.le_of_ble_eq_true rfl⟩

theorem cmdClear : Statement .cmdClear := fun _ _ => ⟨rfl, Nat.le_of_ble_eq_true rfl⟩

theorem cmdEntryInc : Statement .cmdEntryInc := fun _ _ => ⟨rfl, Nat.le_of_ble_eq_true rfl⟩

theorem cmdHome : Statement .cmdHome := fun _ _ => ⟨rfl, Nat.le_of_ble_eq_true rfl⟩

theorem lcdStatus : Statement .lcdStatus := fun _ _ => ⟨rfl, Nat.le_of_ble_eq_true rfl⟩

theorem lcdDataDd (code : Byte) : Statement (.lcdDataDd code) := fun _ _ => ⟨rfl, Nat.le_of_ble_eq_true rfl⟩

theorem lcdDataCg (ignored : BitVec 3) (pattern : BitVec 5) : Statement (.lcdDataCg ignored pattern) := fun _ _ => ⟨rfl, Nat.le_of_ble_eq_true rfl⟩

end Sys2Proof.Laws.EncodedLength
end

