-- ==== Sys2Proof/Laws/Window.lean ====
section
/-! SUPPORT. The LCD window a piece of an expansion at a time: a wait that ends, a command, a data byte (R57, R60, R150 to R153). -/

namespace Sys2Proof.Machine

/-- A state with the LCD and context c's transients replaced. -/
def State.onLcdTr (s : State) (c : Ctx) (l : Lcd) (t : Transients) : State := State.setTr { s with lcd := l } c t

@[simp] theorem onLcdTr_lcd (s : State) (c : Ctx) (l : Lcd) (t : Transients) : (s.onLcdTr c l t).lcd = l := by cases c <;> rfl
@[simp] theorem onLcdTr_tr (s : State) (c : Ctx) (l : Lcd) (t : Transients) : (s.onLcdTr c l t).tr c = t := by cases c <;> rfl
@[simp] theorem onLcdTr_cfg (s : State) (c : Ctx) (l : Lcd) (t : Transients) : (s.onLcdTr c l t).cfg = s.cfg := by
  cases c <;> rfl
@[simp] theorem onLcdTr_env (s : State) (c : Ctx) (l : Lcd) (t : Transients) : (s.onLcdTr c l t).env = s.env := by
  cases c <;> rfl
@[simp] theorem onLcdTr_bus (s : State) (c : Ctx) (l : Lcd) (t : Transients) : (s.onLcdTr c l t).bus = s.bus := by
  cases c <;> rfl
@[simp] theorem onLcdTr_clk (s : State) (c : Ctx) (l : Lcd) (t : Transients) : (s.onLcdTr c l t).clk = s.clk := by
  cases c <;> rfl
@[simp] theorem onLcdTr_cnt (s : State) (c : Ctx) (l : Lcd) (t : Transients) : (s.onLcdTr c l t).cnt = s.cnt := by
  cases c <;> rfl
@[simp] theorem onLcdTr_irq (s : State) (c : Ctx) (l : Lcd) (t : Transients) : (s.onLcdTr c l t).irq = s.irq := by
  cases c <;> rfl
@[simp] theorem onLcdTr_draws (s : State) (c : Ctx) (l : Lcd) (t : Transients) : (s.onLcdTr c l t).draws = s.draws := by
  cases c <;> rfl
@[simp] theorem onLcdTr_twice (s : State) (c : Ctx) (l l' : Lcd) (t t' : Transients) :
    (s.onLcdTr c l t).onLcdTr c l' t' = s.onLcdTr c l' t' := by cases c <;> rfl

theorem Running.onLcdTr {c : Ctx} {s : State} (h : Running c s) (l : Lcd) (t : Transients) :
    Running c (s.onLcdTr c l t) := h.congr (by simp) (by simp)

/-- The busy flag as a write without a wait meets it. -/
theorem readyAtBoundary_free {s : State} (h : s.lcdFree = true) :
    readyAtBoundary s.env.lcd s.lcd = { s.lcd with bf := false } := by
  obtain ⟨cfg, bus, ⟨mode, bf, ac, rs, dd, cg, ei, d, f, dr⟩, clk, cnt, irq, fg, tisr, eisr, ⟨sc, k, e⟩, reqs, direct, res, draws⟩ := s
  simp only [State.lcdFree, Bool.or_eq_true, Bool.not_eq_true', decide_eq_true_eq] at h
  rcases h with h | h
  · subst h; simp [readyAtBoundary]
  · subst h; simp [readyAtBoundary]

/-- A wait that ends at its first status read (R153). -/
theorem go_wait {c : Ctx} {n : Nat} {k : List Item} {s : State} (h : Running c s) (hw : s.waitEnds = true) :
    go c (n + 2) (waitCode ++ k) s =
      go c n k (s.onLcdTr c { s.lcd with mode := 0b01#2, bf := false }
        { s.tr c with stBusy := false, stAddr := s.lcd.ac }) := by
  simp only [waitCode, statusCode, List.cons_append, List.nil_append]
  rw [go_prim h]
  simp only [runPrim, thenDo_next]
  have h1 : Running c { readyEager s with lcd := { (readyEager s).lcd with mode := 0b01#2 } } := h.congr rfl rfl
  rw [go_prim h1]
  have hb : readyAtRead s.env.lcd (readyAtBoundary s.env.lcd { readyAtBoundary s.env.lcd s.lcd with mode := 0b01#2 }) =
      { s.lcd with mode := 0b01#2, bf := false } := by
    simp only [State.waitEnds, State.lcdAnswers, Bool.or_eq_true, Bool.not_eq_true', decide_eq_true_eq] at hw
    rcases hw with hw | hw
    · simp [readyAtRead, readyAtBoundary, hw]
    · cases he : s.env.lcd with
      | scripted => exact absurd he hw
      | eager => simp [readyAtRead, readyAtBoundary]
      | onRead => simp [readyAtRead, readyAtBoundary]
  have hr : runPrim c .readPort (readyEager { readyEager s with lcd := { (readyEager s).lcd with mode := 0b01#2 } }) =
      .next (s.onLcdTr c { s.lcd with mode := 0b01#2, bf := false }
        { s.tr c with stBusy := false, stAddr := s.lcd.ac }) := by
    simp only [runPrim, readStatus, readyEager_lcd, readyEager_env, hb, portRead, if_true, status]
    cases c <;> rfl
  rw [hr, thenDo_next, go_goOn]
  simp [runCtl]

/-- A command byte written without a wait (R150, R60). -/
theorem go_cmd {c : Ctx} {n : Nat} {v : Byte} {l : Lcd} {k : List Item} {s : State} (h : Running c s)
    (hf : s.lcdFree = true) (ha : acceptCommand s.cfg v { s.lcd with mode := 0b00#2, bf := false } = some l) :
    go c (n + 2) (cmdCode v ++ k) s = go c n k { s with lcd := l } := by
  simp only [cmdCode, List.cons_append, List.nil_append]
  rw [go_prim h]
  simp only [runPrim, thenDo_next]
  have h1 : Running c { readyEager s with lcd := { (readyEager s).lcd with mode := 0b00#2 } } := h.congr rfl rfl
  rw [go_prim h1]
  have hb : readyAtBoundary s.env.lcd { readyAtBoundary s.env.lcd s.lcd with mode := 0b00#2 } =
      { s.lcd with mode := 0b00#2, bf := false } := by
    rw [readyAtBoundary_free hf]
    simp [readyAtBoundary]
  have hr : runPrim c (.writePort v) (readyEager { readyEager s with lcd := { (readyEager s).lcd with mode := 0b00#2 } }) =
      .next { s with lcd := l } := by
    simp only [runPrim, readyEager_lcd, readyEager_env, readyEager_cfg, hb, portWrite, if_true, deliverCommand, ha,
      Bool.false_and, Bool.false_eq_true, if_false, onLcd]
    rfl
  rw [hr, thenDo_next]

/-- A data byte written without a wait (R151, R57). -/
theorem go_data {c : Ctx} {n : Nat} {v : Byte} {k : List Item} {s : State} (h : Running c s) (hf : s.lcdFree = true) :
    go c (n + 2) (dataCode v ++ k) s =
      go c n k { s with lcd := acceptData v { s.lcd with mode := 0b10#2, bf := false } } := by
  simp only [dataCode, List.cons_append, List.nil_append]
  rw [go_prim h]
  simp only [runPrim, thenDo_next]
  have h1 : Running c { readyEager s with lcd := { (readyEager s).lcd with mode := 0b10#2 } } := h.congr rfl rfl
  rw [go_prim h1]
  have hb : readyAtBoundary s.env.lcd { readyAtBoundary s.env.lcd s.lcd with mode := 0b10#2 } =
      { s.lcd with mode := 0b10#2, bf := false } := by
    rw [readyAtBoundary_free hf]
    simp [readyAtBoundary]
  have hr : runPrim c (.writePort v) (readyEager { readyEager s with lcd := { (readyEager s).lcd with mode := 0b10#2 } }) =
      .next { s with lcd := acceptData v { s.lcd with mode := 0b10#2, bf := false } } := by
    simp only [runPrim, readyEager_lcd, readyEager_env, readyEager_cfg, hb, portWrite]
    rfl
  rw [hr, thenDo_next]

/-- The context's transients after a wait. -/
def Transients.waited (t : Transients) (a : BitVec 7) : Transients := { t with stBusy := false, stAddr := a }

theorem lcdFree_of_ready {s : State} (h : s.lcd.bf = false) : s.lcdFree = true := by simp [State.lcdFree, h]

/-- A wait, then a command (R155). -/
theorem go_waitCmd {c : Ctx} {n : Nat} {v : Byte} {l : Lcd} {k : List Item} {s : State} (h : Running c s)
    (hw : s.waitEnds = true) (ha : acceptCommand s.cfg v { s.lcd with mode := 0b00#2, bf := false } = some l) :
    go c (n + 4) (waitCode ++ cmdCode v ++ k) s = go c n k (s.onLcdTr c l ((s.tr c).waited s.lcd.ac)) := by
  rw [List.append_assoc, go_wait (n := n + 2) h hw]
  rw [go_cmd (l := l) (h.onLcdTr _ _) (lcdFree_of_ready (by simp)) (by simpa using ha)]
  congr 1
  cases c <;> rfl

/-- A wait, then a data byte (R155). -/
theorem go_waitData {c : Ctx} {n : Nat} {v : Byte} {k : List Item} {s : State} (h : Running c s)
    (hw : s.waitEnds = true) :
    go c (n + 4) (waitCode ++ dataCode v ++ k) s =
      go c n k (s.onLcdTr c (acceptData v { s.lcd with mode := 0b10#2, bf := false }) ((s.tr c).waited s.lcd.ac)) := by
  rw [List.append_assoc, go_wait (n := n + 2) h hw, go_data (h.onLcdTr _ _) (lcdFree_of_ready (by simp))]
  congr 1
  cases c <;> simp <;> rfl

theorem setAddr_bits : ∀ a : BitVec 7, (setAddrCommand a).getLsbD 7 = true ∧ (setAddrCommand a).extractLsb 6 0 = a := by
  decide +kernel

/-- The module's answer to a set-address command (R60). -/
theorem acceptCommand_setAddr (p : Params) (a : BitVec 7) (l : Lcd) :
    acceptCommand p (setAddrCommand a) l = some { l with ac := a, ramsel := .dd, bf := true } := by
  have h7 : (setAddrCommand a).getLsbD 7 = true := setAddr_bits a |>.1
  have h6 : (setAddrCommand a).extractLsb 6 0 = a := setAddr_bits a |>.2
  simp only [acceptCommand, h7, if_true, h6]

/-- LCD_GOTO's window accesses (R173). -/
theorem go_goto {c : Ctx} {n : Nat} {row column : Nat} {k : List Item} {s : State} (h : Running c s)
    (hw : s.waitEnds = true) (hc : cursorOk row column = true) :
    go c (n + 4) (gotoCode row column ++ k) s =
      go c n k (s.onLcdTr c
        { s.lcd with mode := 0b00#2, ac := cursorAddr row column, ramsel := .dd, bf := true }
        ((s.tr c).waited s.lcd.ac)) := by
  simp only [gotoCode, hc, if_true]
  exact go_waitCmd h hw (acceptCommand_setAddr s.cfg (cursorAddr row column) _)

/-- LCD_PUTC's window accesses (R174). -/
theorem go_putc {c : Ctx} {n : Nat} {v : Byte} {k : List Item} {s : State} (h : Running c s) (hw : s.waitEnds = true) :
    go c (n + 4) (putcCode v ++ k) s =
      go c n k (s.onLcdTr c (acceptData v { s.lcd with mode := 0b10#2, bf := false }) ((s.tr c).waited s.lcd.ac)) :=
  go_waitData h hw

end Sys2Proof.Machine
end

