-- ==== Sys2Proof/Tests/Slice0.lean ====
section
/-! SUPPORT. Tests. Expected values come from spec/: the encoding tables of 30_encoding.md and the vectors T10 to T85 of
95_test_vectors.md, named in each comment. The `witness_` theorems show that the hypotheses of a statement of
Certificates/Slice0/Obligations.lean can be met together, at the boundary values of its operands. -/

namespace Sys2Proof.Tests

open Sys2Proof.Machine

-- One theorem at a time: each would otherwise hold a thread of its own.
set_option Elab.async false

/-! ## Helpers -/

/-- The answer is a next state of which f holds. -/
def got (r : Res) (f : State → Bool) : Bool :=
  match r with
  | .next t => f t
  | _ => false

/-- The answer is this refusal. -/
def refusedAs (r : Res) (x : Refusal) : Bool :=
  match r with
  | .refused y => decide (y = x)
  | _ => false

/-- The answer is the fault. -/
def faulted (r : Res) : Bool :=
  match r with
  | .fault _ => true
  | _ => false

/-- The last result returned. -/
def lastResult (s : State) : Option Result := s.results.getLast?

/-- The state after reset with auto-increment set, as after LCD_INIT (T50). -/
def base : State := { State.reset with lcd := { State.reset.lcd with entryInc := true } }

/-- With a module schedule. -/
def sched (k : LcdSched) (s : State) : State := { s with env := { s.env with lcd := k } }

/-- With an event n boundaries on. -/
def after (n : Nat) (e : Event) (s : State) : State :=
  { s with env := { s.env with script := List.replicate n [] ++ [[e]] } }

/-- Edits of one part of a state. -/
def lcd (f : Lcd → Lcd) (s : State) : State := { s with lcd := f s.lcd }
def bus (f : Bus → Bus) (s : State) : State := { s with bus := f s.bus }
def ee (f : Eeprom → Eeprom) (s : State) : State := bus (fun b => { b with ee := f b.ee }) s
def iox (f : Expander → Expander) (s : State) : State := bus (fun b => { b with iox := f b.iox }) s
def irq (f : Irq → Irq) (s : State) : State := { s with irq := f s.irq }
def cfg (f : Params → Params) (s : State) : State := { s with cfg := f s.cfg }
def clk (raw ms sec min : Nat) (s : State) : State := { s with clk := { raw := raw, ms := ms, sec := sec, min := min } }
def port (v : Byte) (s : State) : State := bus (fun b => { b with iox := { b.iox with port := v } }) s

/-- The module busy. -/
def busy (s : State) : State := lcd (fun l => { l with bf := true }) s

/-- Neither reference slave on the bus. -/
def bare (s : State) : State := cfg (fun p => { p with eePresent := false, ioxPresent := false }) s

/-! ## Well-formedness: an ill-formed term for each check -/

theorem test_wf_write_page : (Instr.eeWrite 8#8 0#8 0#8).wellFormed = false := by decide
theorem test_wf_read_page : (Instr.eeRead 8#8 0#8).wellFormed = false := by decide
theorem test_wf_slot : (Instr.lcdGlyph 8#8 #v[0, 0, 0, 0, 0, 0, 0, 0]).wellFormed = false := by decide
theorem test_wf_text_length : (Instr.lcdPuts (List.replicate 256 0#8)).wellFormed = false := by decide +kernel
theorem test_wf_boundaries_pass :
    ((Instr.eeWrite 7#8 255#8 255#8).wellFormed && (Instr.lcdPuts (List.replicate 255 0#8)).wellFormed) = true := by decide +kernel
theorem test_params_reference : Config.reference.legal = true := by decide
theorem test_params_command_range : Params.legal { Config.reference with cmdHome := 0x40#8 } = false := by decide
theorem test_params_wake_apart : Params.legal { Config.reference with cmdFsWake := 0x01#8 } = false := by decide
theorem test_params_final_apart : Params.legal { Config.reference with cmdFsFinal := 0x08#8 } = false := by decide
theorem test_params_expander_equal : Params.legal { Config.reference with ioxAddrR := 0x40#8 } = false := by decide
theorem test_params_expander_write_in_eeprom_range :
    Params.legal { Config.reference with ioxAddrW := 0xA0#8 } = false := by decide
theorem test_params_expander_read_in_eeprom_range :
    Params.legal { Config.reference with ioxAddrR := 0xAF#8 } = false := by decide
theorem test_params_clock_column : Params.legal { Config.reference with clkCol := 10 } = false := by decide
theorem test_params_edge_text_missing :
    Params.legal { Config.reference with edgeFmt := Config.reference.edgeFmt.tail } = false := by decide
theorem test_params_edge_text_empty :
    Params.legal { Config.reference with edgeFmt := [] :: Config.reference.edgeFmt.tail } = false := by decide
theorem test_params_clock_read_order :
    Params.legal { Config.reference with clkReadOrder := [.ms, .ms, .sec] } = false := by decide
theorem test_params_wake_may_equal_final :
    Params.legal { Config.reference with cmdFsWake := 0x38#8 } = true := by decide

/-! ## Decoding: every constructor, from a word written out (R81, R82, R89 to R94, R97) -/

theorem test_decode_busStart : decode [0b00000000#8] = .request .busStart [] := by decide
theorem test_decode_busStop : decode [0b00000001#8] = .request .busStop [] := by decide
theorem test_decode_busSend : decode [0b00000010#8, 0b10100110#8] = .request (.busSend 0xA6#8) [] := by decide
theorem test_decode_busRecv : decode [0b00000011#8] = .request .busRecv [] := by decide
theorem test_decode_busNoack : decode [0b00000100#8] = .request .busNoack [] := by decide
theorem test_decode_eeWrite :
    decode [0b00010000#8, 0b00000011#8, 0b00010000#8, 0b01011010#8] = .request (.eeWrite 3#8 0x10#8 0x5A#8) [] := by decide
theorem test_decode_eeRead :
    decode [0b00010001#8, 0b00000111#8, 0b11111111#8] = .request (.eeRead 7#8 0xFF#8) [] := by decide
theorem test_decode_ioxCfg : decode [0b00011000#8, 0b11110000#8] = .request (.ioxCfg 0xF0#8) [] := by decide
theorem test_decode_ioxRead : decode [0b00011001#8] = .request .ioxRead [] := by decide
theorem test_decode_lcdCmdwr : decode [0b00100000#8, 0b11000101#8] = .request (.lcdCmdwr 0xC5#8) [] := by decide
theorem test_decode_lcdDatawr : decode [0b00100001#8, 0b01000001#8] = .request (.lcdDatawr 0x41#8) [] := by decide
theorem test_decode_lcdStatrd : decode [0b00100010#8] = .request .lcdStatrd [] := by decide
theorem test_decode_lcdWait : decode [0b00100011#8] = .request .lcdWait [] := by decide
theorem test_decode_lcdInit : decode [0b00101000#8] = .request .lcdInit [] := by decide
theorem test_decode_lcdGoto :
    decode [0b00101001#8, 0b00000010#8, 0b00000111#8] = .request (.lcdGoto 2#8 7#8) [] := by decide
theorem test_decode_lcdPutc : decode [0b00101010#8, 0b01000001#8] = .request (.lcdPutc 0x41#8) [] := by decide
theorem test_decode_lcdPuts :
    decode [0b00101011#8, 0b00000010#8, 0b01000001#8, 0b01000010#8] = .request (.lcdPuts [0x41#8, 0x42#8]) [] := by decide
theorem test_decode_lcdGlyph :
    decode [0b00101100#8, 0b00000010#8, 0b00000100#8, 0b00001110#8, 0b00011111#8, 0b00000100#8, 0b00000100#8, 0b00000100#8, 0b00000100#8, 0b00000000#8] = .request (.lcdGlyph 2#8 #v[4, 14, 31, 4, 4, 4, 4, 0]) [] := by decide
theorem test_decode_clkStart : decode [0b00110000#8] = .request .clkStart [] := by decide
theorem test_decode_clkStop : decode [0b00110001#8] = .request .clkStop [] := by decide
theorem test_decode_clkReset : decode [0b00110010#8] = .request .clkReset [] := by decide
theorem test_decode_clkRead : decode [0b00110011#8] = .request .clkRead [] := by decide
theorem test_decode_edgeRead : decode [0b00111000#8] = .request .edgeRead [] := by decide
theorem test_decode_edgeReset : decode [0b00111001#8] = .request .edgeReset [] := by decide
theorem test_decode_timerIsr : decodeAs Config.reference .event 0b11110000#8 = some .timerIsr := by decide
theorem test_decode_edgeIsr : decodeAs Config.reference .event 0b11110001#8 = some .edgeIsr := by decide
theorem test_decode_clkResume : decodeAs Config.reference .pseudo 0b00110000#8 = some .clkResume := by decide
theorem test_decode_eeCtrlByte :
    decodeAs Config.reference .wireBus 0b10100111#8 = some (.eeCtrlByte 3#3 true) := by decide
theorem test_decode_ioxAddrW : decodeAs Config.reference .wireBus 0b01000000#8 = some .ioxAddrW := by decide
theorem test_decode_ioxAddrR : decodeAs Config.reference .wireBus 0b01000001#8 = some .ioxAddrR := by decide
theorem test_decode_lcdMode :
    decodeAs Config.reference .windowLatch 0b00000010#8 = some (.lcdMode true false) := by decide
theorem test_decode_setDdramAddr :
    decodeAs Config.reference .lcdCmd 0b11000101#8 = some (.setDdramAddr 0x45#7) := by decide
theorem test_decode_setCgramAddr :
    decodeAs Config.reference .lcdCmd 0b01010011#8 = some (.setCgramAddr 2#3 3#3) := by decide
theorem test_decode_cmdFsWake : decodeAs Config.reference .lcdCmd 0b00110000#8 = some .cmdFsWake := by decide
theorem test_decode_cmdFsFinal : decodeAs Config.reference .lcdCmd 0b00111000#8 = some .cmdFsFinal := by decide
theorem test_decode_cmdDisplayOff : decodeAs Config.reference .lcdCmd 0b00001000#8 = some .cmdDisplayOff := by decide
theorem test_decode_cmdClear : decodeAs Config.reference .lcdCmd 0b00000001#8 = some .cmdClear := by decide
theorem test_decode_cmdEntryInc : decodeAs Config.reference .lcdCmd 0b00000110#8 = some .cmdEntryInc := by decide
theorem test_decode_cmdHome : decodeAs Config.reference .lcdCmd 0b00000010#8 = some .cmdHome := by decide
theorem test_decode_lcdStatus : decodeAs Config.reference .lcdRead 0b10010000#8 = some .lcdStatus := by decide
theorem test_decode_lcdDataDd :
    decodeAs Config.reference .lcdDataDd 0b01000001#8 = some (.lcdDataDd 0x41#8) := by decide
theorem test_decode_lcdDataCg :
    decodeAs Config.reference .lcdDataCg 0b11101110#8 = some (.lcdDataCg 7#3 14#5) := by decide
theorem test_decode_clkRestart : decodeTableWord 16 0b0011001000110000 = some .clkRestart := by decide +kernel
theorem test_decode_reserved :
    [0x05#8, 0x12#8, 0x1A#8, 0x24#8, 0x2D#8, 0x34#8, 0x3A#8, 0xF0#8, 0xF1#8, 0xFF#8].all
      (fun b => decide (decode [b] = .invalid b)) = true := by decide +kernel
theorem test_decode_truncated : decode [0x2C#8, 2#8, 4#8] = .truncated 0x2C#8 := by decide
theorem test_decode_unlisted_command : decodeAs Config.reference .lcdCmd 0x05#8 = none := by decide

/-! ## One step each (95_test_vectors.md) -/

/-- T10: from (1, 0) the exit is (0, 0). -/
theorem test_busStart :
    got (exec .busStart (bus (fun b => { b with sclOut := true }) base)) (fun t =>
      !t.bus.sclOut && !t.bus.sdaOut) = true := by
  decide +kernel
/-- T11: from (0, 0) the exit is (1, 1). -/
theorem test_busStop :
    got (exec .busStop base) (fun t =>
      t.bus.sclOut && t.bus.sdaOut) = true := by
  decide +kernel
/-- T12: nobody answers: result 1, exit (0, 1). -/
theorem test_busSend_absent :
    got (exec (.busSend 0xA6#8) (bare base)) (fun t =>
      t.bus.ack && t.bus.sdaOut && !t.bus.sclOut && decide (lastResult t = some (.ack true))) = true := by
  decide +kernel
/-- T13: the EEPROM takes page 3 and expects an offset byte. -/
theorem test_busSend_answered :
    got (exec (.busSend 0xA6#8) (ee (fun e => { e with slave := slaveStart true }) base)) (fun t =>
      !t.bus.ack && decide (t.bus.ee.page = 3#3) && decide (t.bus.ee.slave.phase = .second)) = true := by
  decide +kernel
/-- T15: the EEPROM sends 0x5A. -/
theorem test_busRecv_sent :
    got (exec .busRecv (ee (fun e => { e with slave := Slave.sending 0x5A#8 }) (bus (fun b => { b with sdaOut := true }) base))) (fun t =>
      decide (lastResult t = some (.byte 0x5A#8)) && t.bus.sdaOut && !t.bus.sclOut) = true := by
  decide +kernel
/-- T17: the master holds the wire low: 0x00. -/
theorem test_busRecv_held :
    got (exec .busRecv base) (fun t =>
      decide (lastResult t = some (.byte 0x00#8))) = true := by
  decide +kernel
/-- T18: exit (0, 1), ACK unchanged. -/
theorem test_busNoack :
    got (exec .busNoack base) (fun t =>
      !t.bus.sclOut && t.bus.sdaOut && !t.bus.ack) = true := by
  decide +kernel
/-- T20. -/
theorem test_eeWrite :
    got (exec (.eeWrite 3#8 0x10#8 0x5A#8) base) (fun t =>
      decide (lastResult t = some (.ack false)) && decide (readEeprom t 0x310 = 0x5A#8) && decide (t.bus.ee.ptr = 0x10#8)) = true := by
  decide +kernel
/-- T21. -/
theorem test_eeWrite_absent :
    got (exec (.eeWrite 3#8 0x10#8 0x5A#8) (bare base)) (fun t =>
      decide (lastResult t = some (.ack true)) && t.bus.ack && t.bus.sclOut && t.bus.sdaOut) = true := by
  decide +kernel
/-- T24: page 7, offset 255. -/
theorem test_eeRead :
    got (exec (.eeRead 7#8 0xFF#8) (ee (fun e => { e with mem := [(0x7FE, 1#8), (0x7FF, 0xFF#8)] }) base)) (fun t =>
      decide (lastResult t = some (.ackData false 0xFF#8)) && t.bus.sclOut) = true := by
  decide +kernel
/-- T30. -/
theorem test_ioxCfg :
    got (exec (.ioxCfg 0xF0#8) base) (fun t =>
      decide (t.bus.iox.port = 0xF0#8) && decide (lastResult t = some (.ack false)) && t.bus.sdaOut) = true := by
  decide +kernel
/-- T31. -/
theorem test_ioxRead :
    got (exec .ioxRead (port 0xF0#8 base)) (fun t =>
      decide (lastResult t = some (.byte 0xF0#8)) && !t.bus.ack) = true := by
  decide +kernel
/-- T40. -/
theorem test_lcdCmdwr :
    got (exec (.lcdCmdwr 0xC5#8) base) (fun t =>
      decide (t.lcd.ac = 0x45#7) && decide (t.lcd.ramsel = .dd) && t.lcd.bf && decide (t.lcd.mode = 0#2)) = true := by
  decide +kernel
/-- T41. -/
theorem test_lcdDatawr :
    got (exec (.lcdDatawr 0x41#8) (lcd (fun l => { l with ac := 0x45#7 }) base)) (fun t =>
      decide (readDdram t 0x45 = 0x41#8) && decide (t.lcd.ac = 0x46#7) && t.lcd.bf && decide (t.lcd.mode = 2#2)) = true := by
  decide +kernel
/-- T42: busy, AC = 0x46. -/
theorem test_lcdStatrd :
    got (exec .lcdStatrd (sched .scripted (busy (lcd (fun l => { l with ac := 0x46#7 }) base)))) (fun t =>
      decide (lastResult t = some (.byte 0xC6#8)) && t.lcd.bf && decide (t.lcd.mode = 1#2)) = true := by
  decide +kernel
/-- T43: LCDDEV clears BF after the first read. -/
theorem test_lcdWait :
    got (exec .lcdWait (after 2 .lcdReady (sched .scripted (busy (lcd (fun l => { l with ac := 0x10#7 }) base))))) (fun t =>
      decide (lastResult t = some (.byte 0x10#8)) && decide (t.env.script = [])) = true := by
  decide +kernel
/-- T50. -/
theorem test_lcdInit :
    got (exec .lcdInit (lcd (fun l => { l with ddram := [(0x5F, 1#8)], ac := 9#7, entryInc := false }) base)) (fun t =>
      decide (t.lcd.ac = 0#7) && t.lcd.entryInc && !t.lcd.displayOn && decide (t.lcd.func = 0x38#8) && decide (t.lcd.ddram = [])) = true := by
  decide +kernel
/-- T51. -/
theorem test_lcdGoto :
    got (exec (.lcdGoto 2#8 7#8) base) (fun t =>
      decide (t.lcd.ac = 0x17#7) && decide (lastResult t = some (.applied true))) = true := by
  decide +kernel
/-- T52. -/
theorem test_lcdGoto_out :
    got (exec (.lcdGoto 3#8 16#8) (lcd (fun l => { l with ac := 0x17#7 }) base)) (fun t =>
      decide (t.lcd.ac = 0x17#7) && decide (t.lcd.mode = 0#2) && decide (lastResult t = some (.applied false))) = true := by
  decide +kernel
/-- T53: past a window no cell changes and AC advances. -/
theorem test_lcdPutc :
    got (exec (.lcdPutc 0x42#8) (lcd (fun l => { l with ac := 0x20#7 }) base)) (fun t =>
      decide (t.lcd.ddram = []) && decide (t.lcd.ac = 0x21#7)) = true := by
  decide +kernel
/-- T58: after LCD_GLYPH 7 a character lands in slot 0, row 0. -/
theorem test_lcdPutc_cgram :
    got (exec (.lcdPutc 0xAA#8) (lcd (fun l => { l with ramsel := .cg }) base)) (fun t =>
      decide (t.lcd.cgram = [(0, 0x0A#8)]) && decide (t.lcd.ac = 1#7)) = true := by
  decide +kernel
/-- T54: across a row end. -/
theorem test_lcdPuts :
    got (exec (.lcdPuts [0x41#8, 0x42#8, 0x43#8]) (lcd (fun l => { l with ac := 0x4E#7 }) base)) (fun t =>
      decide (t.lcd.ddram = [(0x10, 0x43#8), (0x4E, 0x41#8), (0x4F, 0x42#8)]) && decide (t.lcd.ac = 0x11#7)) = true := by
  decide +kernel
/-- T54: the eager policy re-addresses after the last character. -/
theorem test_lcdPuts_policy :
    got (exec (.lcdPuts [0x58#8]) (cfg (fun p => { p with putsWrap := .eager }) (lcd (fun l => { l with ac := 0x0F#7 }) base))) (fun t =>
      decide (t.lcd.ddram = [(0x0F, 0x58#8)]) && decide (t.lcd.ac = 0x40#7)) = true := by
  decide +kernel
/-- T58: slot 7, five bits kept, AC[5:0] wraps. -/
theorem test_lcdGlyph :
    got (exec (.lcdGlyph 7#8 #v[0xFF, 0xE0, 0x1F, 0x20, 0x15, 0x0A, 0x80, 0x3F]) base) (fun t =>
      decide (t.lcd.cgram =
      [(56, 0x1F#8), (58, 0x1F#8), (60, 0x15#8), (61, 0x0A#8), (63, 0x1F#8)]) && decide (t.lcd.ac.extractLsb 5 0 = 0#6)) = true := by
  decide +kernel
/-- R191. -/
theorem test_clkStart :
    got (exec .clkStart base) (fun t =>
      t.irq.tmrIe && t.irq.tmrRun) = true := by
  decide +kernel
/-- T64: the run bit stays, the counters freeze. -/
theorem test_clkStop :
    got (exec .clkStop (clk 4 3 0 0 (irq (fun q => { q with tmrIe := true, tmrRun := true }) base))) (fun t =>
      !t.irq.tmrIe && t.irq.tmrRun && decide (t.clk.raw = 4)) = true := by
  decide +kernel
/-- T63. -/
theorem test_clkReset :
    got (exec .clkReset (clk 4 3 2 1 base)) (fun t =>
      decide (t.clk = Clock.zero) && decide (t.lcd.ddram = [(0x50, 0x30#8), (0x51, 0x30#8), (0x52, 0x3A#8), (0x53, 0x30#8),
      (0x54, 0x30#8), (0x55, 0x3A#8), (0x56, 0x30#8)])) = true := by
  decide +kernel
/-- R195: 01:15:3. -/
theorem test_clkRead :
    got (exec .clkRead (clk 7 3 15 1 base)) (fun t =>
      decide (lastResult t = some (.time 1 15 3))) = true := by
  decide +kernel
/-- R201. -/
theorem test_edgeRead :
    got (exec .edgeRead ({ base with cnt := 3#4 })) (fun t =>
      decide (lastResult t = some (.count 3#4))) = true := by
  decide +kernel
/-- T73: the expander keeps the old count. -/
theorem test_edgeReset :
    got (exec .edgeReset (port 0x59#8 { base with cnt := 9#4 })) (fun t =>
      decide (t.cnt = 0#4) && decide (t.bus.iox.port = 0x59#8)) = true := by
  decide +kernel
/-- T61. -/
theorem test_timerIsr :
    got (exec .timerIsr (clk 10 9 59 7 (lcd (fun l => { l with mode := 2#2, ac := 5#7 }) base))) (fun t =>
      decide (t.clk.min = 8) && decide (t.lcd.mode = 2#2) && decide (t.lcd.ac = 5#7) && t.irq.tmrRun &&
      decide (t.lcd.ddram = [(0x50, 0x30#8), (0x51, 0x38#8), (0x53, 0x30#8), (0x54, 0x30#8), (0x56, 0x30#8)])) = true := by
  decide +kernel
/-- T71. -/
theorem test_edgeIsr :
    got (exec .edgeIsr (port 0xA7#8 { base with cnt := 15#4 })) (fun t =>
      decide (t.cnt = 0#4) && decide (t.bus.iox.port = 0xA0#8) && decide (t.lcd.ddram = [(0x0F, 0x30#8)]) && decide (t.lcd.ac = 0#7)) = true := by
  decide +kernel
/-- T71, not guarded. -/
theorem test_edgeIsr_unguarded :
    got (exec .edgeIsr (cfg (fun p => { p with edgeRenderGuarded := false }) (port 0xA7#8 { base with cnt := 15#4 }))) (fun t =>
      decide (t.lcd.mode = 2#2) && decide (t.lcd.ac = 0x10#7)) = true := by
  decide +kernel
/-- R97. -/
theorem test_clkResume :
    got (exec .clkResume base) (fun t =>
      t.irq.tmrIe && t.irq.tmrRun) = true := by
  decide +kernel
/-- R194. -/
theorem test_clkRestart :
    got (exec .clkRestart (clk 4 3 2 1 base)) (fun t =>
      decide (t.clk = Clock.zero) && t.irq.tmrIe && t.irq.tmrRun) = true := by
  decide +kernel
/-- T13: 0xA6. -/
theorem test_eeCtrlByte :
    got (exec (.eeCtrlByte 3#3 false) base) (fun t =>
      !t.bus.ack && decide (t.bus.ee.page = 3#3)) = true := by
  decide +kernel
/-- R68. -/
theorem test_ioxAddrW :
    got (exec .ioxAddrW base) (fun t =>
      !t.bus.ack && decide (t.bus.iox.slave.phase = .second)) = true := by
  decide +kernel
/-- R68: the port is driven, bit 7 first. -/
theorem test_ioxAddrR :
    got (exec .ioxAddrR (port 0x7F#8 base)) (fun t =>
      !t.bus.ack && decide (t.bus.iox.slave = Slave.sending 0x7F#8)) = true := by
  decide +kernel
/-- R25. -/
theorem test_lcdMode :
    got (exec (.lcdMode true false) base) (fun t =>
      decide (t.lcd.mode = 0b10#2)) = true := by
  decide +kernel
/-- R92. -/
theorem test_setDdramAddr :
    got (exec (.setDdramAddr 0x45#7) (lcd (fun l => { l with ramsel := .cg }) base)) (fun t =>
      decide (t.lcd.ac = 0x45#7) && decide (t.lcd.ramsel = .dd)) = true := by
  decide +kernel
/-- R92: 0x50 is slot 2, row 0. -/
theorem test_setCgramAddr :
    got (exec (.setCgramAddr 2#3 0#3) base) (fun t =>
      decide (t.lcd.ac.extractLsb 5 0 = 16#6) && decide (t.lcd.ramsel = .cg)) = true := by
  decide +kernel
/-- R62: accepted busy. -/
theorem test_cmdFsWake :
    got (exec .cmdFsWake (sched .scripted (busy base))) (fun t =>
      decide (t.lcd.func = 0x30#8) && t.lcd.bf) = true := by
  decide +kernel
/-- R60. -/
theorem test_cmdFsFinal :
    got (exec .cmdFsFinal base) (fun t =>
      decide (t.lcd.func = 0x38#8)) = true := by
  decide +kernel
/-- R60. -/
theorem test_cmdDisplayOff :
    got (exec .cmdDisplayOff (lcd (fun l => { l with displayOn := true }) base)) (fun t =>
      !t.lcd.displayOn) = true := by
  decide +kernel
/-- R60. -/
theorem test_cmdClear :
    got (exec .cmdClear (lcd (fun l => { l with ac := 9#7, ramsel := .cg, ddram := [(0x1F, 1#8)] }) base)) (fun t =>
      decide (t.lcd.ac = 0#7) && decide (t.lcd.ramsel = .dd) && decide (t.lcd.ddram = [])) = true := by
  decide +kernel
/-- R60. -/
theorem test_cmdEntryInc :
    got (exec .cmdEntryInc State.reset) (fun t =>
      t.lcd.entryInc) = true := by
  decide +kernel
/-- R60. -/
theorem test_cmdHome :
    got (exec .cmdHome (lcd (fun l => { l with ac := 9#7, ramsel := .cg }) base)) (fun t =>
      decide (t.lcd.ac = 0#7) && decide (t.lcd.ramsel = .dd)) = true := by
  decide +kernel
/-- R93. -/
theorem test_lcdStatus :
    got (exec .lcdStatus (lcd (fun l => { l with ac := 0x10#7 }) base)) (fun t =>
      decide (lastResult t = some (.byte 0x10#8))) = true := by
  decide +kernel
/-- R57. -/
theorem test_lcdDataDd :
    got (exec (.lcdDataDd 0x41#8) base) (fun t =>
      decide (t.lcd.ddram = [(0, 0x41#8)]) && decide (t.lcd.ac = 1#7)) = true := by
  decide +kernel
/-- R57: the top three bits are ignored. -/
theorem test_lcdDataCg :
    got (exec (.lcdDataCg 7#3 14#5) (lcd (fun l => { l with ramsel := .cg, ac := 63#7 }) base)) (fun t =>
      decide (t.lcd.cgram = [(63, 14#8)]) && decide (t.lcd.ac = 0#7)) = true := by
  decide +kernel

/-! ## Stops, and the hazards of interleaving (T44, T59, T80 to T85) -/

/-- T43: LCDDEV never steps: after 40 micro-steps LCD_WAIT is still in its loop. -/
theorem test_wait_goes_on :
    got (thenDo (begin .lcdWait (waitCode ++ [.ctl (.ret .status)]) (sched .scripted (busy base))) (drive 40))
      (fun t => !t.resting && decide (t.results = []) && decide (t.fg.op = some .lcdWait)) = true := by
  decide +kernel
/-- T44. -/
theorem test_busy_write_faults :
    faulted (exec (.lcdDatawr 0x41#8) (sched .scripted (busy base))) = true := by
  decide +kernel
/-- T44. -/
theorem test_unlisted_command_refused :
    refusedAs (exec (.lcdCmdwr 0x05#8) base) (.unlistedCommand 0x05#8) = true := by
  decide +kernel
/-- T24. -/
theorem test_page_refused :
    refusedAs (exec (.eeWrite 8#8 0#8 0#8) base) .operandOutsideDomain = true := by
  decide +kernel
/-- T59. -/
theorem test_puts_refused :
    refusedAs (exec (.lcdPuts [0x41#8]) (lcd (fun l => { l with ac := 0x20#7 }) base)) (.putsOutsideWindows 0x20#7) = true := by
  decide +kernel
/-- T80, L-eager, after step 2: as if not interrupted. -/
theorem test_interrupt_inside_putc :
    got (exec (.lcdPutc 0x41#8) (after 2 .timerOverflow (clk 10 0 0 0
      (irq (fun q => { q with tmrIe := true, tmrRun := true }) (lcd (fun l => { l with ac := 5#7 }) base)))))
      (fun t => decide (t.lcd.ddram = [(0x05, 0x41#8), (0x56, 0x31#8)]) && decide (t.lcd.ac = 6#7) && decide (t.clk.ms = 1)) = true := by
  decide +kernel
/-- T80, L-onread, after step 3: the write meets BF = 1. -/
theorem test_guard_leaves_busy :
    faulted (exec (.lcdPutc 0x41#8) (sched .onRead (after 3 .timerOverflow (clk 10 0 0 0
      (irq (fun q => { q with tmrIe := true, tmrRun := true }) base))))) = true := by
  decide +kernel
/-- T81: FG reports 1 and the cell is unchanged. -/
theorem test_edge_breaks_transaction :
    got (exec (.eeWrite 3#8 0x10#8 0x5A#8) (after 40 .fallingEdge (port 0x50#8 (ee (fun e => { e with mem := [(0x310, 0x77#8)] })
      (bus (fun b => { b with sclOut := true, sdaOut := true }) { base with cnt := 4#4 })))))
      (fun t => decide (lastResult t = some (.ack true)) && decide (readEeprom t 0x310 = 0x77#8) &&
        decide (t.bus.iox.port = 0x55#8) && t.bus.ack && decide (t.cnt = 5#4)) = true := by
  decide +kernel
/-- T84: the handler is clocked into the EEPROM as a second data byte. -/
theorem test_second_data_byte_refused :
    refusedAs (exec (.eeWrite 3#8 0x10#8 0x5A#8) (after 87 .fallingEdge (port 0x50#8
      (bus (fun b => { b with sclOut := true, sdaOut := true }) { base with cnt := 4#4 })))) .eepromBeyondShape = true := by
  decide +kernel
/-- T83: the restore selects DDRAM; rows 3 to 7 go to row 2 of the display. -/
theorem test_glyph_loses_ramsel :
    got (exec (.lcdGlyph 2#8 #v[4, 14, 31, 4, 4, 4, 4, 0]) (after 16 .timerOverflow (clk 10 0 0 0
      (irq (fun q => { q with tmrIe := true, tmrRun := true }) base))))
      (fun t => decide (t.lcd.cgram = [(16, 4#8), (17, 14#8), (18, 31#8)]) && decide (t.lcd.ac = 0x18#7) &&
        decide (t.lcd.ramsel = .dd) && decide (readDdram t 0x13 = 4#8) && decide (readDdram t 0x17 = 0#8)) = true := by
  decide +kernel
/-- R228: a takeable request comes before the next request. -/
theorem test_step_takes_pending_edge_first :
    got (step (irq (fun q => { q with edgePend := true }) { base with reqs := [0x38#8] }))
      (fun t => decide (t.cnt = 1#4) && decide (t.reqs = [0x38#8]) && decide (t.results = [])) = true := by
  decide +kernel
/-- R29, R85. -/
theorem test_step_runs_request :
    got (step { base with reqs := [0x38#8, 0x39#8] })
      (fun t => decide (t.reqs = [0x39#8]) && decide (t.results = [.count 0#4])) = true := by
  decide +kernel
/-- R224, R228: an overflow at this boundary is pending, and taken, before the next request. -/
theorem test_step_overflow_at_rest :
    got (step (after 0 .timerOverflow (irq (fun q => { q with tmrIe := true, tmrRun := true }) { base with reqs := [0x38#8] })))
      (fun t => decide (t.clk.raw = 1) && decide (t.reqs = [0x38#8]) && !t.irq.tmrPend && t.irq.tmrRun) = true := by
  decide +kernel
/-- R82: FG cannot issue a handler: the verdict of its code. -/
theorem test_step_handler_handed_over :
    refusedAs (step { base with direct := some .edgeIsr }) (.reservedOpcode 0xF1#8) = true := by
  decide +kernel
/-- R69, R117: the ninth clock ends the byte the expander sent. -/
theorem test_noack_ninth_clock :
    got (exec .busNoack (bus (fun b => { b with iox := { b.iox with slave := { Slave.unaddressed with phase := .sendAck } } }) base))
      (fun t => decide (t.bus.iox.slave.phase = .sent)) = true := by
  decide +kernel
/-- The word of IOX_CFG 0xF0, its first byte in bits 7..0, run as the first operation after reset. -/
theorem test_placed_word_runs :
    got (step (State.reset.withFetchWord 16 0xF018)) (fun t => decide (t.bus.iox.port = 0xF0#8)) = true := by
  decide +kernel

/-! ## Witnesses: states and operands that meet the hypotheses of the statements -/

/-- A write pending in the EEPROM: control byte, offset and data byte acknowledged, the clock low (R66). -/
def pending : State :=
  ee (fun e => { e with slave := Slave.listening .extra 0x5A#8, pend := some 0x5A#8, page := 7#3, ptr := 0xFF#8 }) base

/-- The EEPROM in its write cycle. -/
def writing : State := ee (fun e => { e with wbusy := true }) base

/-- The master's lines. -/
def lines (scl sda : Bool) (s : State) : State := bus (fun b => { b with sclOut := scl, sdaOut := sda }) s

/-- The expander after IOX_ADDR_R with port bit 7 = 0: it holds the wire low (R69, T84). -/
def driving : State := iox (fun x => { x with slave := Slave.sending 0x7F#8 }) base

/-- The EEPROM acknowledges its write control byte. -/
def acking : State := ee (fun e => { e with slave := { phase := .second, bits := 0, sh := 0xA0#8, acking := true, drive := false } }) base

/-- FG inside an operation. -/
def midway (s : State) : State := { s with fg := { op := some .edgeReset, rest := [.prim .zeroCnt], tr := Transients.none } }

/-- The timer enabled and running, no request pending. -/
def running : State := irq (fun q => { q with tmrIe := true, tmrRun := true }) base

/-- A further slave answers with the byte 0xA6, then with an acknowledgment. -/
def answering : State :=
  bus (fun b => { b with extDrive := true, extScript := [false, true, false, false, true, true, false, false] }) base

/-- The timer enabled and running, its request pending. -/
def ticked (s : State) : State := irq (fun q => { q with tmrIe := true, tmrRun := true, tmrPend := true }) s

/-- An edge request pending. -/
def edged (s : State) : State := irq (fun q => { q with edgePend := true }) s

theorem witness_BusStartLowersBothLines_free :
    State.calm base = true ∧ slvSda (State.bus base) = true ∧ (State.bus base).ee.pend = none := by
  decide +kernel
theorem witness_BusStartLowersBothLines_pending :
    State.calm pending = true ∧ slvSda (State.bus pending) = true ∧ (State.bus pending).ee.pend = some 0x5A#8 ∧
      (State.bus pending).sclOut = false := by
  decide +kernel
theorem witness_BusStartLowersBothLines_pending_stop :
    State.calm (lines true false pending) = true ∧ slvSda (State.bus (lines true false pending)) = true ∧
      (State.bus (lines true false pending)).ee.pend = some 0x5A#8 ∧
      (State.bus (lines true false pending)).sclOut = true ∧ (State.bus (lines true false pending)).sdaOut = false := by
  decide +kernel
theorem witness_BusStartLowersBothLines_pending_idle :
    State.calm (lines true true pending) = true ∧ slvSda (State.bus (lines true true pending)) = true ∧
      (State.bus (lines true true pending)).ee.pend = some 0x5A#8 ∧
      (State.bus (lines true true pending)).sclOut = true ∧ (State.bus (lines true true pending)).sdaOut = true := by
  decide +kernel
theorem witness_BusStartLowersBothLines_held :
    State.calm (bus (fun b => { b with extDrive := false }) base) = true ∧
      slvSda (State.bus (bus (fun b => { b with extDrive := false }) base)) = false ∧
      (State.bus (bus (fun b => { b with extDrive := false }) base)).ee.slave.notReceiving = true ∧
      (State.bus (bus (fun b => { b with extDrive := false }) base)).iox.slave.notReceiving = true ∧
      ((State.bus (bus (fun b => { b with extDrive := false }) base)).sclOut = true → (State.bus (bus (fun b => { b with extDrive := false }) base)).ee.slave.phase = .send → (State.bus (bus (fun b => { b with extDrive := false }) base)).ee.slave.acking = true) ∧
      ((State.bus (bus (fun b => { b with extDrive := false }) base)).sclOut = true → (State.bus (bus (fun b => { b with extDrive := false }) base)).iox.slave.phase = .send → (State.bus (bus (fun b => { b with extDrive := false }) base)).iox.slave.acking = true) := by
  decide +kernel
theorem witness_BusStartLowersBothLines_held_sending :
    State.calm driving = true ∧ slvSda (State.bus driving) = false ∧
      (State.bus driving).ee.slave.notReceiving = true ∧ (State.bus driving).iox.slave.notReceiving = true ∧
      ((State.bus driving).sclOut = true → (State.bus driving).ee.slave.phase = .send → (State.bus driving).ee.slave.acking = true) ∧
      ((State.bus driving).sclOut = true → (State.bus driving).iox.slave.phase = .send → (State.bus driving).iox.slave.acking = true) := by
  decide +kernel
theorem witness_BusStartLowersBothLines_held_acking :
    State.calm (lines true false acking) = true ∧ slvSda (State.bus (lines true false acking)) = false ∧
      (State.bus (lines true false acking)).ee.slave.notReceiving = true ∧
      (State.bus (lines true false acking)).iox.slave.notReceiving = true ∧
      ((State.bus (lines true false acking)).sclOut = true → (State.bus (lines true false acking)).ee.slave.phase = .send → (State.bus (lines true false acking)).ee.slave.acking = true) ∧
      ((State.bus (lines true false acking)).sclOut = true → (State.bus (lines true false acking)).iox.slave.phase = .send → (State.bus (lines true false acking)).iox.slave.acking = true) := by
  decide +kernel
theorem witness_BusStopEndsTransaction_free :
    State.calm base = true ∧ slvSda (State.bus base) = true ∧ (State.bus base).ee.pend = none := by
  decide +kernel
theorem witness_BusStopEndsTransaction_pending :
    State.calm pending = true ∧ slvSda (State.bus pending) = true ∧ (State.bus pending).ee.pend = some 0x5A#8 ∧
      (State.bus pending).sclOut = false ∧ (State.bus pending).ee.memoryWf = true := by
  decide +kernel
theorem witness_BusStopEndsTransaction_idle :
    State.calm (lines true true pending) = true ∧ slvSda (State.bus (lines true true pending)) = true ∧
      (State.bus (lines true true pending)).ee.pend = some 0x5A#8 ∧
      (State.bus (lines true true pending)).sclOut = true ∧ (State.bus (lines true true pending)).sdaOut = true := by
  decide +kernel
theorem witness_BusStopEndsTransaction_held :
    State.calm driving = true ∧ slvSda (State.bus driving) = false := by
  decide +kernel
theorem witness_BusSendReturnsNinthBit_answered :
    State.calm (bus (fun b => { b with extScript := [true, true, true, true, true, true, true, false] }) base) = true ∧
      (State.bus (bus (fun b => { b with extScript := [true, true, true, true, true, true, true, false] }) base)).sclOut = false ∧
      (State.bus (bus (fun b => { b with extScript := [true, true, true, true, true, true, true, false] }) base)).ee.slave = Slave.unaddressed ∧
      (State.bus (bus (fun b => { b with extScript := [true, true, true, true, true, true, true, false] }) base)).iox.slave = Slave.unaddressed ∧
      (State.cfg (bus (fun b => { b with extScript := [true, true, true, true, true, true, true, false] }) base)).busOpenDrain = true ∧
      (State.bus (bus (fun b => { b with extScript := [true, true, true, true, true, true, true, false] }) base)).extScript.getD 7 true = false := by
  decide +kernel
theorem witness_BusSendReturnsNinthBit_silent :
    State.calm (cfg (fun p => { p with busOpenDrain := false }) base) = true ∧
      (State.bus (cfg (fun p => { p with busOpenDrain := false }) base)).sclOut = false ∧
      (State.bus (cfg (fun p => { p with busOpenDrain := false }) base)).ee.slave = Slave.unaddressed ∧
      (State.bus (cfg (fun p => { p with busOpenDrain := false }) base)).iox.slave = Slave.unaddressed ∧
      (State.bus (cfg (fun p => { p with busOpenDrain := false }) base)).extScript.getD 7 true = true := by
  decide +kernel
theorem witness_BusRecvAssemblesByte :
    State.calm answering = true ∧ (State.bus answering).sclOut = false ∧ (State.cfg answering).busOpenDrain = true ∧
      (State.bus answering).ee.slave = Slave.unaddressed ∧ (State.bus answering).iox.slave = Slave.unaddressed ∧
      (State.bus answering).extDrive = (0xA6#8).getLsbD 7 ∧
      ∀ i < 7, (State.bus answering).extScript.getD i true = (0xA6#8).getLsbD (6 - i) := by
  decide +kernel
theorem witness_BusNoackPulsesClock_further :
    State.calm answering = true ∧ (State.bus answering).ee.slave = Slave.unaddressed ∧
      (State.bus answering).iox.slave = Slave.unaddressed ∧ (State.bus answering).ee.pend = none := by
  decide +kernel
theorem witness_BusNoackPulsesClock_ninth :
    State.calm (iox (fun x => { x with slave := { Slave.unaddressed with phase := .sendAck } }) base) = true ∧
      (State.bus (iox (fun x => { x with slave := { Slave.unaddressed with phase := .sendAck } }) base)).sclOut = false ∧
      (State.bus (iox (fun x => { x with slave := { Slave.unaddressed with phase := .sendAck } }) base)).ee.slave.notReceiving = true ∧
      (State.bus (iox (fun x => { x with slave := { Slave.unaddressed with phase := .sendAck } }) base)).iox.slave.notReceiving = true := by
  decide +kernel
theorem witness_BusNoackPulsesClock_last :
    State.calm (ee (fun e => { e with slave := { Slave.sending 0xA6#8 with bits := 7, drive := false } }) base) = true ∧
      (State.bus (ee (fun e => { e with slave := { Slave.sending 0xA6#8 with bits := 7, drive := false } }) base)).sclOut = false ∧
      (State.bus (ee (fun e => { e with slave := { Slave.sending 0xA6#8 with bits := 7, drive := false } }) base)).ee.slave.notReceiving = true ∧
      (State.bus (ee (fun e => { e with slave := { Slave.sending 0xA6#8 with bits := 7, drive := false } }) base)).iox.slave.notReceiving = true := by
  decide +kernel
theorem witness_EeControlByteSelectsPage_answered :
    State.calm base = true ∧ State.busFree base = true ∧ Params.legal (State.cfg base) = true ∧
      (State.cfg base).busOpenDrain = true ∧ State.eepromAnswers base = true := by
  decide +kernel
theorem witness_EeControlByteSelectsPage_silent :
    State.calm writing = true ∧ State.busFree writing = true ∧ Params.legal (State.cfg writing) = true ∧
      (State.cfg writing).busOpenDrain = true ∧ State.eepromAnswers writing = false := by
  decide +kernel
theorem witness_EeWriteStoresByte :
    (7#8).toNat ≤ 7 ∧ State.calm base = true ∧ State.busFree base = true ∧ Params.legal (State.cfg base) = true ∧
      (State.cfg base).busOpenDrain = true ∧ State.eepromAnswers base = true ∧ (State.bus base).ee.memoryWf = true := by
  decide +kernel
theorem witness_EeWriteUnanswered :
    (7#8).toNat ≤ 7 ∧ State.calm writing = true ∧ State.busFree writing = true ∧
      Params.legal (State.cfg writing) = true ∧ State.eepromAnswers writing = false := by
  decide +kernel
theorem witness_EeWriteUnanswered_absent :
    State.calm (bare base) = true ∧ State.busFree (bare base) = true ∧ Params.legal (State.cfg (bare base)) = true ∧
      State.eepromAnswers (bare base) = false := by
  decide +kernel
theorem witness_EeReadReturnsCell :
    (7#8).toNat ≤ 7 ∧ State.calm base = true ∧ State.busFree base = true ∧ Params.legal (State.cfg base) = true ∧
      (State.cfg base).busOpenDrain = true ∧ State.eepromAnswers base = true := by
  decide +kernel
theorem witness_EeReadUnanswered :
    (7#8).toNat ≤ 7 ∧ State.calm writing = true ∧ State.busFree writing = true ∧
      Params.legal (State.cfg writing) = true ∧ State.eepromAnswers writing = false := by
  decide +kernel
theorem witness_EepromRoundTrip :
    (7#8).toNat ≤ 7 ∧ State.calm base = true ∧ State.busFree base = true ∧ Params.legal (State.cfg base) = true ∧
      (State.cfg base).busOpenDrain = true ∧ State.eepromAnswers base = true ∧ (State.env base).ee = .settles ∧
      (State.bus base).ee.memoryWf = true := by
  decide +kernel
theorem witness_ShortSettleGoesUnanswered :
    (7#8).toNat ≤ 7 ∧ (0#8).toNat ≤ 7 ∧ State.calm ({ base with env := { base.env with ee := .scripted } }) = true ∧
      State.busFree ({ base with env := { base.env with ee := .scripted } }) = true ∧
      Params.legal (State.cfg ({ base with env := { base.env with ee := .scripted } })) = true ∧
      (State.cfg ({ base with env := { base.env with ee := .scripted } })).busOpenDrain = true ∧
      State.eepromAnswers ({ base with env := { base.env with ee := .scripted } }) = true ∧
      (State.env ({ base with env := { base.env with ee := .scripted } })).ee = .scripted ∧
      (State.bus ({ base with env := { base.env with ee := .scripted } })).ee.memoryWf = true := by
  decide +kernel
theorem witness_OutOfRangeOperands :
    (8#8).toNat > 7 ∧ (4#8).toNat > 3 ∧ (16#8).toNat > 15 ∧ State.atRest (ticked (edged base)) = true := by
  decide +kernel
theorem witness_IoxCfgWritesPort :
    State.calm base = true ∧ State.busFree base = true ∧ Params.legal (State.cfg base) = true ∧
      (State.cfg base).busOpenDrain = true := by
  decide +kernel
theorem witness_IoxReadReturnsPort :
    State.calm base = true ∧ State.busFree base = true ∧ Params.legal (State.cfg base) = true ∧
      (State.cfg base).busOpenDrain = true ∧ (State.cfg base).ioxPresent = true := by
  decide +kernel
theorem witness_IoxAddressBytesAnswered :
    State.calm base = true ∧ State.busFree base = true ∧ Params.legal (State.cfg base) = true ∧
      (State.cfg base).busOpenDrain = true ∧ (State.cfg base).ioxPresent = true := by
  decide +kernel
theorem witness_IoxAddressBytesAnswered_absent :
    State.calm (bare base) = true ∧ State.busFree (bare base) = true ∧ Params.legal (State.cfg (bare base)) = true ∧
      (State.cfg (bare base)).busOpenDrain = true ∧ (State.cfg (bare base)).ioxPresent = false := by
  decide +kernel
theorem witness_LcdModeWritesLatch :
    State.calm base = true := by
  decide +kernel
theorem witness_AddressCommandsSetAddress :
    State.calm base = true ∧ State.lcdFree base = true ∧ (0x80#8).getLsbD 7 = true ∧ (0xFF#8).getLsbD 7 = true ∧
      (0x40#8).extractLsb 7 6 = 0b01#2 ∧ (0x7F#8).extractLsb 7 6 = 0b01#2 := by
  decide +kernel
theorem witness_NamedCommandsTakeEffect :
    State.calm (busy base) = true ∧ State.lcdFree (busy base) = true ∧ Params.legal (State.cfg (busy base)) = true ∧
      Memory.wf Config.blank (State.lcd (busy base)).ddram = true := by
  decide +kernel
theorem witness_WakeCommandIgnoresBusy :
    State.calm (sched .scripted (busy base)) = true ∧ Params.legal (State.cfg (sched .scripted (busy base))) = true := by
  decide +kernel
theorem witness_CommandRowsAreCommandWrites_wake :
    formatOf .cmdFsWake = .lcdCmd ∧ encode (State.cfg base) .cmdFsWake = [0x30#8] ∧ State.calm base = true ∧
      State.lcdFree base = true := by
  decide +kernel
theorem witness_CommandRowsAreCommandWrites :
    formatOf .cmdFsFinal = .lcdCmd ∧ (Instr.cmdFsFinal = .cmdFsWake → State.lcdFree base = true) ∧
      encode (State.cfg base) .cmdFsFinal = [0x38#8] ∧ State.calm base = true := by
  decide +kernel
theorem witness_UnlistedCommandRefused :
    (0x00#8).extractLsb 7 6 = 0b00#2 ∧ (0x3F#8).extractLsb 7 6 = 0b00#2 ∧ 0x00#8 ∉ (State.cfg base).commandBytes ∧
      0x3F#8 ∉ (State.cfg base).commandBytes ∧ State.calm base = true ∧ State.lcdFree base = true := by
  decide +kernel
theorem witness_BusyWriteFaults :
    formatOf .cmdHome = .lcdCmd ∧ (Instr.cmdHome ≠ .cmdFsWake) ∧ State.calm (sched .onRead (busy base)) = true ∧
      (State.lcd (sched .onRead (busy base))).bf = true ∧ (State.env (sched .onRead (busy base))).lcd ≠ .eager := by
  decide +kernel
theorem witness_DataByteStoredAndAdvances :
    dataByte (.lcdDataCg 7#3 31#5) = some 0xFF#8 ∧ State.calm (lcd (fun l => { l with ac := 0x7F#7 }) base) = true ∧
      State.lcdFree (lcd (fun l => { l with ac := 0x7F#7 }) base) = true ∧
      (State.lcd (lcd (fun l => { l with ac := 0x7F#7 }) base)).entryInc = true ∧
      (State.lcd (lcd (fun l => { l with ac := 0x7F#7 }) base)).memoriesWf = true := by
  decide +kernel
theorem witness_DataByteStoredAndAdvances_cgram :
    dataByte (.lcdDatawr 0xFF#8) = some 0xFF#8 ∧
      State.calm (lcd (fun l => { l with ac := 0x7F#7, ramsel := .cg }) base) = true ∧
      State.lcdFree (lcd (fun l => { l with ac := 0x7F#7, ramsel := .cg }) base) = true ∧
      (State.lcd (lcd (fun l => { l with ac := 0x7F#7, ramsel := .cg }) base)).entryInc = true ∧
      (State.lcd (lcd (fun l => { l with ac := 0x7F#7, ramsel := .cg }) base)).memoriesWf = true := by
  decide +kernel
theorem witness_DataByteWithoutEntryMode :
    dataByte (.lcdDataDd 0#8) = some 0#8 ∧ State.calm State.reset = true ∧ State.lcdFree State.reset = true ∧
      State.reset.lcd.entryInc = false := by
  decide +kernel
theorem witness_StatusReadReturnsBusyAndAddress :
    State.calm base = true := by
  decide +kernel
theorem witness_WaitReturnsReadyStatus :
    State.calm (busy base) = true ∧ State.waitEnds (busy base) = true := by
  decide +kernel
theorem witness_WaitReturnsReadyStatus_later :
    0 < Config.quantum ∧ 4095 < Config.quantum ∧ State.calm (sched .scripted (busy base)) = true ∧
      (State.lcd (sched .scripted (busy base))).bf = true ∧ (State.env (sched .scripted (busy base))).lcd = .scripted := by
  decide +kernel
theorem witness_UnresponsiveModuleHangs :
    State.calm (sched .scripted (busy base)) = true ∧ (State.lcd (sched .scripted (busy base))).bf = true ∧
      (State.env (sched .scripted (busy base))).lcd = .scripted := by
  decide +kernel
theorem witness_InitLeavesModuleReady :
    State.calm (sched .onRead (busy State.reset)) = true ∧
      Params.legal (State.cfg (sched .onRead (busy State.reset))) = true ∧
      State.lcdAnswers (sched .onRead (busy State.reset)) = true ∧
      Memory.wf Config.blank (State.lcd (sched .onRead (busy State.reset))).ddram = true := by
  decide +kernel
theorem witness_GotoSetsCursor :
    (3#8).toNat ≤ 3 ∧ (15#8).toNat ≤ 15 ∧ State.calm (busy base) = true ∧ State.waitEnds (busy base) = true := by
  decide +kernel
theorem witness_PutcStoresCharacter :
    State.calm (lcd (fun l => { l with ac := 0x5F#7 }) base) = true ∧
      State.waitEnds (lcd (fun l => { l with ac := 0x5F#7 }) base) = true ∧
      (State.lcd (lcd (fun l => { l with ac := 0x5F#7 }) base)).entryInc = true ∧
      (State.lcd (lcd (fun l => { l with ac := 0x5F#7 }) base)).memoriesWf = true := by
  decide +kernel
theorem witness_PutsGoesRoundTheDisplay :
    (List.replicate 255 0x41#8).length ≤ 255 ∧ 63 < 64 ∧
      State.calm (lcd (fun l => { l with ac := 0x5F#7 }) base) = true ∧
      State.lcdAnswers (lcd (fun l => { l with ac := 0x5F#7 }) base) = true ∧
      (State.lcd (lcd (fun l => { l with ac := 0x5F#7 }) base)).entryInc = true ∧
      (State.lcd (lcd (fun l => { l with ac := 0x5F#7 }) base)).ramsel = .dd ∧
      (State.lcd (lcd (fun l => { l with ac := 0x5F#7 }) base)).ac = cellAddr 63 ∧
      Memory.wf Config.blank (State.lcd (lcd (fun l => { l with ac := 0x5F#7 }) base)).ddram = true := by
  decide +kernel
theorem witness_PutsOutsideWindowsRefused :
    State.calm (lcd (fun l => { l with ac := 0x60#7 }) base) = true ∧
      State.waitEnds (lcd (fun l => { l with ac := 0x60#7 }) base) = true ∧
      (State.lcd (lcd (fun l => { l with ac := 0x60#7 }) base)).ac.toNat ∉ visibleAddrs := by
  decide +kernel
theorem witness_GlyphDefinesSlot :
    (7#8).toNat ≤ 7 ∧ State.calm base = true ∧ State.lcdAnswers base = true ∧ (State.lcd base).entryInc = true ∧
      Memory.wf Config.unwritten (State.lcd base).cgram = true := by
  decide +kernel
theorem witness_ClockStartAndStop :
    State.calm base = true := by
  decide +kernel
theorem witness_ClockResetRendersZero :
    State.calm (cfg (fun p => { p with clkCol := 9 }) base) = true ∧
      Params.legal (State.cfg (cfg (fun p => { p with clkCol := 9 }) base)) = true ∧
      State.lcdAnswers (cfg (fun p => { p with clkCol := 9 }) base) = true ∧
      (State.lcd (cfg (fun p => { p with clkCol := 9 }) base)).entryInc = true ∧
      Memory.wf Config.blank (State.lcd (cfg (fun p => { p with clkCol := 9 }) base)).ddram = true := by
  decide +kernel
theorem witness_ClockRestartResetsThenStarts :
    State.calm (cfg (fun p => { p with clkCol := 9 }) base) = true ∧
      Params.legal (State.cfg (cfg (fun p => { p with clkCol := 9 }) base)) = true ∧
      State.lcdAnswers (cfg (fun p => { p with clkCol := 9 }) base) = true ∧
      (State.lcd (cfg (fun p => { p with clkCol := 9 }) base)).entryInc = true := by
  decide +kernel
theorem witness_ClockReadReturnsFields :
    State.calm base = true ∧ (State.cfg base).readsEachField = true := by
  decide +kernel
theorem witness_EdgeReadAndReset :
    State.calm base = true := by
  decide +kernel
theorem witness_TimerTickWithoutRender :
    State.undisturbed (clk 9 9 59 59 (ticked base)) = true ∧ (State.clk (clk 9 9 59 59 (ticked base))).raw ≠ 10 := by
  decide +kernel
theorem witness_TimerTickRendersChangedFields :
    State.undisturbed (clk 10 9 59 59 (cfg (fun p => { p with clkCol := 9 }) (ticked base))) = true ∧
      Params.legal (State.cfg (clk 10 9 59 59 (cfg (fun p => { p with clkCol := 9 }) (ticked base)))) = true ∧
      State.lcdAnswers (clk 10 9 59 59 (cfg (fun p => { p with clkCol := 9 }) (ticked base))) = true ∧
      (State.lcd (clk 10 9 59 59 (cfg (fun p => { p with clkCol := 9 }) (ticked base)))).entryInc = true ∧
      Memory.wf Config.blank (State.lcd (clk 10 9 59 59 (cfg (fun p => { p with clkCol := 9 }) (ticked base)))).ddram = true ∧
      (State.clk (clk 10 9 59 59 (cfg (fun p => { p with clkCol := 9 }) (ticked base)))).inRange = true ∧
      (State.clk (clk 10 9 59 59 (cfg (fun p => { p with clkCol := 9 }) (ticked base)))).raw = 10 := by
  decide +kernel
theorem witness_ClockTickLaw :
    State.calm (sched .onRead base) = true ∧ Params.legal (State.cfg (sched .onRead base)) = true ∧
      State.lcdAnswers (sched .onRead base) = true ∧ (State.lcd (sched .onRead base)).entryInc = true := by
  decide +kernel
theorem witness_EdgeFiringCountsAndRenders :
    State.undisturbed (edged { base with cnt := 15#4 }) = true ∧
      State.busFree (edged { base with cnt := 15#4 }) = true ∧
      Params.legal (State.cfg (edged { base with cnt := 15#4 })) = true ∧
      (State.cfg (edged { base with cnt := 15#4 })).busOpenDrain = true ∧
      (State.cfg (edged { base with cnt := 15#4 })).ioxPresent = true ∧
      State.lcdAnswers (edged { base with cnt := 15#4 }) = true ∧
      (State.lcd (edged { base with cnt := 15#4 })).entryInc = true ∧
      Memory.wf Config.blank (State.lcd (edged { base with cnt := 15#4 })).ddram = true ∧
      (State.cfg (edged { base with cnt := 15#4 })).edgeRow.toNat ≤ 3 ∧
      (State.cfg (edged { base with cnt := 15#4 })).edgeCol.toNat + (edgeText (State.cfg (edged { base with cnt := 15#4 })) ((State.cnt (edged { base with cnt := 15#4 })) + 1#4)).length ≤ 16 := by
  decide +kernel
theorem witness_EdgeFiringCountsAndRenders_absent :
    State.undisturbed (cfg (fun p => { p with ioxPresent := false }) (edged { base with cnt := 15#4 })) = true ∧
      State.busFree (cfg (fun p => { p with ioxPresent := false }) (edged { base with cnt := 15#4 })) = true ∧
      Params.legal (State.cfg (cfg (fun p => { p with ioxPresent := false }) (edged { base with cnt := 15#4 }))) = true ∧
      (State.cfg (cfg (fun p => { p with ioxPresent := false }) (edged { base with cnt := 15#4 }))).busOpenDrain = true ∧
      (State.cfg (cfg (fun p => { p with ioxPresent := false }) (edged { base with cnt := 15#4 }))).ioxPresent = false ∧
      State.lcdAnswers (cfg (fun p => { p with ioxPresent := false }) (edged { base with cnt := 15#4 })) = true ∧
      (State.lcd (cfg (fun p => { p with ioxPresent := false }) (edged { base with cnt := 15#4 }))).entryInc = true ∧
      Memory.wf Config.blank (State.lcd (cfg (fun p => { p with ioxPresent := false }) (edged { base with cnt := 15#4 }))).ddram = true ∧
      (State.cfg (cfg (fun p => { p with ioxPresent := false }) (edged { base with cnt := 15#4 }))).edgeRow.toNat ≤ 3 ∧
      (State.cfg (cfg (fun p => { p with ioxPresent := false }) (edged { base with cnt := 15#4 }))).edgeCol.toNat + (edgeText (State.cfg (cfg (fun p => { p with ioxPresent := false }) (edged { base with cnt := 15#4 }))) ((State.cnt (cfg (fun p => { p with ioxPresent := false }) (edged { base with cnt := 15#4 }))) + 1#4)).length ≤ 16 := by
  decide +kernel
theorem witness_EdgeCounterLaw :
    State.calm base = true ∧ State.busFree base = true ∧ Params.legal (State.cfg base) = true ∧
      (State.cfg base).busOpenDrain = true ∧ (State.cfg base).ioxPresent = true ∧ State.lcdAnswers base = true ∧
      ∀ c, (edgeText (State.cfg base) c).length ≤ 64 := by
  decide +kernel
theorem witness_InterruptEntryKeepsForeground :
    (State.env (ticked base)).script = [] ∧ takeable (ticked base) = some .tisr ∧
      (State.env (edged base)).script = [] ∧ takeable (edged base) = some .eisr := by
  decide +kernel
theorem witness_IrqOrderDecides_timer :
    State.resting (ticked (edged base)) = true ∧ (State.env (ticked (edged base))).script = [] ∧
      restartsNow (ticked (edged base)) = false ∧ (State.irq (ticked (edged base))).tmrPend = true ∧
      (State.irq (ticked (edged base))).tmrIe = true ∧ (State.irq (ticked (edged base))).edgePend = true ∧
      (State.cfg (ticked (edged base))).irqOrder = .timerFirst ∧
      got (step (ticked (edged base))) State.resting = true := by
  decide +kernel
theorem witness_IrqOrderDecides_edge :
    State.resting (cfg (fun p => { p with irqOrder := .edgeFirst }) (ticked (edged base))) = true ∧
      (State.env (cfg (fun p => { p with irqOrder := .edgeFirst }) (ticked (edged base)))).script = [] ∧
      restartsNow (cfg (fun p => { p with irqOrder := .edgeFirst }) (ticked (edged base))) = false ∧
      (State.irq (cfg (fun p => { p with irqOrder := .edgeFirst }) (ticked (edged base)))).tmrPend = true ∧
      (State.irq (cfg (fun p => { p with irqOrder := .edgeFirst }) (ticked (edged base)))).tmrIe = true ∧
      (State.irq (cfg (fun p => { p with irqOrder := .edgeFirst }) (ticked (edged base)))).edgePend = true ∧
      (State.cfg (cfg (fun p => { p with irqOrder := .edgeFirst }) (ticked (edged base)))).irqOrder = .edgeFirst ∧
      got (step (cfg (fun p => { p with irqOrder := .edgeFirst }) (ticked (edged base)))) State.resting = true := by
  decide +kernel
theorem witness_IrqOrderDecides_inside_timer :
    (State.irq (midway (ticked (edged base)))).inIsr = none ∧
      (State.env (midway (ticked (edged base)))).script = [] ∧
      (State.irq (midway (ticked (edged base)))).tmrPend = true ∧
      (State.irq (midway (ticked (edged base)))).tmrIe = true ∧
      (State.irq (midway (ticked (edged base)))).edgePend = true ∧
      got (microSteps 4 (midway (ticked (edged base)))) (fun t => decide (t.irq.inIsr = none) && decide (t.fg = (State.fg (midway (ticked (edged base)))))) = true := by
  decide +kernel
theorem witness_IrqOrderDecides_inside_edge :
    (State.irq (midway (cfg (fun p => { p with irqOrder := .edgeFirst }) (ticked (edged base))))).inIsr = none ∧
      (State.env (midway (cfg (fun p => { p with irqOrder := .edgeFirst }) (ticked (edged base))))).script = [] ∧
      (State.irq (midway (cfg (fun p => { p with irqOrder := .edgeFirst }) (ticked (edged base))))).tmrPend = true ∧
      (State.irq (midway (cfg (fun p => { p with irqOrder := .edgeFirst }) (ticked (edged base))))).tmrIe = true ∧
      (State.irq (midway (cfg (fun p => { p with irqOrder := .edgeFirst }) (ticked (edged base))))).edgePend = true ∧
      got (microSteps 4 (midway (cfg (fun p => { p with irqOrder := .edgeFirst }) (ticked (edged base))))) (fun t => decide (t.irq.inIsr = some .eisr) && decide (t.fg = (State.fg (midway (cfg (fun p => { p with irqOrder := .edgeFirst }) (ticked (edged base))))))) = true := by
  decide +kernel
theorem witness_PendingTickTakenAfterStart :
    State.calm (irq (fun q => { q with tmrPend := true }) base) = true ∧
      (State.irq (irq (fun q => { q with tmrPend := true }) base)).tmrPend = true := by
  decide +kernel
theorem witness_TickInsideOperation :
    (State.env (midway (ticked base))).script = [] ∧ takeable (midway (ticked base)) = some .tisr ∧
      (State.clk (midway (ticked base))).raw ≠ 10 := by
  decide +kernel
theorem witness_TickInsideOperation_one :
    (State.env (clk 10 8 59 59 (midway (ticked base)))).script = [] ∧
      takeable (clk 10 8 59 59 (midway (ticked base))) = some .tisr ∧
      (State.clk (clk 10 8 59 59 (midway (ticked base)))).raw = 10 ∧
      Params.legal (State.cfg (clk 10 8 59 59 (midway (ticked base)))) = true ∧
      State.lcdAnswers (clk 10 8 59 59 (midway (ticked base))) = true ∧
      (State.lcd (clk 10 8 59 59 (midway (ticked base)))).entryInc = true ∧
      (State.clk (clk 10 8 59 59 (midway (ticked base)))).inRange = true := by
  decide +kernel
theorem witness_TickInsideOperation_two :
    (State.env (clk 10 9 58 59 (midway (ticked base)))).script = [] ∧
      takeable (clk 10 9 58 59 (midway (ticked base))) = some .tisr ∧
      (State.clk (clk 10 9 58 59 (midway (ticked base)))).raw = 10 ∧
      Params.legal (State.cfg (clk 10 9 58 59 (midway (ticked base)))) = true ∧
      State.lcdAnswers (clk 10 9 58 59 (midway (ticked base))) = true ∧
      (State.lcd (clk 10 9 58 59 (midway (ticked base)))).entryInc = true ∧
      (State.clk (clk 10 9 58 59 (midway (ticked base)))).inRange = true := by
  decide +kernel
theorem witness_TickInsideOperation_all :
    (State.env (clk 10 9 59 59 (midway (ticked base)))).script = [] ∧
      takeable (clk 10 9 59 59 (midway (ticked base))) = some .tisr ∧
      (State.clk (clk 10 9 59 59 (midway (ticked base)))).raw = 10 ∧
      Params.legal (State.cfg (clk 10 9 59 59 (midway (ticked base)))) = true ∧
      State.lcdAnswers (clk 10 9 59 59 (midway (ticked base))) = true ∧
      (State.lcd (clk 10 9 59 59 (midway (ticked base)))).entryInc = true ∧
      (State.clk (clk 10 9 59 59 (midway (ticked base)))).inRange = true := by
  decide +kernel
theorem witness_WatchdogRestart :
    (State.env (after 0 .watchdog pending)).script = [.watchdog] :: [] := by
  decide +kernel
theorem witness_StepRunsDecodedRequest_stream :
    State.resting ({ base with reqs := [0x39#8, 0x38#8] }) = true ∧
      takeable (boundary ({ base with reqs := [0x39#8, 0x38#8] })) = none ∧
      restartsNow ({ base with reqs := [0x39#8, 0x38#8] }) = false ∧
      (State.direct ({ base with reqs := [0x39#8, 0x38#8] })) = none ∧
      decode (State.reqs ({ base with reqs := [0x39#8, 0x38#8] })) = .request .edgeReset [0x38#8] := by
  decide +kernel
theorem witness_StepRunsDecodedRequest_direct :
    State.resting ({ base with direct := some .ioxAddrW }) = true ∧
      takeable (boundary ({ base with direct := some .ioxAddrW })) = none ∧
      restartsNow ({ base with direct := some .ioxAddrW }) = false ∧
      (State.direct ({ base with direct := some .ioxAddrW })) = some .ioxAddrW ∧ formatOf .ioxAddrW ≠ .event := by
  decide +kernel
theorem witness_StepOtherwise_progress :
    State.resting (enterHandler .tisr base) = false := by
  decide +kernel
theorem witness_StepOtherwise_interrupt :
    State.resting (edged base) = true ∧ takeable (boundary (edged base)) = some .eisr := by
  decide +kernel
theorem witness_StepOtherwise_handler_timer :
    State.resting ({ base with direct := some .timerIsr }) = true ∧
      takeable (boundary ({ base with direct := some .timerIsr })) = none ∧
      restartsNow ({ base with direct := some .timerIsr }) = false ∧
      (State.direct ({ base with direct := some .timerIsr })) = some .timerIsr := by
  decide +kernel
theorem witness_StepOtherwise_handler_edge :
    State.resting ({ base with direct := some .edgeIsr }) = true ∧
      takeable (boundary ({ base with direct := some .edgeIsr })) = none ∧
      restartsNow ({ base with direct := some .edgeIsr }) = false ∧
      (State.direct ({ base with direct := some .edgeIsr })) = some .edgeIsr := by
  decide +kernel
theorem witness_StepOtherwise_invalid :
    State.resting ({ base with reqs := [0x05#8] }) = true ∧
      takeable (boundary ({ base with reqs := [0x05#8] })) = none ∧
      restartsNow ({ base with reqs := [0x05#8] }) = false ∧ (State.direct ({ base with reqs := [0x05#8] })) = none ∧
      decode (State.reqs ({ base with reqs := [0x05#8] })) = .invalid 0x05#8 := by
  decide +kernel
theorem witness_StepOtherwise_truncated :
    State.resting ({ base with reqs := [0x02#8] }) = true ∧
      takeable (boundary ({ base with reqs := [0x02#8] })) = none ∧
      restartsNow ({ base with reqs := [0x02#8] }) = false ∧ (State.direct ({ base with reqs := [0x02#8] })) = none ∧
      decode (State.reqs ({ base with reqs := [0x02#8] })) = .truncated 0x02#8 := by
  decide +kernel
theorem witness_StepOtherwise_waiting :
    State.resting base = true ∧ takeable (boundary base) = none ∧ restartsNow base = false ∧
      (State.direct base) = none ∧ (State.reqs base) = [] := by
  decide +kernel
theorem witness_StepOtherwise_overflow_taken :
    State.resting (after 0 .timerOverflow running) = true ∧ takeable (after 0 .timerOverflow running) = none ∧
      (State.env (after 0 .timerOverflow running)).script = [.timerOverflow] :: [] ∧
      (State.irq (after 0 .timerOverflow running)).tmrRun = true ∧
      (State.irq (after 0 .timerOverflow running)).tmrIe = true := by
  decide +kernel
theorem witness_StepOtherwise_overflow_kept :
    State.resting (after 0 .timerOverflow base) = true ∧ takeable (after 0 .timerOverflow base) = none ∧
      (State.env (after 0 .timerOverflow base)).script = [.timerOverflow] :: [] ∧
      (State.irq (after 0 .timerOverflow base)).tmrIe = false ∧ (State.direct (after 0 .timerOverflow base)) = none ∧
      (State.reqs (after 0 .timerOverflow base)) = [] := by
  decide +kernel
theorem witness_StepOtherwise_edge :
    State.resting (after 0 .fallingEdge base) = true ∧ takeable (after 0 .fallingEdge base) = none ∧
      (State.env (after 0 .fallingEdge base)).script = [.fallingEdge] :: [] ∧
      (State.irq (after 0 .fallingEdge base)).edgeIe = true := by
  decide +kernel
theorem witness_StepOtherwise_watchdog :
    State.resting (after 0 .watchdog { base with reqs := [0x38#8] }) = true ∧
      takeable (after 0 .watchdog { base with reqs := [0x38#8] }) = none ∧
      (State.env (after 0 .watchdog { base with reqs := [0x38#8] })).script = [.watchdog] :: [] := by
  decide +kernel
theorem witness_RequestRoundTrip :
    (Instr.lcdPuts (List.replicate 255 0xFF#8)).wellFormed = true ∧
      formatOf (.lcdPuts (List.replicate 255 0xFF#8)) = .request := by
  decide +kernel
theorem witness_DecodedRequestIsItsEncoding :
    decode [0x2B#8, 1#8, 0x41#8, 0x30#8] = .request (.lcdPuts [0x41#8]) [0x30#8] := by
  decide +kernel
theorem witness_ByteFormatsRoundTrip :
    Config.reference.legal = true ∧ formatOf .cmdFsFinal ≠ .request ∧
      encode Config.reference .cmdFsFinal = [0x38#8] ∧
      (Instr.cmdFsFinal = .cmdFsFinal → Config.reference.cmdFsWake ≠ Config.reference.cmdFsFinal) := by
  decide +kernel

/-- TIMER_ISR has just been entered, an edge request is pending, the timer overflows at the next boundary. -/
def nested : State := after 0 .timerOverflow (enterHandler .tisr (edged (ticked base)))

theorem witness_HandlersDoNotNest :
    nested.irq.inIsr = some .tisr ∧ (∀ es r, nested.env.script = es :: r → .watchdog ∉ es) ∧
      got (microStep nested) (fun _ => true) = true := by
  refine ⟨rfl, fun es r h => ?_, by decide +kernel⟩
  cases h
  decide

theorem witness_StepKeepsInvariant :
    State.Inv (placeWord pending 8 0x01) ∧ got (step (placeWord pending 8 0x01)) (fun _ => true) = true := by
  unfold State.Inv
  decide +kernel

end Sys2Proof.Tests
end

section
/-! SUPPORT. What each part of the state keeps of the invariant: the slaves and the bus (R66, R69), the module's memories (R30,
R31), the counters (R33). Each law speaks of one operation on that part. -/

namespace Sys2Proof.Machine

/-! ## The reference slaves (R66, R69) -/

theorem Slave.releases_iff (x : Slave) : x.releases = true ↔ (x.phase = .ignore → x.drive = true) := by
  simp [Slave.releases, ← imp_iff_not_or]

theorem Slave.releases_of_addressed {x : Slave} (h : x.phase ≠ .ignore) : x.releases = true := by
  simp [Slave.releases, h]

@[simp] theorem Slave.unaddressed_releases : Slave.unaddressed.releases = true := rfl

@[simp] theorem slaveStart_releases (present : Bool) : (slaveStart present).releases = true := by
  cases present <;> rfl

@[simp] theorem slaveRise_phase (w : Bit) (x : Slave) : (slaveRise w x).phase = x.phase := by
  unfold slaveRise
  split
  · rfl
  · split <;> rfl

@[simp] theorem slaveRise_drive (w : Bit) (x : Slave) : (slaveRise w x).drive = x.drive := by
  unfold slaveRise
  split
  · rfl
  · split <;> rfl

@[simp] theorem slaveRise_releases (w : Bit) (x : Slave) : (slaveRise w x).releases = x.releases := by
  simp [Slave.releases]

/-- A falling edge that ends no byte leaves the slave where it stands, but that a ninth clock ends a sent byte. -/
theorem slaveFall_quiet_phase {x y : Slave} (h : slaveFall x = .quiet y) :
    y.phase = x.phase ∨ x.phase = .sendAck ∧ y.phase = .sent := by
  unfold slaveFall at h
  split at h
  · cases h; exact .inl rfl
  · split at h
    case h_1 => cases h; exact .inl rfl
    case h_6 => split at h <;> cases h; exact .inl rfl
    case h_7 hp => cases h; exact .inr ⟨hp, rfl⟩
    case h_8 => cases h
    all_goals split at h <;> cases h; exact .inl rfl

/-- The end of an acknowledgment releases the wire of a slave that has nothing to send (R69). -/
theorem slaveFall_quiet_releases {x y : Slave} (h : slaveFall x = .quiet y) (hx : x.releases = true) :
    y.releases = true := by
  rw [Slave.releases_iff] at hx ⊢
  intro hy
  have hp : x.phase = .ignore := by
    rcases slaveFall_quiet_phase h with e | ⟨-, e⟩
    · rw [← e, hy]
    · rw [hy] at e; cases e
  unfold slaveFall at h
  split at h
  · cases h; simp [hp]
  · simp only [hp] at h
    cases h
    exact hx hp

theorem slaveFall_sentByte_phase {x y : Slave} (h : slaveFall x = .sentByte y) :
    x.phase = .send ∧ y.phase = .sendAck := by
  unfold slaveFall at h
  split at h
  · cases h
  · split at h
    case h_6 hp => split at h <;> cases h; exact ⟨hp, rfl⟩
    all_goals first | cases h | (split at h <;> cases h)

/-! ## The reference EEPROM (R66, R67) -/

/-- The EEPROM's share of `Bus.inv`. -/
def Eeprom.Inv (e : Eeprom) : Prop := e.memoryWf = true ∧ e.pendingPlaced = true ∧ e.slave.releases = true

theorem Bus.inv_iff (b : Bus) : b.inv = true ↔ b.ee.Inv ∧ b.iox.slave.releases = true := by
  simp only [Bus.inv, Eeprom.Inv, Bool.and_eq_true, and_assoc]

theorem Eeprom.pendingPlaced_iff (e : Eeprom) : e.pendingPlaced = true ↔ (e.slave.phase ≠ .extra → e.pend = none) := by
  simp only [Eeprom.pendingPlaced, Bool.or_eq_true, Option.isNone_iff_eq_none, decide_eq_true_eq, ne_eq, or_comm,
    or_iff_not_imp_left]

/-- A byte still to be taken in or ignored: no write is pending yet. -/
theorem Eeprom.Inv.pend_eq_none {e : Eeprom} (h : e.Inv) (hp : e.slave.phase ≠ .extra) : e.pend = none :=
  e.pendingPlaced_iff.mp h.2.1 hp

/-- An EEPROM with the same memory and nothing pending. -/
theorem Eeprom.Inv.of_not_pending {e f : Eeprom} (h : e.Inv) (hm : f.mem = e.mem) (hp : f.pend = none)
    (hs : f.slave.releases = true) : f.Inv := by
  refine ⟨?_, f.pendingPlaced_iff.mpr fun _ => hp, hs⟩
  have hw := h.1
  rwa [Eeprom.memoryWf, ← hm] at hw

theorem eeStart_inv {e : Eeprom} (h : e.Inv) (present choice : Bool) : (eeStart present choice e).Inv := by
  unfold eeStart
  split
  case h_1 hp => exact h.of_not_pending rfl hp (slaveStart_releases present)
  case h_2 d hp => exact ⟨eeSettlePending_memoryWf h.1 d choice, rfl, slaveStart_releases present⟩

theorem eeStop_inv {e : Eeprom} (h : e.Inv) : (eeStop e).Inv := by
  unfold eeStop
  split
  case h_1 hp => exact h.of_not_pending rfl hp rfl
  case h_2 d hp => exact ⟨eeSettlePending_memoryWf h.1 d true, rfl, rfl⟩

theorem eeControl_inv {e : Eeprom} (h : e.Inv) (hp : e.pend = none) (c : Byte) : (eeControl c e).Inv := by
  unfold eeControl
  split
  · dsimp only
    split
    · exact h.of_not_pending rfl hp rfl
    · exact h.of_not_pending rfl hp rfl
  · exact h.of_not_pending rfl hp rfl

/-- A whole byte received: only the data byte makes a write pending, and it leaves the EEPROM waiting for the stop (R66). -/
theorem eeGot_inv {e f : Eeprom} {b : Byte} (h : e.Inv) (hf : eeGot b e = .ok f) : f.Inv := by
  unfold eeGot at hf
  split at hf
  case h_1 hp => cases hf; exact eeControl_inv h (h.pend_eq_none (by simp [hp])) b
  case h_2 hp => cases hf; exact h.of_not_pending rfl (h.pend_eq_none (by simp [hp])) rfl
  case h_3 hp => cases hf; exact ⟨h.1, by simp [Eeprom.pendingPlaced_iff, slaveAck], rfl⟩
  case h_4 => cases hf

theorem eeFall_inv {e f : Eeprom} {v : Byte} (h : e.Inv) (hf : eeFall v e = .ok f) : f.Inv := by
  unfold eeFall at hf
  split at hf
  case h_1 x hx =>
    cases hf
    refine ⟨h.1, (Eeprom.pendingPlaced_iff _).mpr fun hn => ?_, slaveFall_quiet_releases hx h.2.2⟩
    apply h.pend_eq_none
    rcases slaveFall_quiet_phase hx with e | ⟨e, -⟩
    · exact e ▸ hn
    · simp [e]
  case h_2 b hb => exact eeGot_inv h hf
  case h_3 x hx =>
    cases hf
    obtain ⟨hs, ht⟩ := slaveFall_sentByte_phase hx
    exact h.of_not_pending rfl (h.pend_eq_none (by simp [hs])) (Slave.releases_of_addressed (by simp [ht]))
  case h_4 => cases hf

/-! ## The reference expander (R68) -/

theorem ioxGot_releases {p : Params} {x y : Expander} {b : Byte} (h : ioxGot p b x = .ok y) :
    y.slave.releases = true := by
  unfold ioxGot at h
  split at h
  · cases h
    unfold ioxAddress
    split
    · rfl
    · split <;> rfl
  · cases h; rfl
  · cases h

theorem ioxFall_releases {p : Params} {x y : Expander} (hx : x.slave.releases = true) (h : ioxFall p x = .ok y) :
    y.slave.releases = true := by
  unfold ioxFall at h
  split at h
  case h_1 z hz => cases h; exact slaveFall_quiet_releases hz hx
  case h_2 b hb => exact ioxGot_releases h
  case h_3 z hz => cases h; exact Slave.releases_of_addressed (by simp [(slaveFall_sentByte_phase hz).2])
  case h_4 => cases h

/-! ## The wires (R51 to R53) -/

theorem onStart_inv {b : Bus} (h : b.inv = true) (p : Params) : (onStart p b).inv = true := by
  rw [Bus.inv_iff] at h ⊢
  exact ⟨eeStart_inv h.1 _ _, slaveStart_releases _⟩

theorem onStop_inv {b : Bus} (h : b.inv = true) : (onStop b).inv = true := by
  rw [Bus.inv_iff] at h ⊢
  exact ⟨eeStop_inv h.1, rfl⟩

theorem onRise_inv {b : Bus} (h : b.inv = true) : (onRise b).inv = true := by
  simpa [Bus.inv, onRise, Eeprom.memoryWf, Eeprom.pendingPlaced] using h

theorem onFall_inv {p : Params} {b c : Bus} (h : b.inv = true) (hc : onFall p b = .ok c) : c.inv = true := by
  rw [Bus.inv_iff] at h ⊢
  unfold onFall at hc
  split at hc
  case h_1 => cases hc
  case h_2 e he =>
    split at hc
    case h_1 => cases hc
    case h_2 x hx => cases hc; exact ⟨eeFall_inv h.1 he, ioxFall_releases h.2 hx⟩

theorem wireEvent_inv {b : Bus} (h : b.inv = true) (p : Params) (before after : Bit) :
    (wireEvent p before after b).inv = true := by
  unfold wireEvent
  split
  · exact onStart_inv h p
  · exact onStop_inv h
  · exact h

theorem setSda_inv {b : Bus} (h : b.inv = true) (p : Params) (v : Bit) : (setSda p v b).inv = true := by
  unfold setSda
  split
  · exact wireEvent_inv (b := { b with sdaOut := v }) h p _ _
  · exact h

theorem setScl_inv {p : Params} {v : Bit} {b c : Bus} (h : b.inv = true) (hc : setScl p v b = .ok c) : c.inv = true := by
  unfold setScl at hc
  split at hc
  · cases hc; exact onRise_inv (b := { b with sclOut := true }) h
  · exact onFall_inv (b := { b with sclOut := false }) h hc
  · cases hc; exact h

theorem readLine_inv {b : Bus} (h : b.inv = true) (p : Params) : (readLine p b).2.inv = true := by
  unfold readLine
  split
  · exact h
  · exact h

theorem sampleAck_inv {b : Bus} (h : b.inv = true) (p : Params) : (sampleAck p b).inv = true :=
  readLine_inv h p

theorem restartBus_inv {b : Bus} (h : b.inv = true) : (restartBus b).inv = true := by
  rw [Bus.inv_iff] at h ⊢
  exact ⟨h.1.of_not_pending rfl rfl rfl, rfl⟩

/-! ## The LCD module's memories (R30, R31) -/

/-- Only the two memories matter. -/
theorem Lcd.memoriesWf_congr {l m : Lcd} (h : l.memoriesWf = true) (hd : m.ddram = l.ddram) (hc : m.cgram = l.cgram) :
    m.memoriesWf = true := by
  rwa [Lcd.memoriesWf, hd, hc]

theorem visibleAddrs_visible (v : Byte) : ∀ a ∈ visibleAddrs, visibleCell a v = true := by
  simp only [visibleCell]
  decide

theorem glyphAddrs_lt : ∀ a ∈ glyphAddrs, a < 64 := fun _ h => List.mem_range.mp h

theorem acceptCommand_memoriesWf {p : Params} {v : Byte} {l m : Lcd} (h : l.memoriesWf = true)
    (hm : acceptCommand p v l = some m) : m.memoriesWf = true := by
  unfold acceptCommand at hm
  split at hm
  · cases hm; exact h
  split at hm
  · cases hm; exact h
  split at hm
  · cases hm
    simp only [Lcd.memoriesWf, Bool.and_eq_true, Memory.fill_eq] at h ⊢
    obtain ⟨⟨⟨hwf, hin⟩, hcg⟩, hcgIn⟩ := h
    exact ⟨⟨⟨Memory.fillWith_wf hwf _ _, Memory.fillWith_within hin _ (visibleAddrs_visible _)⟩, hcg⟩, hcgIn⟩
  split at hm
  · cases hm; exact h
  split at hm
  · cases hm; exact h
  split at hm
  · cases hm; exact h
  split at hm
  · cases hm; exact h
  · cases hm

theorem portWrite_memoriesWf {p : Params} {busyOk : Bool} {v : Byte} {l m : Lcd} (h : l.memoriesWf = true)
    (hm : portWrite p busyOk v l = .accepted m) : m.memoriesWf = true := by
  unfold portWrite deliverCommand deliverData at hm
  split at hm
  · split at hm
    · cases hm
    · split at hm
      case h_1 k hk => cases hm; exact acceptCommand_memoriesWf h hk
      case h_2 => cases hm
  split at hm
  · split at hm
    · cases hm
    · cases hm; exact acceptData_memoriesWf h v
  · cases hm

/-- A row of five bits is a CGRAM cell. -/
theorem glyphCell_of_bits {a : Nat} (h : a ∈ glyphAddrs) (x : BitVec 5) : glyphCell a (x.setWidth 8) = true := by
  have hx := x.isLt
  simp only [glyphCell, Bool.and_eq_true, decide_eq_true_eq, BitVec.toNat_setWidth]
  exact ⟨glyphAddrs_lt a h, by omega⟩

/-- A restart draws every cell of both memories within its space (R250). -/
theorem restartLcd_memoriesWf {l : Lcd} (h : l.memoriesWf = true) : (restartLcd l).memoriesWf = true := by
  simp only [Lcd.memoriesWf, Bool.and_eq_true, restartLcd] at h ⊢
  obtain ⟨⟨⟨hdd, hddIn⟩, hcg⟩, hcgIn⟩ := h
  refine ⟨⟨⟨Memory.fillWith_wf hdd _ _, Memory.fillWith_within hddIn _ ?_⟩, Memory.fillWith_wf hcg _ _⟩,
    Memory.fillWith_within hcgIn _ ?_⟩
  · intro a ha
    exact visibleAddrs_visible _ a ha
  · intro a ha
    exact glyphCell_of_bits ha _

/-! ## The clock's counters (R33, R198) -/

theorem Clock.inRange_iff (c : Clock) :
    c.inRange = true ↔ c.raw ≤ 10 ∧ c.ms ≤ 9 ∧ c.sec ≤ 59 ∧ c.min ≤ 59 := by
  simp only [Clock.inRange, Bool.and_eq_true, decide_eq_true_eq, and_assoc]

/-- Each carry tests for the bound, so no counter passes it (D23). -/
theorem tick_inRange {c : Clock} (h : c.inRange = true) : (tick c).1.inRange = true := by
  rw [Clock.inRange_iff] at h ⊢
  unfold tick
  split
  · split
    · split
      · split <;> dsimp only <;> omega
      · dsimp only; omega
    · dsimp only; omega
  · dsimp only; omega

end Sys2Proof.Machine
end

section
/-! SUPPORT. Every operation of the sequencer keeps the parameters and the invariant (R7, R33, R35, R66, R69): one law for each
shared operation of Machine/Ops.lean, from one move of the environment and one micro-step up to a whole step. -/

namespace Sys2Proof.Machine

/-! ## Keeping -/

/-- t has the parameters of s, and meets the invariant where s does. -/
def Kept (s t : State) : Prop := t.cfg = s.cfg ∧ (s.Inv → t.Inv)

/-- Every next state an outcome answers is kept from s. -/
def KeptBy (s : State) (r : Res) : Prop := ∀ t, r = .next t → Kept s t

/-- Every state a choice goes on with is kept from s. -/
def Choice.KeptBy (s : State) : Choice → Prop
  | .goOn t => Kept s t
  | .skip t => Kept s t
  | .insert _ t => Kept s t
  | .reject _ => True

theorem Kept.refl (s : State) : Kept s s := ⟨rfl, id⟩

theorem Kept.trans {s t u : State} (h : Kept s t) (h' : Kept t u) : Kept s u :=
  ⟨h'.1.trans h.1, fun hs => h'.2 (h.2 hs)⟩

/-- The invariant speaks of four parts besides the parameters, each apart from the others. -/
theorem Kept.of_parts {s t : State} (hcfg : t.cfg = s.cfg) (hirq : s.irq.edgeIe = true → t.irq.edgeIe = true)
    (hclk : s.clk.inRange = true → t.clk.inRange = true) (hlcd : s.lcd.memoriesWf = true → t.lcd.memoriesWf = true)
    (hbus : s.bus.inv = true → t.bus.inv = true) : Kept s t := by
  refine ⟨hcfg, ?_⟩
  rintro ⟨legal, irq, clk, lcd, bus⟩
  exact ⟨hcfg ▸ legal, hirq irq, hclk clk, hlcd lcd, hbus bus⟩

theorem Kept.with_bus {s : State} {b : Bus} (h : s.bus.inv = true → b.inv = true) : Kept s { s with bus := b } :=
  .of_parts rfl id id id h

theorem Kept.with_lcd {s : State} {l : Lcd} (h : s.lcd.memoriesWf = true → l.memoriesWf = true) :
    Kept s { s with lcd := l } :=
  .of_parts rfl id id h id

theorem Kept.with_clk {s : State} {c : Clock} (h : s.clk.inRange = true → c.inRange = true) :
    Kept s { s with clk := c } :=
  .of_parts rfl id h id id

theorem Kept.with_irq {s : State} {q : Irq} (h : s.irq.edgeIe = true → q.edgeIe = true) : Kept s { s with irq := q } :=
  .of_parts rfl h id id id

theorem Kept.setSeq (s : State) (c : Ctx) (q : Seq) : Kept s (s.setSeq c q) := by
  cases c <;> exact .of_parts rfl id id id id

theorem Kept.setTr (s : State) (c : Ctx) (q : Transients) : Kept s (s.setTr c q) := .setSeq s c _

theorem Kept.setRest (s : State) (c : Ctx) (k : List Item) : Kept s (s.setRest c k) := .setSeq s c _

theorem KeptBy.next {s t : State} (h : Kept s t) : KeptBy s (.next t) := by
  rintro _ ⟨⟩
  exact h

theorem KeptBy.fault (s : State) (e : Fault) : KeptBy s (.fault e) := by
  rintro _ ⟨⟩

theorem KeptBy.refused (s : State) (e : Refusal) : KeptBy s (.refused e) := by
  rintro _ ⟨⟩

theorem KeptBy.trans {s t : State} {r : Res} (h : Kept s t) (h' : KeptBy t r) : KeptBy s r :=
  fun u hu => h.trans (h' u hu)

theorem KeptBy.thenDo {s : State} {r : Res} {f : State → Res} (h : KeptBy s r) (hf : ∀ u, KeptBy u (f u)) :
    KeptBy s (thenDo r f) := by
  intro t ht
  obtain ⟨u, hu, hfu⟩ := thenDo_eq_next ht
  exact (h u hu).trans (hf u t hfu)

/-! ## The environment at a boundary (R70, R75) -/

theorem restart_kept (s : State) : Kept s (restart s) := by
  refine .of_parts rfl (fun _ => rfl) (fun _ => ?_) restartLcd_memoriesWf restartBus_inv
  rw [Clock.inRange_iff]
  dsimp only [restart]
  omega

theorem applyEvent_kept (s : State) (e : Event) : Kept s (applyEvent s e) := by
  cases e with
  | lcdReady => exact .with_lcd id
  | writeCycleDone => exact .with_bus id
  | timerOverflow => exact .with_irq id
  | fallingEdge => exact .with_irq id
  | watchdog => exact restart_kept s

theorem applyEvents_kept (s : State) (es : List Event) : Kept s (applyEvents s es) := by
  induction es generalizing s with
  | nil => exact .refl s
  | cons e es ih => exact (applyEvent_kept s e).trans (ih _)

theorem scriptMoves_kept (s : State) : Kept s (scriptMoves s) := by
  unfold scriptMoves
  split
  · exact .refl s
  · exact .trans (.of_parts rfl id id id id) (applyEvents_kept _ _)

theorem boundary_kept (s : State) : Kept s (boundary s) := (scriptMoves_kept s).trans (.with_lcd id)

/-! ## One micro-step (R10) -/

theorem onBus_kept {s : State} {r : Except Refusal Bus} (h : ∀ b, r = .ok b → s.bus.inv = true → b.inv = true) :
    KeptBy s (onBus s r) := by
  cases r with
  | ok b => exact .next (.with_bus (h b rfl))
  | error e => exact .refused s e

theorem onLcd_kept {s : State} {d : Delivery} (h : ∀ l, d = .accepted l → s.lcd.memoriesWf = true → l.memoriesWf = true) :
    KeptBy s (onLcd s d) := by
  cases d with
  | accepted l => exact .next (.with_lcd (h l rfl))
  | busy => exact .fault s _
  | reject r => exact .refused s r

theorem portWrite_kept (s : State) (busyOk : Bool) (v : Byte) : KeptBy s (onLcd s (portWrite s.cfg busyOk v s.lcd)) :=
  onLcd_kept fun _ hl h => portWrite_memoriesWf h hl

theorem readStatus_kept (c : Ctx) (s : State) : KeptBy s (readStatus c s) := by
  unfold readStatus
  split
  · exact .next (.trans (.with_lcd id) (.setTr _ c _))
  · exact .refused s _

theorem readField_kept (c : Ctx) (f : ClockField) (s : State) : Kept s (readField c f s) := by
  cases f <;> exact .setTr s c _

theorem runPrim_kept (c : Ctx) (p : Prim) (s : State) : KeptBy s (runPrim c p s) := by
  cases p with
  | scl b => exact onBus_kept fun _ hb h => setScl_inv h hb
  | sda b => exact .next (.with_bus fun h => setSda_inv h _ _)
  | sdaTx => exact .next (.with_bus fun h => setSda_inv h _ _)
  | sampleAck => exact .next (.with_bus fun h => sampleAck_inv h _)
  | sampleRx => exact .next (.trans (.with_bus fun h => readLine_inv h _) (.setTr _ c _))
  | writeMode m => exact .next (.with_lcd id)
  | writePort v => exact portWrite_kept s false v
  | wakePort v => exact portWrite_kept s true v
  | readPort => exact readStatus_kept c s
  | readMode => exact .next (.setTr s c _)
  | restoreMode => exact .next (.with_lcd id)
  | delay n => exact .next (.with_bus id)
  | setTmrIe b => exact .next (.with_irq id)
  | setTmrRun b => exact .next (.with_irq id)
  | reload v => exact .next (.refl s)
  | clockTick => exact .next (.trans (.with_clk tick_inRange) (.setTr _ c _))
  | zeroClock => exact .next (.with_clk fun _ => rfl)
  | readClock f => exact .next (readField_kept c f s)
  | incCnt => exact .next (.of_parts rfl id id id id)
  | zeroCnt => exact .next (.of_parts rfl id id id id)
  | readCnt => exact .next (.setTr s c _)

/-! ## The bookkeeping between micro-steps (R29) -/

theorem putsStart_kept (c : Ctx) (text : List Byte) (s : State) : (putsStart c text s).KeptBy s := by
  unfold putsStart
  split
  · exact Kept.refl s
  · trivial

theorem runCtl_kept (c : Ctx) (x : Ctl) (s : State) : (runCtl c x s).KeptBy s := by
  cases x with
  | loadTx v => exact Kept.setTr s c _
  | clearRx => exact Kept.setTr s c _
  | bitNo i => exact Kept.setTr s c _
  | takeAck => exact Kept.setTr s c _
  | takeData => exact Kept.setTr s c _
  | drawData => exact Kept.trans (.of_parts rfl id id id id) (.setTr _ c _)
  | nackToClosing =>
    simp only [runCtl]
    split <;> exact Kept.refl s
  | closing => exact Kept.refl s
  | againIfBusy =>
    simp only [runCtl]
    split <;> exact Kept.refl s
  | putsFrom text => exact putsStart_kept c text s
  | saveAddr => exact Kept.setTr s c _
  | restoreAddr => exact Kept.refl s
  | renderClock => exact Kept.of_parts rfl id id id id
  | mergeConfigure => exact Kept.refl s
  | renderEdge => exact Kept.refl s
  | drawAddr => exact Kept.with_lcd id
  | ret k => exact Kept.of_parts rfl id id id id

theorem finish_kept (c : Ctx) (s : State) : Kept s (finish c s) := by
  cases c <;> exact .of_parts rfl id id id id

theorem settle_kept (c : Ctx) (skipping : Bool) (k : List Item) (s : State) : KeptBy s (settle c skipping k s) := by
  induction k generalizing skipping s with
  | nil => simp only [settle]; exact .next (finish_kept c s)
  | cons i k ih =>
    cases skipping with
    | true =>
      by_cases hi : i = .ctl .closing
      · subst hi; simp only [settle]; exact ih false s
      · simp only [settle]; exact ih true s
    | false =>
      cases i with
      | prim p => simp only [settle]; exact .next (.setRest s c _)
      | ctl x =>
        have hx := runCtl_kept c x s
        simp only [settle]
        cases hr : runCtl c x s with
        | goOn t => rw [hr] at hx; exact .trans hx (ih false t)
        | skip t => rw [hr] at hx; exact .trans hx (ih true t)
        | insert l t =>
          rw [hr] at hx
          cases l with
          | nil => exact .trans hx (ih false t)
          | cons j l => exact .next (.trans hx (.setRest t c _))
        | reject r => exact .refused s r

/-! ## The core and its runs (R110, R227 to R230) -/

theorem ctxStep_kept (c : Ctx) (s : State) : KeptBy s (ctxStep c s) := by
  unfold ctxStep
  split
  · exact .next (finish_kept c s)
  · exact settle_kept c false _ s
  · exact .thenDo (.trans (.setRest s c _) (runPrim_kept c _ _)) (settle_kept c false _)

theorem enterHandler_kept (h : Handler) (s : State) : Kept s (enterHandler h s) := by
  cases h <;> exact .of_parts rfl id id id id

theorem takeInterrupt_kept (h : Handler) (s : State) : KeptBy s (takeInterrupt h s) :=
  .trans (enterHandler_kept h s) (ctxStep_kept _ _)

theorem coreStep_kept (s : State) : KeptBy s (coreStep s) := by
  unfold coreStep
  split
  · exact ctxStep_kept _ s
  · split
    · exact takeInterrupt_kept _ s
    · exact ctxStep_kept .fg s

theorem microStep_kept (s : State) : KeptBy s (microStep s) := .trans (boundary_kept s) (coreStep_kept _)

theorem drive_kept (n : Nat) (s : State) : KeptBy s (drive n s) := by
  induction n generalizing s with
  | zero => exact .next (.refl s)
  | succ n ih =>
    rw [drive_succ]
    split
    · exact .next (.refl s)
    · exact .thenDo (microStep_kept s) ih

theorem perform_kept (i : Instr) (code : List Item) (s : State) : KeptBy s (perform i code s) := by
  unfold perform
  split
  · exact .thenDo (.trans (.of_parts rfl id id id id) (settle_kept .fg false code _)) (drive_kept _)
  · exact .refused s _

theorem fireHandler_kept (h : Handler) (s : State) : KeptBy s (fireHandler h s) := by
  unfold fireHandler
  split
  · exact .refused s _
  · exact .thenDo (.trans (boundary_kept s) (takeInterrupt_kept h _)) (drive_kept _)

/-! ## Instructions and steps -/

/-- An instruction is an operation of FG, a handler's run, or refused for an operand out of range (R87). -/
theorem exec_cases (i : Instr) (s : State) :
    (∃ code, exec i s = perform i code s) ∨ (∃ h, exec i s = fireHandler h s) ∨
      exec i s = .refused .operandOutsideDomain := by
  cases i with
  | eeWrite page offset data =>
    by_cases hp : pageOk page = true
    · exact .inl ⟨_, if_pos hp⟩
    · exact .inr (.inr (if_neg hp))
  | eeRead page offset =>
    by_cases hp : pageOk page = true
    · exact .inl ⟨_, if_pos hp⟩
    · exact .inr (.inr (if_neg hp))
  | lcdGlyph slot rows =>
    by_cases hp : slotOk slot = true
    · exact .inl ⟨_, if_pos hp⟩
    · exact .inr (.inr (if_neg hp))
  | timerIsr => exact .inr (.inl ⟨.tisr, rfl⟩)
  | edgeIsr => exact .inr (.inl ⟨.eisr, rfl⟩)
  | _ => exact .inl ⟨_, rfl⟩

theorem exec_kept (i : Instr) (s : State) : KeptBy s (exec i s) := by
  rcases exec_cases i s with ⟨code, h⟩ | ⟨x, h⟩ | h
  · exact h ▸ perform_kept i code s
  · exact h ▸ fireHandler_kept x s
  · exact h ▸ .refused s _

/-- Taking a request changes the stream or the operation handed over, and nothing else. -/
theorem nextRequest_kept {s t : State} {i : Instr} (h : nextRequest s = .run i t) : Kept s t := by
  unfold nextRequest at h
  split at h
  case h_1 j hj =>
    rcases handedOver_cases j s with ⟨-, b, hb⟩ | ⟨-, hr⟩
    · rw [hb] at h; cases h
    · rw [hr] at h; cases h; exact .of_parts rfl id id id id
  case h_2 =>
    split at h <;> cases h
    exact .of_parts rfl id id id id

theorem fetch_kept {s t : State} {i : Instr} (h : fetch s = .run i t) : Kept s t := by
  cases hr : s.resting with
  | false => simp [fetch, hr] at h
  | true =>
    rcases fetch_of_resting hr with ⟨x, -, hx⟩ | ⟨-, -, hw⟩ | ⟨-, -, hn⟩
    · rw [hx] at h; cases h; exact .refl s
    · rw [hw] at h; cases h
    · exact nextRequest_kept (hn ▸ h)

theorem step_kept (s : State) : KeptBy s (step s) := by
  rcases step_cases s with ⟨-, h⟩ | ⟨i, t, hf, h⟩ | ⟨-, h⟩ | ⟨r, -, h⟩
  · exact h ▸ drive_kept _ s
  · exact h ▸ .trans (fetch_kept hf) (exec_kept i t)
  · exact h ▸ .next (boundary_kept s)
  · exact h ▸ .refused s r

end Sys2Proof.Machine
end

section
/-! PROOF. The invariant (10_state.md R33, R35, R40, R41; 20_memory.md R66, R69; 00_scope.md R7). -/

namespace Sys2Proof.Machine

/-- Settles O57: every shared operation keeps the four parts of the invariant, so a step, which is one of them, does. -/
theorem stepKeepsInvariant : Obligations.StepKeepsInvariant := by
  intro s t hs ht
  obtain ⟨hcfg, hinv⟩ := step_kept s t ht
  exact ⟨hinv hs, hcfg⟩

end Sys2Proof.Machine
end

section
/-! PROOF. LCD_MODE (10_state.md R25), what a step does when it begins no request (10_state.md R29, 30_encoding.md R82, R85, R86,
60_exceptions.md R224, R225, R228), and the launch state (10_state.md R41). -/

namespace Sys2Proof.Machine

/-! ## The launch state -/

/-- Settles O58: the parameters are legal by computation, every memory is empty, the counters are 0. -/
theorem resetMeetsInvariant : Obligations.ResetMeetsInvariant :=
  ⟨by decide, rfl, rfl, rfl, rfl⟩

/-- Settles O59: each value is the field of `State.reset`, and with nothing placed FG waits. -/
theorem resetIsLaunchState : Obligations.ResetIsLaunchState :=
  ⟨rfl, rfl, rfl, rfl, rfl, rfl, rfl, rfl, rfl, rfl⟩

/-! ## LCD_MODE -/

theorem calm_iff (s : State) : s.calm = true ↔ s.irq.inIsr = none ∧ s.fg = Seq.idle ∧ s.quiet = true := by
  simp only [State.calm, State.atRest, Bool.and_eq_true, decide_eq_true_eq, and_assoc]

/-- FG idle again after its last micro-step is FG as it was before an operation begun at rest. -/
theorem finish_fg_of_idle {s : State} (h : s.fg = Seq.idle) (q : Seq) : finish .fg { s with fg := q } = s := by
  simp only [finish, ← h]

/-- Settles O17: one micro-step writes the latch, and the return follows it. -/
theorem lcdModeWritesLatch : Obligations.LcdModeWritesLatch := by
  intro rs rw s hs
  obtain ⟨hisr, hidle, -⟩ := (calm_iff s).mp hs
  refine perform_of_go 1 (by decide) (resting_of_calm hs) ?_ (by simp [State.resting, State.done, hisr, hidle, Seq.idle])
  rw [go_prim (running_of_calm hs _)]
  simp only [runPrim, thenDo_next]
  rw [go_goOn rfl, go_nil_fg (by simpa using hisr)]
  congr 1
  exact finish_fg_of_idle (s := { s.done .nothing with lcd := _ }) hidle _

/-! ## What a step does when it begins no request -/

theorem step_of_not_resting {s : State} (h : s.resting = false) : step s = resume s := by
  simp [step, fetch, h]

/-- An interrupt takeable once the environment has moved comes before FG's next request (R228). -/
theorem step_of_takeable {s : State} {h : Handler} (hr : s.resting = true) (ht : takeable (boundary s) = some h) :
    step s = exec (handlerInstr h) s := by
  simp [step, fetch, hr, ht]

/-- A restart between two requests takes a step of its own (notes/assumptions/38). -/
theorem step_of_restart {s : State} (hr : s.resting = true) (ht : takeable (boundary s) = none)
    (hn : restartsNow s = true) : step s = .next (boundary s) := by
  simp [step, fetch, hr, ht, hn]

/-- With nothing takeable and no restart, FG's next request decides. -/
theorem fetch_eq_nextRequest {s : State} (hr : s.resting = true) (ht : takeable (boundary s) = none)
    (hn : restartsNow s = false) : fetch s = nextRequest s := by
  simp [fetch, hr, ht, hn]

theorem step_of_reject {s : State} {r : Refusal} (hr : s.resting = true) (ht : takeable (boundary s) = none)
    (hn : restartsNow s = false) (h : nextRequest s = .reject r) : step s = .refused r := by
  simp [step, fetch_eq_nextRequest hr ht hn, h]

theorem step_of_waiting {s : State} (hr : s.resting = true) (ht : takeable (boundary s) = none)
    (hn : restartsNow s = false) (h : nextRequest s = .waiting) : step s = .next (boundary s) := by
  simp [step, fetch_eq_nextRequest hr ht hn, h]

theorem nextRequest_of_exhausted {s : State} (hd : s.direct = none) (hq : s.reqs = []) : nextRequest s = .waiting := by
  simp [nextRequest, hd, hq, decode]

/-- Nothing is takeable between two requests exactly where neither request is. -/
theorem takeable_eq_none_iff {s : State} (h : s.irq.inIsr = none) :
    takeable s = none ↔ timerTakeable s.irq = false ∧ edgeTakeable s.irq = false := by
  cases ht : timerTakeable s.irq <;> cases he : edgeTakeable s.irq <;> simp [takeable, h, ht, he]

theorem takeable_timer {s : State} (h : s.irq.inIsr = none) (ht : timerTakeable s.irq = true)
    (he : edgeTakeable s.irq = false) : takeable s = some .tisr := by
  simp [takeable, h, ht, he]

theorem takeable_edge {s : State} (h : s.irq.inIsr = none) (ht : timerTakeable s.irq = false)
    (he : edgeTakeable s.irq = true) : takeable s = some .eisr := by
  simp [takeable, h, ht, he]

theorem takeable_restart (s : State) : takeable (restart s) = none := rfl

theorem takeable_readyEager (s : State) : takeable (readyEager s) = takeable s := rfl

/-- A boundary at which the environment makes one scripted move. -/
theorem boundary_of_move {s : State} {e : Event} {r : List (List Event)} (h : s.env.script = [e] :: r) :
    boundary s = readyEager (applyEvent { s with env := { s.env with script := r } } e) := by
  simp [boundary, scriptMoves, h, applyEvents]

theorem restartsNow_of_move {s : State} {e : Event} {r : List (List Event)} (h : s.env.script = [e] :: r) :
    restartsNow s = decide (e = .watchdog) := by
  simp [restartsNow, h, eq_comm]

theorem inIsr_of_resting {s : State} (h : s.resting = true) : s.irq.inIsr = none := by
  simp only [State.resting, Bool.and_eq_true, Option.isNone_iff_eq_none] at h
  exact h.1

/-- A handler handed over is no request, and gets the verdict of its event code (R82; notes/assumptions/14). -/
theorem step_of_handler_handedOver {s : State} {i : Instr} (hr : s.resting = true) (ht : takeable (boundary s) = none)
    (hn : restartsNow s = false) (hd : s.direct = some i) (hi : formatOf i = .event) :
    step s = .refused (.reservedOpcode ((encode s.cfg i).headD 0#8)) :=
  step_of_reject hr ht hn (by simp [nextRequest, hd, handedOver, hi])

section Move
variable {s : State} {r : List (List Event)}

/-- An enabled timer request raised at this boundary is taken here (R224). -/
theorem step_of_timerOverflow (hr : s.resting = true) (ht : takeable s = none)
    (hs : s.env.script = [.timerOverflow] :: r) (hrun : s.irq.tmrRun = true) (hie : s.irq.tmrIe = true) :
    step s = exec .timerIsr s := by
  have hisr := inIsr_of_resting hr
  obtain ⟨-, hedge⟩ := (takeable_eq_none_iff hisr).mp ht
  refine step_of_takeable (h := .tisr) hr ?_
  rw [boundary_of_move hs, takeable_readyEager]
  exact takeable_timer hisr (by simp [applyEvent, raiseTimer, timerTakeable, hrun, hie]) hedge

/-- A timer request raised while it is not enabled stays pending, and FG goes on waiting (R224). -/
theorem step_of_maskedOverflow (hr : s.resting = true) (ht : takeable s = none)
    (hs : s.env.script = [.timerOverflow] :: r) (hie : s.irq.tmrIe = false) (hd : s.direct = none) (hq : s.reqs = []) :
    step s = .next { readyEager s with
      env := { s.env with script := r }, irq := { s.irq with tmrPend := s.irq.tmrPend || s.irq.tmrRun } } := by
  have hisr := inIsr_of_resting hr
  obtain ⟨-, hedge⟩ := (takeable_eq_none_iff hisr).mp ht
  have hnone : takeable (boundary s) = none := by
    rw [boundary_of_move hs, takeable_readyEager]
    refine (takeable_eq_none_iff (s := applyEvent _ .timerOverflow) hisr).mpr ⟨?_, hedge⟩
    simp [applyEvent, raiseTimer, timerTakeable, hie]
  rw [step_of_waiting hr hnone (restartsNow_of_move hs) (nextRequest_of_exhausted hd hq), boundary_of_move hs]
  rfl

/-- An edge request raised at this boundary is taken here (R225). -/
theorem step_of_fallingEdge (hr : s.resting = true) (ht : takeable s = none)
    (hs : s.env.script = [.fallingEdge] :: r) (hie : s.irq.edgeIe = true) : step s = exec .edgeIsr s := by
  have hisr := inIsr_of_resting hr
  obtain ⟨htimer, -⟩ := (takeable_eq_none_iff hisr).mp ht
  refine step_of_takeable (h := .eisr) hr ?_
  rw [boundary_of_move hs, takeable_readyEager]
  exact takeable_edge hisr htimer (by simp [applyEvent, raiseEdge, edgeTakeable, hie])

/-- A restart keeps the requests not yet issued (R250). -/
theorem step_of_watchdog (hr : s.resting = true) (hs : s.env.script = [.watchdog] :: r) :
    step s = .next (boundary s) ∧ (boundary s).reqs = s.reqs := by
  have hb := boundary_of_move hs
  have hnone : takeable (boundary s) = none := by rw [hb, takeable_readyEager]; exact takeable_restart _
  exact ⟨step_of_restart hr hnone (restartsNow_of_move hs), by rw [hb]; rfl⟩

end Move

/-- Settles O52: what is in progress, then an interrupt, then a restart, then the verdict on FG's request. -/
theorem stepOtherwise : Obligations.StepOtherwise := by
  refine ⟨fun s h => step_of_not_resting h, fun s h hr ht => step_of_takeable hr ht, ?_, ?_⟩
  · intro s hr ht hn
    refine ⟨fun hd => step_of_handler_handedOver hr ht hn hd rfl, fun hd => step_of_handler_handedOver hr ht hn hd rfl,
      fun b hd hq => ?_, fun b hd hq => ?_, fun hd hq => step_of_waiting hr ht hn (nextRequest_of_exhausted hd hq)⟩
    · exact step_of_reject hr ht hn (by simp [nextRequest, hd, hq])
    · exact step_of_reject hr ht hn (by simp [nextRequest, hd, hq])
  · intro s r hr ht
    refine ⟨fun hs => ⟨fun hrun hie => step_of_timerOverflow hr ht hs hrun hie, fun hie hd hq => ?_⟩,
      fun hs hie => step_of_fallingEdge hr ht hs hie, fun hs => step_of_watchdog hr hs⟩
    exact step_of_maskedOverflow hr ht hs hie hd hq

end Sys2Proof.Machine
end

section
/-! PROOF. The LCD window and the reference module behind it (20_memory.md R57 to R62). -/

namespace Sys2Proof.Machine

/-! ## One byte moved into the window, as a whole operation -/

/-- The micro-step that moves a byte into the window: an ordinary write, or one of the wake-up writes (R62, R171). -/
def portPrim (wake : Bool) (v : Byte) : Prim := if wake then .wakePort v else .writePort v

theorem runPrim_portPrim (c : Ctx) (wake : Bool) (v : Byte) (s : State) :
    runPrim c (portPrim wake v) s = onLcd s (portWrite s.cfg wake v s.lcd) := by
  cases wake <;> rfl

/-- The latch, then the byte: whatever the module answers, LCDDEV has had its boundary before it. -/
theorem go_windowWrite {c : Ctx} {n : Nat} {m : BitVec 2} {wake : Bool} {v : Byte} {k : List Item} {s : State}
    (h : Running c s) :
    go c (n + 2) (.prim (.writeMode m) :: .prim (portPrim wake v) :: k) s =
      thenDo (onLcd s (portWrite s.cfg wake v { readyAtBoundary s.env.lcd s.lcd with mode := m })) (go c n k) := by
  have hmode : Running c { readyEager s with lcd := { (readyEager s).lcd with mode := m } } := h.congr rfl rfl
  have hready : readyAtBoundary s.env.lcd { readyAtBoundary s.env.lcd s.lcd with mode := m } =
      { readyAtBoundary s.env.lcd s.lcd with mode := m } := by
    simp [readyAtBoundary]
  rw [go_prim h]
  simp only [runPrim, thenDo_next]
  rw [go_prim hmode, runPrim_portPrim]
  simp only [readyEager_lcd, readyEager_env, readyEager_cfg, hready]
  cases portWrite s.cfg wake v { readyAtBoundary s.env.lcd s.lcd with mode := m } <;> rfl

/-- The expansion of an operation that writes one byte through the window and returns nothing. -/
def windowWriteCode (m : BitVec 2) (wake : Bool) (v : Byte) : List Item :=
  [.prim (.writeMode m), .prim (portPrim wake v), .ctl (.ret .none)]

/-- Such an operation ends as the module answers the byte. -/
theorem perform_windowWrite {i : Instr} {m : BitVec 2} {wake : Bool} {v : Byte} {s : State} (hs : s.calm = true) :
    perform i (windowWriteCode m wake v) s =
      onLcd (s.done .nothing) (portWrite s.cfg wake v { readyAtBoundary s.env.lcd s.lcd with mode := m }) := by
  obtain ⟨hisr, hidle, -⟩ := (calm_iff s).mp hs
  rw [perform_eq_go (resting_of_calm hs)]
  refine (go_windowWrite (n := 4094) (running_of_calm hs _)).trans ?_
  cases portWrite s.cfg wake v { readyAtBoundary s.env.lcd s.lcd with mode := m } with
  | accepted l =>
    simp only [onLcd, thenDo_next]
    rw [go_goOn rfl, go_nil_fg (by simpa using hisr)]
    congr 1
    exact finish_fg_of_idle (s := { s.done .nothing with lcd := l }) hidle _
  | busy => rfl
  | reject r => rfl

/-- With LCD_MODE = 0b00 the byte is a command (R58). -/
theorem portWrite_command (p : Params) (wake : Bool) (v : Byte) (l : Lcd) :
    portWrite p wake v { l with mode := 0b00#2 } = deliverCommand p wake v { l with mode := 0b00#2 } := rfl

/-- With LCD_MODE = 0b10 the byte is data (R58). -/
theorem portWrite_data (p : Params) (wake : Bool) (v : Byte) (l : Lcd) :
    portWrite p wake v { l with mode := 0b10#2 } = deliverData v { l with mode := 0b10#2 } := rfl

theorem deliverCommand_of_some {p : Params} {wake : Bool} {v : Byte} {l m : Lcd} (hb : (l.bf && !wake) = false)
    (h : acceptCommand p v l = some m) : deliverCommand p wake v l = .accepted m := by
  simp [deliverCommand, hb, h]

theorem deliverCommand_of_none {p : Params} {wake : Bool} {v : Byte} {l : Lcd} (hb : (l.bf && !wake) = false)
    (h : acceptCommand p v l = none) : deliverCommand p wake v l = .reject (.unlistedCommand v) := by
  simp [deliverCommand, hb, h]

theorem deliverCommand_of_busy {p : Params} {v : Byte} {l : Lcd} (hb : l.bf = true) :
    deliverCommand p false v l = .busy := by
  simp [deliverCommand, hb]

theorem deliverData_of_ready {v : Byte} {l : Lcd} (hb : l.bf = false) : deliverData v l = .accepted (acceptData v l) := by
  simp [deliverData, hb]

theorem deliverData_of_busy {v : Byte} {l : Lcd} (hb : l.bf = true) : deliverData v l = .busy := by
  simp [deliverData, hb]

/-- Off the schedule L-eager a boundary leaves the module as it is. -/
theorem readyAtBoundary_of_ne_eager {k : LcdSched} (h : k ≠ .eager) (l : Lcd) : readyAtBoundary k l = l := by
  simp [readyAtBoundary, beq_false_of_ne h]

/-! ## An operation that writes one command or one data byte -/

section Write
variable {i : Instr} {v : Byte} {l : Lcd} {s : State}

theorem perform_cmd_of_some (hs : s.calm = true) (hf : s.lcdFree = true)
    (h : acceptCommand s.cfg v { s.lcd with mode := 0b00#2, bf := false } = some l) :
    perform i (cmdCode v ++ [.ctl (.ret .none)]) s = .next { s.done .nothing with lcd := l } := by
  refine (perform_windowWrite (m := 0b00#2) (wake := false) hs).trans ?_
  rw [readyAtBoundary_free hf, portWrite_command, deliverCommand_of_some rfl h]
  rfl

theorem perform_cmd_of_none (hs : s.calm = true) (hf : s.lcdFree = true)
    (h : acceptCommand s.cfg v { s.lcd with mode := 0b00#2, bf := false } = none) :
    perform i (cmdCode v ++ [.ctl (.ret .none)]) s = .refused (.unlistedCommand v) := by
  refine (perform_windowWrite (m := 0b00#2) (wake := false) hs).trans ?_
  rw [readyAtBoundary_free hf, portWrite_command, deliverCommand_of_none rfl h]
  rfl

theorem perform_cmd_of_busy (hs : s.calm = true) (hb : s.lcd.bf = true) (he : s.env.lcd ≠ .eager) :
    perform i (cmdCode v ++ [.ctl (.ret .none)]) s = .fault .lcdBusyWrite := by
  refine (perform_windowWrite (m := 0b00#2) (wake := false) hs).trans ?_
  rw [readyAtBoundary_of_ne_eager he, portWrite_command, deliverCommand_of_busy (l := { s.lcd with mode := 0b00#2 }) hb]
  rfl

theorem perform_data_of_free (hs : s.calm = true) (hf : s.lcdFree = true) :
    perform i (dataCode v ++ [.ctl (.ret .none)]) s =
      .next { s.done .nothing with lcd := acceptData v { s.lcd with mode := 0b10#2, bf := false } } := by
  refine (perform_windowWrite (m := 0b10#2) (wake := false) hs).trans ?_
  rw [readyAtBoundary_free hf, portWrite_data, deliverData_of_ready rfl]
  rfl

theorem perform_data_of_busy (hs : s.calm = true) (hb : s.lcd.bf = true) (he : s.env.lcd ≠ .eager) :
    perform i (dataCode v ++ [.ctl (.ret .none)]) s = .fault .lcdBusyWrite := by
  refine (perform_windowWrite (m := 0b10#2) (wake := false) hs).trans ?_
  rw [readyAtBoundary_of_ne_eager he, portWrite_data, deliverData_of_busy (l := { s.lcd with mode := 0b10#2 }) hb]
  rfl

/-- A wake-up write is accepted whatever BF is (R62). -/
theorem perform_wake_of_some (hs : s.calm = true)
    (h : acceptCommand s.cfg v { readyAtBoundary s.env.lcd s.lcd with mode := 0b00#2 } = some l) :
    perform i (wakeCode v ++ [.ctl (.ret .none)]) s = .next { s.done .nothing with lcd := l } := by
  refine (perform_windowWrite (m := 0b00#2) (wake := true) hs).trans ?_
  rw [portWrite_command, deliverCommand_of_some (Bool.and_false _) h]
  rfl

end Write

/-! ## The rows that write one byte -/

/-- A command row but the wake-up row writes its own byte as a command (R92). -/
theorem exec_commandRow {i : Instr} (hi : formatOf i = .lcdCmd) (hw : i ≠ .cmdFsWake) (s : State) :
    ∃ v, encode s.cfg i = [v] ∧ exec i s = perform i (cmdCode v ++ [.ctl (.ret .none)]) s := by
  cases i with
  | cmdFsWake => exact absurd rfl hw
  | setDdramAddr a => exact ⟨_, rfl, rfl⟩
  | setCgramAddr slot row => exact ⟨_, rfl, rfl⟩
  | cmdFsFinal => exact ⟨_, rfl, rfl⟩
  | cmdDisplayOff => exact ⟨_, rfl, rfl⟩
  | cmdClear => exact ⟨_, rfl, rfl⟩
  | cmdEntryInc => exact ⟨_, rfl, rfl⟩
  | cmdHome => exact ⟨_, rfl, rfl⟩
  | _ => cases hi

/-- The three rows that write one data byte write it as data (R94, R151). -/
theorem exec_of_dataByte {i : Instr} {v : Byte} (h : dataByte i = some v) (s : State) :
    exec i s = perform i (dataCode v ++ [.ctl (.ret .none)]) s := by
  cases i with
  | lcdDatawr b => cases h; rfl
  | lcdDataDd b => cases h; rfl
  | lcdDataCg x q => cases h; rfl
  | _ => cases h

/-- Settles O23: with BF = 1 at the write, a command and a data byte fault alike, before the byte itself is looked at. -/
theorem busyWriteFaults : Obligations.BusyWriteFaults := by
  intro i s hi hs hb he
  have data : ∀ {v}, dataByte i = some v → exec i s = .fault .lcdBusyWrite := fun hv =>
    (exec_of_dataByte hv s).trans (perform_data_of_busy hs hb he)
  rcases hi with ⟨v, rfl⟩ | ⟨v, rfl⟩ | ⟨v, rfl⟩ | ⟨x, q, rfl⟩ | ⟨hf, hw⟩
  · exact perform_cmd_of_busy hs hb he
  · exact data rfl
  · exact data rfl
  · exact data rfl
  · obtain ⟨v, -, hv⟩ := exec_commandRow hf hw s
    exact hv.trans (perform_cmd_of_busy hs hb he)

/-! ## The bytes the module accepts as commands (R60) -/

theorem getLsbD_seven (v : Byte) : v.getLsbD 7 = (v.extractLsb 7 6).getLsbD 1 := by simp

theorem getLsbD_six (v : Byte) : v.getLsbD 6 = (v.extractLsb 7 6).getLsbD 0 := by simp

/-- R60: a byte below 0x40 has bits 7:6 = 0b00. -/
theorem extractLsb_of_lt {v : Byte} (h : v.toNat < 0x40) : v.extractLsb 7 6 = 0b00#2 := by
  apply BitVec.eq_of_toNat_eq
  simp only [BitVec.extractLsb_toNat, BitVec.toNat_ofNat, Nat.shiftRight_eq_div_pow]
  omega

/-- The constraints on the six bytes, as the decoding uses them (R60). -/
structure CommandsTold (p : Params) : Prop where
  low : ∀ v ∈ p.commandBytes, v.extractLsb 7 6 = 0b00#2
  home_clear : p.cmdHome ≠ p.cmdClear
  entry_clear : p.cmdEntryInc ≠ p.cmdClear
  entry_home : p.cmdEntryInc ≠ p.cmdHome
  off_clear : p.cmdDisplayOff ≠ p.cmdClear
  off_home : p.cmdDisplayOff ≠ p.cmdHome
  off_entry : p.cmdDisplayOff ≠ p.cmdEntryInc
  functionSet : ∀ v, v = p.cmdFsWake ∨ v = p.cmdFsFinal →
    v ≠ p.cmdClear ∧ v ≠ p.cmdHome ∧ v ≠ p.cmdEntryInc ∧ v ≠ p.cmdDisplayOff

theorem commandsTold_of_legal {p : Params} (h : p.legal = true) : CommandsTold p := by
  simp only [Params.legal, Params.commandsInRange, Params.commandsApart, Bool.and_eq_true, decide_eq_true_eq,
    List.all_eq_true] at h
  obtain ⟨⟨⟨⟨⟨hrange, hwake, hfinal⟩, -⟩, -⟩, -⟩, -⟩ := h
  simp only [List.nodup_cons, List.mem_cons, List.not_mem_nil, not_or] at hwake hfinal
  obtain ⟨⟨wo, wc, we, wh, -⟩, ⟨oc, oe, oh, -⟩, ⟨ce, ch, -⟩, ⟨eh, -⟩, -⟩ := hwake
  obtain ⟨⟨fo, fc, fe, fh, -⟩, -⟩ := hfinal
  refine ⟨fun v hv => extractLsb_of_lt (hrange v hv), Ne.symm ch, Ne.symm ce, eh, oc, oh, oe, ?_⟩
  rintro v (rfl | rfl)
  · exact ⟨wc, wh, we, wo⟩
  · exact ⟨fc, fh, fe, fo⟩

section Accept
variable {p : Params} {v : Byte} (l : Lcd)

theorem acceptCommand_ddram (h : v.getLsbD 7 = true) :
    acceptCommand p v l = some { l with ac := v.extractLsb 6 0, ramsel := .dd, bf := true } :=
  if_pos h

theorem acceptCommand_cgram (h : v.extractLsb 7 6 = 0b01#2) :
    acceptCommand p v l = some { l with ac := 0#1 ++ v.extractLsb 5 0, ramsel := .cg, bf := true } := by
  have h7 : v.getLsbD 7 = false := by rw [getLsbD_seven, h]; rfl
  have h6 : v.getLsbD 6 = true := by rw [getLsbD_six, h]; rfl
  rw [acceptCommand, h7, h6]
  rfl

/-- With bits 7:6 = 0b00 the byte is looked up among the six. -/
theorem acceptCommand_low (h : v.extractLsb 7 6 = 0b00#2) :
    acceptCommand p v l =
      if v = p.cmdClear then
        some { l with
          ddram := Memory.fill Config.blank l.ddram Config.blank visibleAddrs, ac := 0#7, ramsel := .dd, bf := true }
      else if v = p.cmdHome then some { l with ac := 0#7, ramsel := .dd, bf := true }
      else if v = p.cmdEntryInc then some { l with entryInc := true, bf := true }
      else if v = p.cmdDisplayOff then some { l with displayOn := false, bf := true }
      else if v = p.cmdFsWake ∨ v = p.cmdFsFinal then some { l with func := v, bf := true }
      else none := by
  have h7 : v.getLsbD 7 = false := by rw [getLsbD_seven, h]; rfl
  have h6 : v.getLsbD 6 = false := by rw [getLsbD_six, h]; rfl
  rw [acceptCommand, h7, h6]
  rfl

theorem acceptCommand_unlisted (h : v.extractLsb 7 6 = 0b00#2) (hv : v ∉ p.commandBytes) : acceptCommand p v l = none := by
  simp only [Params.commandBytes, List.mem_cons, List.not_mem_nil, or_false, not_or] at hv
  obtain ⟨hwake, hfinal, hoff, hclear, hentry, hhome⟩ := hv
  simp [acceptCommand_low l h, hwake, hfinal, hoff, hclear, hentry, hhome]

variable (hp : CommandsTold p)
include hp

theorem acceptCommand_clear :
    acceptCommand p p.cmdClear l = some { l with
      ddram := Memory.fill Config.blank l.ddram Config.blank visibleAddrs, ac := 0#7, ramsel := .dd, bf := true } := by
  rw [acceptCommand_low l (hp.low _ (by simp [Params.commandBytes])), if_pos rfl]

theorem acceptCommand_home : acceptCommand p p.cmdHome l = some { l with ac := 0#7, ramsel := .dd, bf := true } := by
  rw [acceptCommand_low l (hp.low _ (by simp [Params.commandBytes])), if_neg hp.home_clear, if_pos rfl]

theorem acceptCommand_entryInc : acceptCommand p p.cmdEntryInc l = some { l with entryInc := true, bf := true } := by
  rw [acceptCommand_low l (hp.low _ (by simp [Params.commandBytes])), if_neg hp.entry_clear, if_neg hp.entry_home,
    if_pos rfl]

theorem acceptCommand_displayOff : acceptCommand p p.cmdDisplayOff l = some { l with displayOn := false, bf := true } := by
  rw [acceptCommand_low l (hp.low _ (by simp [Params.commandBytes])), if_neg hp.off_clear, if_neg hp.off_home,
    if_neg hp.off_entry, if_pos rfl]

theorem acceptCommand_functionSet (hv : v = p.cmdFsWake ∨ v = p.cmdFsFinal) :
    acceptCommand p v l = some { l with func := v, bf := true } := by
  have hlow : v.extractLsb 7 6 = 0b00#2 := hp.low v (by rcases hv with rfl | rfl <;> simp [Params.commandBytes])
  obtain ⟨hclear, hhome, hentry, hoff⟩ := hp.functionSet v hv
  rw [acceptCommand_low l hlow, if_neg hclear, if_neg hhome, if_neg hentry, if_neg hoff, if_pos hv]

end Accept

/-! ## The commands -/

/-- Settles O20: a wake-up write passes the busy test, and its byte is a function-set. -/
theorem wakeCommandIgnoresBusy : Obligations.WakeCommandIgnoresBusy := by
  intro s hs hp
  exact perform_wake_of_some hs (acceptCommand_functionSet _ (commandsTold_of_legal hp) (.inl rfl))

/-- Settles O22: none of the table's tests holds of such a byte. -/
theorem unlistedCommandRefused : Obligations.UnlistedCommandRefused := by
  intro v s hv hn hs hf
  exact perform_cmd_of_none hs hf (acceptCommand_unlisted _ hv hn)

/-- The CGRAM-address command carries slot and row in its low six bits (R92). -/
theorem setCgram_bits : ∀ slot row : BitVec 3, (0b01#2 ++ slot ++ row).extractLsb 7 6 = 0b01#2 ∧
    0#1 ++ (0b01#2 ++ slot ++ row).extractLsb 5 0 = 0#1 ++ slot ++ row := by
  decide

/-- Settles O18: each row's byte is a byte of the first two clauses. -/
theorem addressCommandsSetAddress : Obligations.AddressCommandsSetAddress := by
  intro s hs hf
  refine ⟨fun v hv => ?_, fun v hv => ?_, fun a => ?_, fun slot row => ?_⟩
  · exact perform_cmd_of_some hs hf (acceptCommand_ddram _ hv)
  · exact perform_cmd_of_some hs hf (acceptCommand_cgram _ hv)
  · exact perform_cmd_of_some hs hf (acceptCommand_setAddr s.cfg a _)
  · obtain ⟨hsel, haddr⟩ := setCgram_bits slot row
    rw [← haddr]
    exact perform_cmd_of_some hs hf (acceptCommand_cgram _ hsel)

/-- Clear-display leaves every visible cell BLANK and no other cell touched (R60). -/
theorem read_clear {m : Memory} (h : Memory.wf Config.blank m = true) (a : Nat) :
    Memory.read Config.blank (Memory.fill Config.blank m Config.blank visibleAddrs) a =
      if a ∈ visibleAddrs then Config.blank else Memory.read Config.blank m a := by
  rw [Memory.fill_eq, Memory.read_fillWith h]

/-- Settles O19: the six bytes are told apart, so each named command reaches its own row of R60's table. -/
theorem namedCommandsTakeEffect : Obligations.NamedCommandsTakeEffect := by
  intro s hs hf hp hwf
  have told := commandsTold_of_legal hp
  refine ⟨⟨_, perform_cmd_of_some hs hf (acceptCommand_clear _ told), read_clear hwf⟩, ?_, ?_, ?_, ?_⟩
  · exact perform_cmd_of_some hs hf (acceptCommand_home _ told)
  · exact perform_cmd_of_some hs hf (acceptCommand_entryInc _ told)
  · exact perform_cmd_of_some hs hf (acceptCommand_displayOff _ told)
  · exact perform_cmd_of_some hs hf (acceptCommand_functionSet _ told (.inr rfl))

/-! ## A data byte (R57) -/

/-- The four windows are the addresses the module has a cell for (R30, R55). -/
theorem visible_iff_mem (a : BitVec 7) : visible a = true ↔ a.toNat ∈ visibleAddrs := by
  have := a.isLt
  simp only [visible, cursorPos, visibleAddrs, List.mem_append, List.mem_range, List.mem_range'_1]
  split_ifs <;> simp <;> omega

theorem read_writeDdram {m : Memory} (h : Memory.wf Config.blank m = true) (x : BitVec 7) (v : Byte) (a : Nat) :
    Memory.read Config.blank (writeDdram m x v) a =
      if a = x.toNat ∧ a ∈ visibleAddrs then v else Memory.read Config.blank m a := by
  unfold writeDdram
  split
  · rename_i hx
    have hiff : a = x.toNat ↔ a = x.toNat ∧ a ∈ visibleAddrs :=
      ⟨fun e => ⟨e, e ▸ (visible_iff_mem x).mp hx⟩, And.left⟩
    rw [Memory.read_write h, if_congr hiff rfl rfl]
  · rename_i hx
    rw [if_neg]
    rintro ⟨rfl, ha⟩
    exact hx ((visible_iff_mem x).mpr ha)

theorem read_ddramAfter {l : Lcd} (h : Memory.wf Config.blank l.ddram = true) (v : Byte) (a : Nat) :
    Memory.read Config.blank (ddramAfter l v) a =
      if l.ramsel = .dd ∧ a = l.ac.toNat ∧ a ∈ visibleAddrs then v else Memory.read Config.blank l.ddram a := by
  cases hr : l.ramsel <;> simp [ddramAfter, hr, read_writeDdram h]

theorem read_cgramAfter {l : Lcd} (h : Memory.wf Config.unwritten l.cgram = true) (v : Byte) (a : Nat) :
    Memory.read Config.unwritten (cgramAfter l v) a =
      if l.ramsel = .cg ∧ a = l.ac.toNat % 64 then v &&& 0x1F#8 else Memory.read Config.unwritten l.cgram a := by
  have hcell : (l.ac.extractLsb 5 0).toNat = l.ac.toNat % 64 := by simp
  cases hr : l.ramsel <;> simp [cgramAfter, hr, writeCgram, Memory.read_write h, hcell]

/-- With ENTRY_INC = 1 AC advances in the memory RAMSEL selects. -/
theorem acceptData_of_entryInc (v : Byte) {l : Lcd} (h : l.entryInc = true) :
    acceptData v l = { l with
      bf := true, ddram := ddramAfter l v, cgram := cgramAfter l v
      ac := if l.ramsel = .dd then l.ac + 1#7 else l.ac.extractLsb 6 6 ++ (l.ac.extractLsb 5 0 + 1#6) } := by
  simp only [acceptData, h, if_true, ddramAfter, cgramAfter]
  cases l.ramsel <;> rfl

/-- With ENTRY_INC = 0 AC is drawn (U9). -/
theorem acceptData_of_not_entryInc (v : Byte) {l : Lcd} (h : l.entryInc = false) :
    acceptData v l = { l with
      bf := true, ddram := ddramAfter l v, cgram := cgramAfter l v
      ac := Config.any .lcd 7 l.draws, draws := l.draws + 1 } := by
  simp only [acceptData, h, Bool.false_eq_true, if_false, ddramAfter, cgramAfter]

/-- Settles O24: the free module accepts the byte, and the memories read as R57 says. -/
theorem dataByteStoredAndAdvances : Obligations.DataByteStoredAndAdvances := by
  intro i v s hv hs hf hinc hwf
  simp only [Lcd.memoriesWf, Bool.and_eq_true] at hwf
  obtain ⟨⟨⟨hdd, -⟩, hcg⟩, -⟩ := hwf
  refine ⟨ddramAfter s.lcd v, cgramAfter s.lcd v, ?_, read_ddramAfter hdd v, read_cgramAfter hcg v⟩
  rw [exec_of_dataByte hv, perform_data_of_free hs hf,
    acceptData_of_entryInc v (l := { s.lcd with mode := 0b10#2, bf := false }) hinc]
  rfl

/-- Settles O25: the free module accepts the byte, and the new AC is the value drawn. -/
theorem dataByteWithoutEntryMode : Obligations.DataByteWithoutEntryMode := by
  intro i v s hv hs hf hinc
  refine ⟨Config.any .lcd 7 s.lcd.draws, ?_⟩
  rw [exec_of_dataByte hv, perform_data_of_free hs hf,
    acceptData_of_not_entryInc v (l := { s.lcd with mode := 0b10#2, bf := false }) hinc]
  rfl

end Sys2Proof.Machine
end

section
/-! PROOF. The reference slaves' first byte (20_memory.md R66 to R69). -/

namespace Sys2Proof.Machine

/-! ## A start condition and a first byte, as a whole operation -/

theorem busFree_iff (s : State) : s.busFree = true ↔
    s.bus.ee.slave = Slave.unaddressed ∧ s.bus.iox.slave = Slave.unaddressed ∧ s.bus.ee.pend = none ∧
      s.bus.extDrive = true ∧ s.bus.extScript = [] := by
  simp only [State.busFree, Bool.and_eq_true, decide_eq_true_eq, and_assoc]

/-- Setting a slave's bit engine to what it is changes nothing. -/
theorem Eeprom.with_slave {e : Eeprom} {x : Slave} (h : e.slave = x) : { e with slave := x } = e := by rw [← h]

theorem Expander.with_slave {e : Expander} {x : Slave} (h : e.slave = x) : { e with slave := x } = e := by rw [← h]

/-- The bus after a start condition that only the reference slaves hear (R111, R66, R68). -/
def Bus.started (p : Params) (b : Bus) : Bus :=
  { b with
    sclOut := false, sdaOut := false
    ee := { b.ee with slave := slaveStart p.eePresent }
    iox := { b.iox with slave := slaveStart p.ioxPresent } }

theorem extFall_of_silent {b : Bus} (hd : b.extDrive = true) (hs : b.extScript = []) : extFall b = b := by
  simp only [extFall, hs, List.headD_nil, List.tail_nil]
  rw [← hd, ← hs]

theorem busRun_startFree {s : State} (h : s.busFree = true) :
    busRun s.cfg startWires s.bus = .ok (s.bus.started s.cfg) := by
  obtain ⟨hee, hiox, hpend, hext, hscript⟩ := (busFree_iff s).mp h
  have hwire : slvSda s.bus = true := by simp [slvSda, hee, hiox, hext, Slave.unaddressed]
  rw [busRun_start hwire hpend, extFall_of_silent hext hscript]
  rfl

theorem started_ready {s : State} (h : s.busFree = true) : (s.bus.started s.cfg).Ready := by
  obtain ⟨-, -, -, hext, hscript⟩ := (busFree_iff s).mp h
  exact ⟨rfl, hext, hscript⟩

/-- A start condition, then byte v: the wires carry both, and the result is the acknowledgment. -/
theorem perform_firstByte {i : Instr} {v : Byte} {b : Bus} {s : State} (hs : s.calm = true) (hf : s.busFree = true)
    (hb : busRun s.cfg (sendWires v) (s.bus.started s.cfg) = .ok b) :
    perform i (busStartCode ++ busSendCode v ++ [.ctl (.ret .ack)]) s = .next { s.done (.ack b.ack) with bus := b } := by
  obtain ⟨hisr, hidle, -⟩ := (calm_iff s).mp hs
  have hrun := running_of_calm hs { op := some i, rest := [], tr := Transients.none }
  refine perform_of_go 32 (by decide) (resting_of_calm hs) ?_ (by simp [State.resting, State.done, hisr, hidle, Seq.idle])
  rw [List.append_assoc, go_busStart (n := 28) hrun]
  simp only [busRun_startFree hf, thenBus_ok]
  rw [go_busSend (n := 0) v (hrun.onBusTr _ _)]
  simp only [onBusTr_cfg, onBusTr_bus, onBusTr_twice, hb, thenBus_ok]
  rw [go_goOn rfl, go_nil_fg (by simpa using hisr)]
  congr 1
  exact finish_fg_of_idle (s := { s.done (.ack b.ack) with bus := b }) hidle _

/-- An operation that neither reference slave answers leaves them unaddressed, as they were. -/
theorem perform_firstByte_unanswered {i : Instr} {v : Byte} {s : State} (hs : s.calm = true) (hf : s.busFree = true)
    (hee : s.cfg.eePresent = true → ¬ (v.extractLsb 7 4 = 0b1010#4 ∧ s.bus.ee.wbusy = false))
    (hiox : s.cfg.ioxPresent = true → v ≠ s.cfg.ioxAddrW ∧ v ≠ s.cfg.ioxAddrR) :
    perform i (busStartCode ++ busSendCode v ++ [.ctl (.ret .ack)]) s =
      .next { s.done (.ack true) with bus := { s.bus with sclOut := false, sdaOut := true, ack := true } } := by
  obtain ⟨hes, hxs, -⟩ := (busFree_iff s).mp hf
  rw [perform_firstByte hs hf (busRun_firstNack v (started_ready hf) rfl rfl hee hiox)]
  simp only [Bus.started, Eeprom.with_slave hes, Expander.with_slave hxs]

/-! ## The control byte (R66, R89) -/

/-- `1010pppr` (R89). -/
theorem controlByte_setWidth : ∀ (page : BitVec 3) (rw : Bit),
    controlByte (page.setWidth 8) rw = 0b1010#4 ++ page ++ BitVec.ofBool rw := by
  decide

theorem controlByte_type : ∀ (page : BitVec 3) (rw : Bit),
    (controlByte (page.setWidth 8) rw).extractLsb 7 4 = 0b1010#4 := by
  decide

theorem controlByte_page : ∀ (page : BitVec 3) (rw : Bit), (controlByte (page.setWidth 8) rw).extractLsb 3 1 = page := by
  decide

theorem controlByte_rw : ∀ (page : BitVec 3) (rw : Bit), (controlByte (page.setWidth 8) rw).getLsbD 0 = rw := by
  decide

/-- R65: the expander's two addresses differ and neither is a control byte. -/
theorem expanderApart_of_legal {p : Params} (h : p.legal = true) :
    p.ioxAddrW ≠ p.ioxAddrR ∧ p.ioxAddrW.extractLsb 7 4 ≠ 0b1010#4 ∧ p.ioxAddrR.extractLsb 7 4 ≠ 0b1010#4 := by
  simp only [Params.legal, Params.expanderApart, Bool.and_eq_true, decide_eq_true_eq] at h
  obtain ⟨⟨⟨⟨-, ⟨hne, hw⟩, hr⟩, -⟩, -⟩, -⟩ := h
  exact ⟨hne, hw, hr⟩

/-- So the expander does not answer a control byte. -/
theorem ne_ioxAddr_of_type {p : Params} {v : Byte} (h : p.legal = true) (hv : v.extractLsb 7 4 = 0b1010#4) :
    v ≠ p.ioxAddrW ∧ v ≠ p.ioxAddrR := by
  obtain ⟨-, hw, hr⟩ := expanderApart_of_legal h
  exact ⟨fun e => hw (e ▸ hv), fun e => hr (e ▸ hv)⟩

/-- Settles O6: the EEPROM answers exactly where it is on the bus and not in its write cycle. -/
theorem eeControlByteSelectsPage : Obligations.EeControlByteSelectsPage := by
  intro page rw s hs hf hp ho
  obtain ⟨-, hxs, -⟩ := (busFree_iff s).mp hf
  have htype := controlByte_type page rw
  have hiox := ne_ioxAddr_of_type hp htype
  cases ha : s.eepromAnswers with
  | false =>
    refine perform_firstByte_unanswered hs hf (fun hpe hbusy => ?_) fun _ => hiox
    simp [State.eepromAnswers, hpe, hbusy.2] at ha
  | true =>
    simp only [State.eepromAnswers, Bool.and_eq_true, Bool.not_eq_true'] at ha
    obtain ⟨hpe, hready⟩ := ha
    have hstart : (s.bus.started s.cfg).ee.slave = slaveStart true := by rw [← hpe]; rfl
    refine (perform_firstByte hs hf
      (busRun_control _ ho (started_ready hf) hstart rfl htype hready fun _ => hiox)).trans ?_
    simp only [Bus.started, controlByte_page, controlByte_rw, Expander.with_slave hxs, if_true]
    cases rw with
    | false => rw [controlByte_setWidth]; rfl
    | true => rfl

/-! ## The expander's address bytes (R68, R91) -/

/-- Settles O16: each address byte, with the expander on the bus and without. -/
theorem ioxAddressBytesAnswered : Obligations.IoxAddressBytesAnswered := by
  intro s hs hf hp ho
  obtain ⟨hes, hxs, -⟩ := (busFree_iff s).mp hf
  obtain ⟨hne, hw, hr⟩ := expanderApart_of_legal hp
  cases hpi : s.cfg.ioxPresent with
  | false =>
    have silent : s.cfg.ioxPresent ≠ true := by simp [hpi]
    have unanswered : ∀ {i v}, v.extractLsb 7 4 ≠ 0b1010#4 →
        perform i (busStartCode ++ busSendCode v ++ [.ctl (.ret .ack)]) s =
          .next { s.done (.ack true) with bus := { s.bus with sclOut := false, sdaOut := true, ack := true } } :=
      fun hv => perform_firstByte_unanswered hs hf (fun _ h => hv h.1) fun h => absurd h silent
    simp only [Bool.not_false, Bool.false_eq_true, if_false, Expander.with_slave hxs]
    exact ⟨unanswered hw, unanswered hr⟩
  | true =>
    have hstart : (s.bus.started s.cfg).iox.slave = slaveStart true := by rw [← hpi]; rfl
    refine ⟨(perform_firstByte hs hf (busRun_ioxWrite ho (started_ready hf) rfl hstart hw)).trans ?_,
      (perform_firstByte hs hf (busRun_ioxRead ho (started_ready hf) rfl hstart hr hne.symm)).trans ?_⟩ <;>
    · simp only [Bus.started, Eeprom.with_slave hes]
      rfl

end Sys2Proof.Machine
end

section
/-! PROOF. The request stream (30_encoding.md R80, R81, R83, R85, R86): encoder and decoder are inverse, and a step
runs what the decoder reads. -/

namespace Sys2Proof.Machine

/-! ## From a request to its bytes and back -/

/-- R85: the length byte of a text of at most 255 characters names the text's length. -/
theorem decodePuts_encoded {text : List Byte} (h : text.length ≤ 255) (op : Byte) (r : List Byte) :
    decodePuts op (BitVec.ofNat 8 text.length :: (text ++ r)) = .request (.lcdPuts text) r := by
  have hlen : (BitVec.ofNat 8 text.length).toNat = text.length := by
    rw [BitVec.toNat_ofNat]
    exact Nat.mod_eq_of_lt (by omega)
  simp [decodePuts, hlen]

/-- R85: the eight row bytes follow the slot. -/
theorem decodeGlyph_encoded (op slot : Byte) (rows : Vector Byte 8) (r : List Byte) :
    decodeGlyph op (slot :: (rows.toList ++ r)) = .request (.lcdGlyph slot rows) r := by
  obtain ⟨⟨l⟩, h⟩ := rows
  match l, h with
  | [_, _, _, _, _, _, _, _], _ => rfl

/-- Settles O53: each opcode byte leads to its own row of the map, whose operands are as many bytes as were written. -/
theorem requestRoundTrip : Obligations.RequestRoundTrip := by
  intro p i r hwf hi
  cases i with
  | lcdPuts text => exact decodePuts_encoded (of_decide_eq_true hwf) 0x2B#8 r
  | lcdGlyph slot rows => exact decodeGlyph_encoded 0x2C#8 slot rows r
  | busStart | busStop | busSend | busRecv | busNoack | eeWrite | eeRead | ioxCfg | ioxRead | lcdCmdwr | lcdDatawr
  | lcdStatrd | lcdWait | lcdInit | lcdGoto | lcdPutc | clkStart | clkStop | clkReset | clkRead | edgeRead
  | edgeReset => rfl
  | _ => cases hi

/-! ## From the bytes to the request -/

/-- Where d is the decoder's verdict on the bytes bs: if it is a request, bs begins with that request's encoding. -/
def ReadsOnly (p : Params) (bs : List Byte) (d : Decoded) : Prop :=
  ∀ i r, d = .request i r → bs = encode p i ++ r ∧ formatOf i = .request

section Rows
variable {p : Params} {op c : Byte} {t : List Byte}

/-- One row of the opcode map: its opcode byte c, or one of the rows after it. -/
theorem readsOnly_row {d e : Decoded} (hd : op = c → ReadsOnly p (op :: t) d) (he : ReadsOnly p (op :: t) e) :
    ReadsOnly p (op :: t) (if op = c then d else e) := by
  split
  · exact hd ‹_›
  · exact he

theorem readsOnly_none {i : Instr} (h : encode p i = [c] ∧ formatOf i = .request) :
    op = c → ReadsOnly p (op :: t) (decodeNone i t) := by
  rintro rfl j r hd
  cases hd
  exact ⟨by rw [h.1]; rfl, h.2⟩

theorem readsOnly_one {f : Byte → Instr} (h : ∀ a, encode p (f a) = [c, a] ∧ formatOf (f a) = .request) :
    op = c → ReadsOnly p (op :: t) (decodeOne op f t) := by
  rintro rfl j r hd
  match t, hd with
  | a :: _, rfl => exact ⟨by rw [(h a).1]; rfl, (h a).2⟩

theorem readsOnly_two {f : Byte → Byte → Instr}
    (h : ∀ a b, encode p (f a b) = [c, a, b] ∧ formatOf (f a b) = .request) :
    op = c → ReadsOnly p (op :: t) (decodeTwo op f t) := by
  rintro rfl j r hd
  match t, hd with
  | a :: b :: _, rfl => exact ⟨by rw [(h a b).1]; rfl, (h a b).2⟩

theorem readsOnly_three {f : Byte → Byte → Byte → Instr}
    (h : ∀ x y z, encode p (f x y z) = [c, x, y, z] ∧ formatOf (f x y z) = .request) :
    op = c → ReadsOnly p (op :: t) (decodeThree op f t) := by
  rintro rfl j r hd
  match t, hd with
  | x :: y :: z :: _, rfl => exact ⟨by rw [(h x y z).1]; rfl, (h x y z).2⟩

/-- The text taken has the length the length byte names (R85). -/
theorem readsOnly_puts : op = 0x2B#8 → ReadsOnly p (op :: t) (decodePuts op t) := by
  rintro rfl j r hd
  cases t with
  | nil => cases hd
  | cons n u =>
    by_cases hn : n.toNat ≤ u.length
    · rw [decodePuts, if_pos hn] at hd
      cases hd
      simp [encode, formatOf, Nat.min_eq_left hn]
    · rw [decodePuts, if_neg hn] at hd
      cases hd

theorem readsOnly_glyph : op = 0x2C#8 → ReadsOnly p (op :: t) (decodeGlyph op t) := by
  rintro rfl j r hd
  match t, hd with
  | _ :: _ :: _ :: _ :: _ :: _ :: _ :: _ :: _ :: _, rfl => exact ⟨rfl, rfl⟩

theorem readsOnly_reserved : ReadsOnly p (op :: t) (.invalid op) := fun _ _ hd => by cases hd

/-- The opcode map row by row (R81). -/
theorem readsOnly_decodeOpcode (p : Params) (op : Byte) (t : List Byte) :
    ReadsOnly p (op :: t) (decodeOpcode op t) := by
  unfold decodeOpcode
  refine readsOnly_row (readsOnly_none (i := .busStart) ⟨rfl, rfl⟩) ?_
  refine readsOnly_row (readsOnly_none (i := .busStop) ⟨rfl, rfl⟩) ?_
  refine readsOnly_row (readsOnly_one (f := .busSend) fun _ => ⟨rfl, rfl⟩) ?_
  refine readsOnly_row (readsOnly_none (i := .busRecv) ⟨rfl, rfl⟩) ?_
  refine readsOnly_row (readsOnly_none (i := .busNoack) ⟨rfl, rfl⟩) ?_
  refine readsOnly_row (readsOnly_three (f := .eeWrite) fun _ _ _ => ⟨rfl, rfl⟩) ?_
  refine readsOnly_row (readsOnly_two (f := .eeRead) fun _ _ => ⟨rfl, rfl⟩) ?_
  refine readsOnly_row (readsOnly_one (f := .ioxCfg) fun _ => ⟨rfl, rfl⟩) ?_
  refine readsOnly_row (readsOnly_none (i := .ioxRead) ⟨rfl, rfl⟩) ?_
  refine readsOnly_row (readsOnly_one (f := .lcdCmdwr) fun _ => ⟨rfl, rfl⟩) ?_
  refine readsOnly_row (readsOnly_one (f := .lcdDatawr) fun _ => ⟨rfl, rfl⟩) ?_
  refine readsOnly_row (readsOnly_none (i := .lcdStatrd) ⟨rfl, rfl⟩) ?_
  refine readsOnly_row (readsOnly_none (i := .lcdWait) ⟨rfl, rfl⟩) ?_
  refine readsOnly_row (readsOnly_none (i := .lcdInit) ⟨rfl, rfl⟩) ?_
  refine readsOnly_row (readsOnly_two (f := .lcdGoto) fun _ _ => ⟨rfl, rfl⟩) ?_
  refine readsOnly_row (readsOnly_one (f := .lcdPutc) fun _ => ⟨rfl, rfl⟩) ?_
  refine readsOnly_row readsOnly_puts ?_
  refine readsOnly_row readsOnly_glyph ?_
  refine readsOnly_row (readsOnly_none (i := .clkStart) ⟨rfl, rfl⟩) ?_
  refine readsOnly_row (readsOnly_none (i := .clkStop) ⟨rfl, rfl⟩) ?_
  refine readsOnly_row (readsOnly_none (i := .clkReset) ⟨rfl, rfl⟩) ?_
  refine readsOnly_row (readsOnly_none (i := .clkRead) ⟨rfl, rfl⟩) ?_
  refine readsOnly_row (readsOnly_none (i := .edgeRead) ⟨rfl, rfl⟩) ?_
  exact readsOnly_row (readsOnly_none (i := .edgeReset) ⟨rfl, rfl⟩) readsOnly_reserved

end Rows

/-- Settles O54: an empty stream is no request, and in the opcode map each row reads its own encoding. -/
theorem decodedRequestIsItsEncoding : Obligations.DecodedRequestIsItsEncoding := by
  intro p i bs r h
  cases bs with
  | nil => cases h
  | cons op t => exact readsOnly_decodeOpcode p op t i r h

/-! ## The step that runs it -/

theorem step_of_run {s t : State} {i : Instr} (hr : s.resting = true) (ht : takeable (boundary s) = none)
    (hn : restartsNow s = false) (h : nextRequest s = .run i t) : step s = exec i t := by
  simp [step, fetch_eq_nextRequest hr ht hn, h]

theorem nextRequest_of_decoded {s : State} {i : Instr} {r : List Byte} (hd : s.direct = none)
    (hq : decode s.reqs = .request i r) : nextRequest s = .run i { s with reqs := r } := by
  simp [nextRequest, hd, hq]

theorem nextRequest_of_handedOver {s : State} {i : Instr} (hd : s.direct = some i) (hi : formatOf i ≠ .event) :
    nextRequest s = .run i { s with direct := none } := by
  simp [nextRequest, hd, handedOver, hi]

/-- Settles O51: FG's next request comes from the stream or from `direct`, and the step is its meaning. -/
theorem stepRunsDecodedRequest : Obligations.StepRunsDecodedRequest := by
  intro s hr ht hn
  exact ⟨fun i r hd hq => step_of_run hr ht hn (nextRequest_of_decoded hd hq),
    fun i hd hi => step_of_run hr ht hn (nextRequest_of_handedOver hd hi)⟩

end Sys2Proof.Machine
end

section
/-! PROOF. The bytes that are no requests, each in its own format (30_encoding.md R82, R89 to R94, R97). -/

namespace Sys2Proof.Machine

/-! ## The wire -/

/-- R89: page and direction are read back from `1010pppr`. -/
theorem decodeControlByte_encoded (page : BitVec 3) (rw : Bit) :
    decodeControlByte (0b1010#4 ++ page ++ BitVec.ofBool rw) = some (.eeCtrlByte page rw) := by
  rw [← controlByte_setWidth, decodeControlByte, if_pos (controlByte_type page rw), controlByte_page, controlByte_rw]

theorem decodeControlByte_of_type_ne {v : Byte} (h : v.extractLsb 7 4 ≠ 0b1010#4) : decodeControlByte v = none :=
  if_neg h

theorem decodeWire_control (p : Params) (page : BitVec 3) (rw : Bit) :
    decodeWire p (0b1010#4 ++ page ++ BitVec.ofBool rw) = some (.eeCtrlByte page rw) := by
  rw [decodeWire, decodeControlByte_encoded]

/-- R65: the expander's write address is no control byte. -/
theorem decodeWire_ioxAddrW {p : Params} (h : p.legal = true) : decodeWire p p.ioxAddrW = some .ioxAddrW := by
  obtain ⟨-, hw, -⟩ := expanderApart_of_legal h
  simp [decodeWire, decodeControlByte_of_type_ne hw]

/-- R65: the expander's read address is neither a control byte nor its write address. -/
theorem decodeWire_ioxAddrR {p : Params} (h : p.legal = true) : decodeWire p p.ioxAddrR = some .ioxAddrR := by
  obtain ⟨hne, -, hr⟩ := expanderApart_of_legal h
  simp [decodeWire, decodeControlByte_of_type_ne hr, hne.symm]

/-! ## The window -/

/-- R25: the latch's two bits, one by one. -/
theorem decodeLatch_encoded (rs rw : Bit) :
    decodeLatch (0#6 ++ BitVec.ofBool rs ++ BitVec.ofBool rw) = some (.lcdMode rs rw) := by
  cases rs <;> cases rw <;> rfl

theorem decodeCommand_setDdram (p : Params) (a : BitVec 7) : decodeCommand p (0b1#1 ++ a) = some (.setDdramAddr a) := by
  obtain ⟨hsel, haddr⟩ := setAddr_bits a
  simp only [setAddrCommand] at hsel haddr
  rw [decodeCommand, if_pos hsel, haddr]

/-- Slot and row of the CGRAM-address command `01sssrrr` (R92). -/
theorem setCgram_fields : ∀ slot row : BitVec 3,
    (0b01#2 ++ slot ++ row).extractLsb 5 3 = slot ∧ (0b01#2 ++ slot ++ row).extractLsb 2 0 = row := by
  decide

theorem decodeCommand_setCgram (p : Params) (slot row : BitVec 3) :
    decodeCommand p (0b01#2 ++ slot ++ row) = some (.setCgramAddr slot row) := by
  obtain ⟨hsel, -⟩ := setCgram_bits slot row
  obtain ⟨hslot, hrow⟩ := setCgram_fields slot row
  rw [decodeCommand, getLsbD_seven, getLsbD_six, hsel, hslot, hrow]
  rfl

/-- With bits 7:6 = 0b00 the byte is looked up among the six (R60). -/
theorem decodeCommand_low {p : Params} {v : Byte} (h : v.extractLsb 7 6 = 0b00#2) :
    decodeCommand p v =
      if v = p.cmdClear then some .cmdClear
      else if v = p.cmdHome then some .cmdHome
      else if v = p.cmdEntryInc then some .cmdEntryInc
      else if v = p.cmdDisplayOff then some .cmdDisplayOff
      else if v = p.cmdFsWake then some .cmdFsWake
      else if v = p.cmdFsFinal then some .cmdFsFinal
      else none := by
  rw [decodeCommand, getLsbD_seven, getLsbD_six, h]
  rfl

section Named
variable {p : Params} (hp : CommandsTold p)
include hp

theorem decodeCommand_clear : decodeCommand p p.cmdClear = some .cmdClear := by
  rw [decodeCommand_low (hp.low _ (by simp [Params.commandBytes])), if_pos rfl]

theorem decodeCommand_home : decodeCommand p p.cmdHome = some .cmdHome := by
  rw [decodeCommand_low (hp.low _ (by simp [Params.commandBytes])), if_neg hp.home_clear, if_pos rfl]

theorem decodeCommand_entryInc : decodeCommand p p.cmdEntryInc = some .cmdEntryInc := by
  rw [decodeCommand_low (hp.low _ (by simp [Params.commandBytes])), if_neg hp.entry_clear, if_neg hp.entry_home,
    if_pos rfl]

theorem decodeCommand_displayOff : decodeCommand p p.cmdDisplayOff = some .cmdDisplayOff := by
  rw [decodeCommand_low (hp.low _ (by simp [Params.commandBytes])), if_neg hp.off_clear, if_neg hp.off_home,
    if_neg hp.off_entry, if_pos rfl]

/-- A function-set byte is told from the other four, and the two from one another where they differ. -/
theorem decodeCommand_functionSet {v : Byte} (hv : v = p.cmdFsWake ∨ v = p.cmdFsFinal) :
    decodeCommand p v = if v = p.cmdFsWake then some .cmdFsWake else some .cmdFsFinal := by
  have hlow : v.extractLsb 7 6 = 0b00#2 := hp.low v (by rcases hv with rfl | rfl <;> simp [Params.commandBytes])
  obtain ⟨hclear, hhome, hentry, hoff⟩ := hp.functionSet v hv
  rw [decodeCommand_low hlow, if_neg hclear, if_neg hhome, if_neg hentry, if_neg hoff]
  rcases hv with rfl | rfl
  · rw [if_pos rfl, if_pos rfl]
  · rw [if_pos rfl]

end Named

/-- Settles O55: format by format; the rows that are not one byte have no such b. -/
theorem byteFormatsRoundTrip : Obligations.ByteFormatsRoundTrip := by
  intro p i b hp hf hb hfs
  have told := commandsTold_of_legal hp
  cases i with
  | timerIsr | edgeIsr | clkResume | lcdDataDd => cases hb; rfl
  | eeCtrlByte page rw => cases hb; exact decodeWire_control p page rw
  | ioxAddrW => cases hb; exact decodeWire_ioxAddrW hp
  | ioxAddrR => cases hb; exact decodeWire_ioxAddrR hp
  | lcdMode rs rw => cases hb; exact decodeLatch_encoded rs rw
  | setDdramAddr a => cases hb; exact decodeCommand_setDdram p a
  | setCgramAddr slot row => cases hb; exact decodeCommand_setCgram p slot row
  | cmdFsWake => cases hb; exact (decodeCommand_functionSet told (.inl rfl)).trans (if_pos rfl)
  | cmdFsFinal => cases hb; exact (decodeCommand_functionSet told (.inr rfl)).trans (if_neg (hfs rfl).symm)
  | cmdDisplayOff => cases hb; exact decodeCommand_displayOff told
  | cmdClear => cases hb; exact decodeCommand_clear told
  | cmdEntryInc => cases hb; exact decodeCommand_entryInc told
  | cmdHome => cases hb; exact decodeCommand_home told
  | lcdDataCg x pattern =>
    cases hb
    have hx : (x ++ pattern).extractLsb 7 5 = x := BitVec.extractLsb'_append_eq_left
    have hq : (x ++ pattern).extractLsb 4 0 = pattern := BitVec.extractLsb'_append_eq_right
    simp only [formatOf, decodeAs, hx, hq]
  | clkRestart | lcdStatus => cases hb
  | _ => exact absurd rfl hf

/-! ## Sample words -/

/-- Settles O56: requests and address bytes are the laws above at these operands, the verdicts are computed. -/
theorem sampleWordsDecode : Obligations.SampleWordsDecode := by
  have request := requestRoundTrip Config.reference
  exact ⟨request (.busSend 0xA6#8) [] rfl rfl, request (.eeWrite 0x03#8 0x10#8 0x5A#8) [] rfl rfl,
    request (.lcdGoto 0x02#8 0x07#8) [] rfl rfl, request (.lcdPuts [0x41#8, 0x42#8]) [0x30#8] rfl rfl,
    rfl, rfl, rfl, rfl, decodeControlByte_encoded 3#3 true, decodeCommand_setDdram _ 0x45#7,
    decodeCommand_setCgram _ 2#3 3#3⟩

end Sys2Proof.Machine
end

section
/-! PROOF. What the operands and the command bytes of 30_encoding.md do when run: operands outside the source's domain
(R87), a command row and LCD_CMDWR of its byte (R92, R150), the status byte (R93, R152). -/

namespace Sys2Proof.Machine

/-! ## Operands outside the domain (R87) -/

theorem pageOk_eq_false {page : Byte} (h : page.toNat > 7) : pageOk page = false :=
  decide_eq_false (Nat.not_le.mpr h)

theorem slotOk_eq_false {slot : Byte} (h : slot.toNat > 7) : slotOk slot = false :=
  decide_eq_false (Nat.not_le.mpr h)

theorem cursorOk_eq_false {row column : Nat} (h : row > 3 ∨ column > 15) : cursorOk row column = false := by
  simp only [cursorOk, Bool.and_eq_false_iff, decide_eq_false_iff_not]
  omega

/-- An operation of no micro-step ends where it begins: no boundary is met, so the environment does not move. -/
theorem perform_ret {i : Instr} {k : RetKind} {s : State} (hs : s.atRest = true) :
    perform i [.ctl (.ret k)] s = .next { s with results := s.results ++ [resultOf k Transients.none] } := by
  simp only [State.atRest, Bool.and_eq_true, decide_eq_true_eq] at hs
  obtain ⟨hisr, hidle⟩ := hs
  have hr : s.resting = true := by simp [State.resting, hisr, hidle, Seq.idle]
  rw [perform_eq_go hr, go_goOn rfl, go_nil_fg (by simpa using hisr)]
  congr 1
  exact finish_fg_of_idle (s := { s with results := s.results ++ [resultOf k Transients.none] }) hidle _

/-- Settles O13: the page and the slot are looked at first, and out of range LCD_GOTO only returns `applied` = 0. -/
theorem outOfRangeOperands : Obligations.OutOfRangeOperands := by
  refine ⟨fun page offset data s h => ?_, fun slot rows s h => ?_, fun row column s h hs => ?_⟩
  · simp [exec, execEeWrite, execEeRead, pageOk_eq_false h]
  · simp [exec, execLcdGlyph, slotOk_eq_false h]
  · simp only [exec, execLcdGoto, gotoCode, cursorOk_eq_false h, Bool.false_eq_true, if_false, List.nil_append]
    exact perform_ret hs

/-! ## A command row and LCD_CMDWR of its byte (R92, R150) -/

/-- Which operation writes a command byte plays no part in what the write leaves. -/
theorem perform_cmd_congr {i j : Instr} {v : Byte} {s : State} (hs : s.calm = true) :
    perform i (cmdCode v ++ [.ctl (.ret .none)]) s = perform j (cmdCode v ++ [.ctl (.ret .none)]) s :=
  (perform_windowWrite (m := 0b00#2) (wake := false) hs).trans (perform_windowWrite hs).symm

/-- Where the module is free a wake-up write is a command write (R62). -/
theorem perform_cmd_eq_wake {i j : Instr} {v : Byte} {s : State} (hs : s.calm = true) (hf : s.lcdFree = true) :
    perform i (cmdCode v ++ [.ctl (.ret .none)]) s = perform j (wakeCode v ++ [.ctl (.ret .none)]) s := by
  refine (perform_windowWrite (m := 0b00#2) (wake := false) hs).trans
    (Eq.trans ?_ (perform_windowWrite (m := 0b00#2) (wake := true) hs).symm)
  rw [readyAtBoundary_free hf]
  rfl

/-- Settles O21: the wake-up row is a command write where the module is free, and each other row is one everywhere. -/
theorem commandRowsAreCommandWrites : Obligations.CommandRowsAreCommandWrites := by
  intro i v s hi hw hv hs
  by_cases hwake : i = .cmdFsWake
  · subst hwake
    cases hv
    exact perform_cmd_eq_wake hs (hw rfl)
  · obtain ⟨u, hu, hrow⟩ := exec_commandRow hi hwake s
    obtain rfl : u = v := List.singleton_inj.mp (hu.symm.trans hv)
    exact (perform_cmd_congr hs).trans hrow.symm

/-! ## The status byte (R93, R152) -/

/-- BF as a status read meets it: cleared by a module on either schedule, L-eager or L-onread (R75). -/
def State.statusBusy (s : State) : Bool := s.lcd.bf && decide (s.env.lcd = .scripted)

/-- LCDDEV at the two boundaries of a status read, and just before the read itself. -/
theorem ready_statusRead (s : State) :
    readyAtRead s.env.lcd (readyAtBoundary s.env.lcd { readyAtBoundary s.env.lcd s.lcd with mode := 0b01#2 }) =
      { s.lcd with mode := 0b01#2, bf := s.statusBusy } := by
  cases h : s.env.lcd <;> simp [readyAtRead, readyAtBoundary, State.statusBusy, h, beq_eq_decide]

/-- The status read of R152: the latch, then the byte, kept as its two fields. -/
theorem go_status {c : Ctx} {n : Nat} {k : List Item} {s : State} (h : Running c s) :
    go c (n + 2) (statusCode ++ k) s =
      go c n k (s.onLcdTr c { s.lcd with mode := 0b01#2, bf := s.statusBusy }
        { s.tr c with stBusy := s.statusBusy, stAddr := s.lcd.ac }) := by
  have hmode : Running c { readyEager s with lcd := { (readyEager s).lcd with mode := 0b01#2 } } := h.congr rfl rfl
  simp only [statusCode, List.cons_append, List.nil_append]
  rw [go_prim h]
  simp only [runPrim, thenDo_next]
  rw [go_prim hmode]
  simp only [runPrim, readStatus, readyEager_lcd, readyEager_env, ready_statusRead, portRead, if_true, status,
    thenDo_next]
  cases c <;> rfl

/-- Settles O26: both rows are one status read, and its two fields make the byte returned. -/
theorem statusReadReturnsBusyAndAddress : Obligations.StatusReadReturnsBusyAndAddress := by
  intro i s hi hs
  obtain ⟨hisr, hidle, -⟩ := (calm_iff s).mp hs
  have hexec : exec i s = perform i (statusCode ++ [.ctl (.ret .status)]) s := by rcases hi with rfl | rfl <;> rfl
  rw [hexec, perform_eq_go (resting_of_calm hs)]
  refine (go_status (n := 4094) (running_of_calm hs _)).trans ?_
  rw [go_goOn rfl, go_nil_fg (by simpa using hisr)]
  congr 1
  exact finish_fg_of_idle
    (s := { s.done (.byte (statusByte s.statusBusy s.lcd.ac)) with
      lcd := { s.lcd with mode := 0b01#2, bf := s.statusBusy } }) hidle _

end Sys2Proof.Machine
end

section
/-! PROOF. The bus primitives (40_bus_primitives.md R111 to R117), one level of a wire at a time (20_memory.md R51 to R54, R66,
R69). -/

namespace Sys2Proof.Machine

/-! ## The levels of the two wires (R51, R53) -/

theorem sdaWire_of_held {b : Bus} (h : slvSda b = false) : sdaWire b = false := by simp [sdaWire, h]

theorem sdaWire_of_released {b : Bus} (h : slvSda b = true) : sdaWire b = b.sdaOut := by simp [sdaWire, h]

section Line
variable {p : Params} {b : Bus}

/-- With BUS_OPEN_DRAIN = 1, or with master and slaves agreeing, a sample is the wire's level (R51, R52, U2). -/
theorem readLine_eq (h : p.busOpenDrain = true ∨ contention b = false) : readLine p b = (sdaWire b, b) := by
  rcases h with h | h <;> simp [readLine, h]

/-- While the clock is 0 a level of the data wire is no event. -/
theorem setSda_of_low (v : Bit) (h : b.sclOut = false) : setSda p v b = { b with sdaOut := v } := by
  simp only [setSda, h, Bool.false_eq_true, if_false]

/-- Nor is it while a slave holds the wire: the wire stays 0. -/
theorem setSda_of_held (v : Bit) (h : slvSda b = false) : setSda p v b = { b with sdaOut := v } := by
  have hv : sdaWire { b with sdaOut := v } = false := sdaWire_of_held h
  simp only [setSda, sdaWire_of_held h, hv, wireEvent, ite_self]

/-- A level the data latch already has is no event. -/
theorem setSda_of_same {v : Bit} (h : b.sdaOut = v) : setSda p v b = b := by
  have hb : ({ b with sdaOut := v } : Bus) = b := by rw [← h]
  rw [setSda, hb]
  cases sdaWire b <;> exact ite_self b

/-- A start condition: the wire falls while the clock is 1 (R53). -/
theorem setSda_start (hc : b.sclOut = true) (hd : b.sdaOut = true) (hw : slvSda b = true) :
    setSda p false b = onStart p { b with sdaOut := false } := by
  have hv : sdaWire { b with sdaOut := false } = false := rfl
  rw [setSda, if_pos hc, sdaWire_of_released hw, hd, hv]
  rfl

/-- A stop condition: the wire rises while the clock is 1 (R53). -/
theorem setSda_stop (hc : b.sclOut = true) (hd : b.sdaOut = false) (hw : slvSda b = true) :
    setSda p true b = onStop { b with sdaOut := true } := by
  have hv : sdaWire { b with sdaOut := true } = true := sdaWire_of_released (b := { b with sdaOut := true }) hw
  rw [setSda, if_pos hc, sdaWire_of_released hw, hd, hv]
  rfl

/-- Releasing the data wire ends no transaction unless the clock is 1 and the wire 0. -/
theorem setSda_release (h : b.sclOut = false ∨ b.sdaOut = true) : setSda p true b = { b with sdaOut := true } := by
  rcases h with h | h
  · exact setSda_of_low true h
  · rw [setSda_of_same h, ← h]

/-- Pulling it low begins none unless both wires are 1. -/
theorem setSda_pull (h : b.sclOut = false ∨ b.sdaOut = false) : setSda p false b = { b with sdaOut := false } := by
  rcases h with h | h
  · exact setSda_of_low false h
  · rw [setSda_of_same h, ← h]

/-- The bus with the clock at 1: the slaves have seen a rising edge, unless it was at 1 before. -/
def Bus.raised (b : Bus) : Bus :=
  { b with
    sclOut := true
    ee := { b.ee with slave := if b.sclOut then b.ee.slave else slaveRise (sdaWire b) b.ee.slave }
    iox := { b.iox with slave := if b.sclOut then b.iox.slave else slaveRise (sdaWire b) b.iox.slave } }

theorem raised_of_high (h : b.sclOut = true) : b.raised = b := by
  simp only [Bus.raised, h, if_true]
  rw [← h]

theorem setScl_true (p : Params) (b : Bus) : setScl p true b = .ok b.raised := by
  cases h : b.sclOut with
  | false => simp only [setScl, Bus.raised, h]; rfl
  | true => simp only [setScl, raised_of_high h, h]

theorem setScl_false (h : b.sclOut = true) : setScl p false b = onFall p { b with sclOut := false } := by
  simp only [setScl, h]

@[simp] theorem slvSda_raised (b : Bus) : slvSda b.raised = slvSda b := by
  cases h : b.sclOut <;> simp [slvSda, Bus.raised, h, slaveRise_drive]

end Line

/-! ## The primitives on the wires -/

theorem busRun_startWires (p : Params) (b : Bus) :
    busRun p startWires b = setScl p false (setSda p false (setSda p true b).raised) := by
  simp only [startWires, busRun, Wire.run, setScl_true]
  cases setScl p false (setSda p false (setSda p true b).raised) <;> rfl

theorem busRun_stopWires (p : Params) (b : Bus) :
    busRun p stopWires b = .ok (setSda p true (setSda p false b).raised) := by
  simp only [stopWires, busRun, Wire.run, setScl_true]

theorem busRun_noackWires (p : Params) (b : Bus) :
    busRun p noackWires b = setScl p false (setSda p true b).raised := by
  simp only [noackWires, busRun, Wire.run, setScl_true]
  cases setScl p false (setSda p true b).raised <;> rfl

/-! ## A clock pulse, as a slave that takes in no byte sees it (R69) -/

/-- What the falling edge of a pulse is to a slave that stood at x before the pulse. -/
def Slave.pulseFall (x : Slave) : Fall := if x.endsByte then .sentByte x.pulsed else .quiet x.pulsed

theorem Slave.notReceiving_cases {x : Slave} (h : x.notReceiving = true) :
    x.acking = true ∨ x.acking = false ∧
      (x.phase = .ignore ∨ x.phase = .sendAck ∨ x.phase = .send ∧ x.bits ≤ 7) := by
  simp only [Slave.notReceiving, Bool.or_eq_true, decide_eq_true_eq, or_assoc] at h
  cases ha : x.acking with
  | true => exact .inl rfl
  | false => exact .inr ⟨rfl, h.resolve_left (by simp [ha])⟩

theorem slaveFall_rise {x : Slave} (h : x.notReceiving = true) (w : Bit) : slaveFall (slaveRise w x) = x.pulseFall := by
  unfold slaveRise slaveReceiving slaveFall Slave.pulseFall Slave.endsByte Slave.pulsed
  obtain ha | ⟨ha, hp | hp | ⟨hp, hb⟩⟩ := Slave.notReceiving_cases h
  · simp [ha]
  · simp [ha, hp]
  · simp [ha, hp]
  · have hnext : 7 - (x.bits + 1) = 6 - x.bits := by omega
    by_cases hlast : x.bits = 7
    · simp [ha, hp, hlast]
    · simp [ha, hp, hlast, hnext]

/-- The clock at 1 before: the slave sees the falling edge alone, which is a pulse to one that is not in the middle of a
sent byte. -/
theorem slaveFall_of_not_sending {x : Slave} (h : x.notReceiving = true) (hs : x.phase = .send → x.acking = true) :
    slaveFall x = x.pulseFall := by
  unfold slaveFall Slave.pulseFall Slave.endsByte Slave.pulsed
  obtain ha | ⟨ha, hp | hp | ⟨hp, -⟩⟩ := Slave.notReceiving_cases h
  · simp [ha]
  · simp [ha, hp]
  · simp [ha, hp]
  · exact absurd (hs hp) (by simp [ha])

theorem slaveFall_raised {x : Slave} {scl : Bit} (w : Bit) (h : x.notReceiving = true)
    (hs : scl = true → x.phase = .send → x.acking = true) :
    slaveFall (if scl then x else slaveRise w x) = x.pulseFall := by
  cases scl with
  | false => exact slaveFall_rise h w
  | true => exact slaveFall_of_not_sending h (hs rfl)

/-- A slave that has just heard a start condition has no bit yet: the falling edge is nothing to it. -/
theorem slaveFall_start (present : Bool) : slaveFall (slaveStart present) = (slaveStart present).pulseFall := by
  cases present <;> rfl

theorem pulsed_start (present : Bool) : (slaveStart present).pulsed = slaveStart present := by
  cases present <;> rfl

theorem endsByte_start (present : Bool) : (slaveStart present).endsByte = false := by
  cases present <;> rfl

/-- The falling edge of a pulse on the bus: both reference slaves and a further one react (R69). -/
theorem onFall_pulse {p : Params} {b : Bus} {e x : Slave} (he : slaveFall b.ee.slave = e.pulseFall)
    (hx : slaveFall b.iox.slave = x.pulseFall) :
    onFall p b =
      .ok { extFall b with
            ee := { b.ee with slave := e.pulsed, ptr := if e.endsByte then Config.any .bus 8 b.draws else b.ee.ptr }
            iox := { b.iox with slave := x.pulsed }
            draws := if e.endsByte then b.draws + 1 else b.draws } := by
  have hiox : ioxFall p b.iox = .ok { b.iox with slave := x.pulsed } := by
    rw [ioxFall, hx, Slave.pulseFall]
    cases x.endsByte <;> rfl
  cases h : e.endsByte <;> simp [onFall, eeFall, eeEndsByte, he, Slave.pulseFall, h, hiox]

/-- The bus after one clock pulse that no slave takes for a bit of a byte it receives (R69); EE_PTR is free where the EEPROM's
last bit was sent (U10, notes/assumptions/37). -/
def Bus.pulsed (b : Bus) : Bus :=
  { extFall b with
    sclOut := false
    ee := { b.ee with
      slave := b.ee.slave.pulsed
      ptr := if b.ee.slave.endsByte then Config.any .bus 8 b.draws else b.ee.ptr }
    iox := { b.iox with slave := b.iox.slave.pulsed }
    draws := if b.ee.slave.endsByte then b.draws + 1 else b.draws }

theorem pulsed_ptr {b : Bus} (h : b.ee.slave.endsByte = false) : b.pulsed.ee.ptr = b.ee.ptr := by
  simp only [Bus.pulsed, h, Bool.false_eq_true, if_false]

/-- The clock to 1 and back, whatever the data latch is set to in between. -/
theorem setScl_pulse {p : Params} {b : Bus} (v : Bit) (he : b.ee.slave.notReceiving = true)
    (hx : b.iox.slave.notReceiving = true)
    (hes : b.sclOut = true → b.ee.slave.phase = .send → b.ee.slave.acking = true)
    (hxs : b.sclOut = true → b.iox.slave.phase = .send → b.iox.slave.acking = true) :
    setScl p false { b.raised with sdaOut := v } = .ok (Bus.pulsed { b with sdaOut := v }) := by
  rw [setScl_false rfl,
    onFall_pulse (e := b.ee.slave) (x := b.iox.slave) (slaveFall_raised _ he hes) (slaveFall_raised _ hx hxs)]
  rfl

/-! ## A primitive as a whole operation -/

/-- What FG leaves when its last bus micro-step is done and the result is returned. -/
theorem go_return_onBusTr {n : Nat} {k : RetKind} {q : Seq} {b : Bus} {t : Transients} {s : State} (hs : s.calm = true) :
    go .fg n [.ctl (.ret k)] (State.onBusTr { s with fg := q } .fg b t) =
      .next { s.done (resultOf k t) with bus := b } := by
  obtain ⟨hisr, hidle, -⟩ := (calm_iff s).mp hs
  rw [go_goOn rfl, go_nil_fg (by simpa using hisr)]
  congr 1
  exact finish_fg_of_idle (s := { s.done (resultOf k t) with bus := b }) hidle _

section Exec
variable {s : State} {b : Bus}

/-- An operation whose expansion is a list of bus micro-steps leaves what they do to the bus. -/
theorem perform_of_wires {i : Instr} {n : Nat} {ws : List Wire} {code : List Item} (hs : s.calm = true)
    (hgo : ∀ t : State, Running .fg t → go .fg Config.quantum (code ++ [.ctl (.ret .none)]) t =
      thenBus (busRun t.cfg ws t.bus) fun c => go .fg n [.ctl (.ret .none)] (t.onBusTr .fg c (t.tr .fg)))
    (hb : busRun s.cfg ws s.bus = .ok b) :
    perform i (code ++ [.ctl (.ret .none)]) s = .next { s.done .nothing with bus := b } := by
  rw [perform_eq_go (resting_of_calm hs), hgo _ (running_of_calm hs _)]
  simp only [hb, thenBus_ok]
  exact go_return_onBusTr hs

theorem exec_busStart (hs : s.calm = true) (hb : busRun s.cfg startWires s.bus = .ok b) :
    exec .busStart s = .next { s.done .nothing with bus := b } :=
  perform_of_wires hs (fun _ => go_busStart (n := 4092)) hb

theorem exec_busStop (hs : s.calm = true) (hb : busRun s.cfg stopWires s.bus = .ok b) :
    exec .busStop s = .next { s.done .nothing with bus := b } :=
  perform_of_wires hs (fun _ => go_busStop (n := 4093)) hb

theorem exec_busNoack (hs : s.calm = true) (hb : busRun s.cfg noackWires s.bus = .ok b) :
    exec .busNoack s = .next { s.done .nothing with bus := b } :=
  perform_of_wires hs (fun _ => go_busNoack (n := 4093)) hb

theorem exec_busSend {v : Byte} (hs : s.calm = true) (hb : busRun s.cfg (sendWires v) s.bus = .ok b) :
    exec (.busSend v) s = .next { s.done (.ack b.ack) with bus := b } := by
  refine (perform_eq_go (resting_of_calm hs)).trans ((go_busSend (n := 4068) v (running_of_calm hs _)).trans ?_)
  simp only [hb, thenBus_ok]
  exact go_return_onBusTr hs

theorem exec_busRecv {v : Byte} (hs : s.calm = true) (hb : takeBits s.cfg 8 0#8 s.bus = .ok (v, b)) :
    exec .busRecv s = .next { s.done (.byte v) with bus := b } := by
  refine (perform_eq_go (resting_of_calm hs)).trans ((go_busRecv (n := 4072) (running_of_calm hs _)).trans ?_)
  simp only [hb, thenByte_ok]
  exact go_return_onBusTr hs

end Exec

/-! ## Start and stop conditions at the EEPROM (R66) -/

theorem eeStart_slave (present choice : Bool) (e : Eeprom) : (eeStart present choice e).slave = slaveStart present := by
  unfold eeStart
  split <;> rfl

/-- Where the EEPROM stood in the transaction before plays no part. -/
theorem eeStart_with_slave (present choice : Bool) (e : Eeprom) (x : Slave) :
    eeStart present choice { e with slave := x } = eeStart present choice e := by
  cases h : e.pend with
  | none => simp only [eeStart, h]
  | some d => simp only [eeStart, h, eeSettlePending]

theorem eeStop_with_slave (e : Eeprom) (x : Slave) : eeStop { e with slave := x } = eeStop e := by
  cases h : e.pend with
  | none => simp only [eeStop, h]
  | some d => simp only [eeStop, h, eeSettlePending]

theorem eeStart_of_not_pending {present choice : Bool} {e : Eeprom} (h : e.pend = none) :
    eeStart present choice e = { e with slave := slaveStart present } := by
  simp only [eeStart, h]

theorem eeStart_of_pending {present choice : Bool} {e : Eeprom} {d : Byte} (h : e.pend = some d) :
    eeStart present choice e = { eeSettlePending d choice e with slave := slaveStart present } := by
  simp only [eeStart, h]

theorem eeStop_of_pending {e : Eeprom} {d : Byte} (h : e.pend = some d) :
    eeStop e = { eeSettlePending d true e with slave := Slave.unaddressed } := by
  simp only [eeStop, h]

theorem eeStop_of_not_pending {e : Eeprom} (h : e.pend = none) : eeStop e = { e with slave := Slave.unaddressed } := by
  simp only [eeStop, h]

/-- Nothing is pending once a start condition has settled it, so a stop condition right after it only ends the transaction. -/
theorem eeStop_eeStart (present choice : Bool) (e : Eeprom) :
    eeStop (eeStart present choice e) = { eeStart present choice e with slave := Slave.unaddressed } := by
  refine eeStop_of_not_pending ?_
  unfold eeStart
  split
  case h_1 h => exact h
  case h_2 => rfl

theorem eeStop_slave (e : Eeprom) : (eeStop e).slave = Slave.unaddressed := by
  unfold eeStop
  split <;> rfl

theorem slaveStart_drive (present : Bool) : (slaveStart present).drive = true := rfl

/-- What is drawn for a write that a start condition finds pending: performed or discarded (U10, notes/assumptions/18). -/
def Bus.startChoice (b : Bus) : Bool := (Config.any .bus 1 b.draws).getLsbD 0

theorem onStart_ee (p : Params) (b : Bus) : (onStart p b).ee = eeStart p.eePresent b.startChoice b.ee := rfl

/-- A slave that hears a start or a stop condition releases the wire: only a further one may hold it (R69). -/
theorem slvSda_onStart (p : Params) (b : Bus) : slvSda (onStart p b) = b.extDrive := by
  rw [slvSda, onStart_ee, eeStart_slave]
  rfl

theorem slvSda_onStop (b : Bus) : slvSda (onStop b) = b.extDrive := by
  simp [slvSda, onStop, eeStop_slave, Slave.unaddressed]

theorem extDrive_of_released {b : Bus} (h : slvSda b = true) : b.extDrive = true := by
  simp only [slvSda, Bool.and_eq_true] at h
  exact h.2

/-! ## BUS_START (R111) -/

section Start
variable {p : Params} {b : Bus}

/-- Where the first micro-step makes no stop condition, the start condition finds the EEPROM's pending write as it was. -/
theorem busRun_start_found (hw : slvSda b = true) (hl : b.sclOut = false ∨ b.sdaOut = true) :
    busRun p startWires b =
      .ok { extFall b with
            sclOut := false, sdaOut := false
            ee := eeStart p.eePresent b.startChoice b.ee
            iox := { b.iox with slave := slaveStart p.ioxPresent }
            draws := if b.ee.pend.isSome then b.draws + 1 else b.draws } := by
  have hraised : slvSda (Bus.raised { b with sdaOut := true }) = true := (slvSda_raised _).trans hw
  rw [busRun_startWires, setSda_release hl, setSda_start rfl rfl hraised, setScl_false rfl,
    onFall_pulse (e := slaveStart p.eePresent) (x := slaveStart p.ioxPresent)
      ((congrArg slaveFall (eeStart_slave _ _ _)).trans (slaveFall_start _)) (slaveFall_start _)]
  simp only [pulsed_start, endsByte_start, Bool.false_eq_true, if_false]
  simp only [onStart, Bus.startChoice, Bus.raised, extFall, eeStart_with_slave, Eeprom.with_slave (eeStart_slave _ _ _)]

/-- Where it makes one, that performs the pending write, and the start condition finds nothing pending. -/
theorem busRun_start_stopped {d : Byte} (hw : slvSda b = true) (hc : b.sclOut = true) (hd : b.sdaOut = false)
    (hp : b.ee.pend = some d) :
    busRun p startWires b =
      .ok { extFall b with
            sclOut := false, sdaOut := false
            ee := { eeSettlePending d true b.ee with slave := slaveStart p.eePresent }
            iox := { b.iox with slave := slaveStart p.ioxPresent } } := by
  have hstop : setSda p true b = onStop { b with sdaOut := true } := setSda_stop hc hd hw
  have hee : (onStop { b with sdaOut := true }).ee = { eeSettlePending d true b.ee with slave := Slave.unaddressed } :=
    eeStop_of_pending hp
  have hreleased : slvSda (onStop { b with sdaOut := true }) = true := (slvSda_onStop _).trans (extDrive_of_released hw)
  have hrest : busRun p startWires b = busRun p startWires (onStop { b with sdaOut := true }) := by
    rw [busRun_startWires, busRun_startWires, hstop,
      setSda_of_same (v := true) (b := onStop { b with sdaOut := true }) rfl]
  rw [hrest, busRun_start hreleased (by rw [hee]; rfl), hee]
  rfl

/-- While a slave holds the wire there is neither condition: the slaves see one clock pulse. -/
theorem busRun_start_held (hw : slvSda b = false) (he : b.ee.slave.notReceiving = true)
    (hx : b.iox.slave.notReceiving = true)
    (hes : b.sclOut = true → b.ee.slave.phase = .send → b.ee.slave.acking = true)
    (hxs : b.sclOut = true → b.iox.slave.phase = .send → b.iox.slave.acking = true) :
    busRun p startWires b = .ok (Bus.pulsed { b with sdaOut := false }) := by
  have hraised : slvSda (Bus.raised { b with sdaOut := true }) = false := (slvSda_raised _).trans hw
  rw [busRun_startWires, setSda_of_held true hw, setSda_of_held false hraised]
  exact setScl_pulse (b := { b with sdaOut := true }) false he hx hes hxs

end Start

/-- Settles O1: a start condition with nothing pending; one that settles a pending write, or finds it performed by the stop
condition before it; a clock pulse where the wire is held. -/
theorem busStartLowersBothLines : Obligations.BusStartLowersBothLines := by
  refine ⟨fun s hs hw hp => exec_busStart hs (busRun_start hw hp), fun s d hs hw hp => ?_,
    fun s hs hw he hx hes hxs => ?_⟩
  · by_cases hl : s.bus.sclOut = false ∨ s.bus.sdaOut = true
    · have hn : ¬ (s.bus.sclOut = true ∧ s.bus.sdaOut = false) := fun ⟨hc, hd⟩ => by simp [hc, hd] at hl
      refine ⟨s.bus.startChoice, fun hc hd => absurd ⟨hc, hd⟩ hn, exec_busStart hs ?_⟩
      rw [busRun_start_found hw hl, eeStart_of_pending hp, if_neg hn, hp]
      rfl
    · obtain ⟨hc, hd⟩ : s.bus.sclOut = true ∧ s.bus.sdaOut = false := by simpa using hl
      refine ⟨true, fun _ _ => rfl, exec_busStart hs ?_⟩
      rw [busRun_start_stopped hw hc hd hp, if_pos (And.intro hc hd)]
      rfl
  · exact ⟨s.bus.pulsed.ee.ptr, pulsed_ptr, exec_busStart hs (busRun_start_held hw he hx hes hxs)⟩

/-! ## BUS_STOP (R112) -/

section Stop
variable {p : Params} {b : Bus}

/-- Unless both lines are 1 the operation is one stop condition. -/
theorem busRun_stop_released (hw : slvSda b = true) (hl : b.sclOut = false ∨ b.sdaOut = false) :
    busRun p stopWires b =
      .ok { b with sclOut := true, sdaOut := true, ee := eeStop b.ee, iox := { b.iox with slave := Slave.unaddressed } } := by
  have hraised : slvSda (Bus.raised { b with sdaOut := false }) = true := (slvSda_raised _).trans hw
  rw [busRun_stopWires, setSda_pull hl, setSda_stop rfl rfl hraised]
  simp only [onStop, Bus.raised, eeStop_with_slave]

/-- From the idle bus it is a start condition, which settles a pending write, and then a stop condition. -/
theorem busRun_stop_idle (hw : slvSda b = true) (hc : b.sclOut = true) (hd : b.sdaOut = true) :
    busRun p stopWires b =
      .ok { b with
            ee := { eeStart p.eePresent b.startChoice b.ee with slave := Slave.unaddressed }
            iox := { b.iox with slave := Slave.unaddressed }
            draws := if b.ee.pend.isSome then b.draws + 1 else b.draws } := by
  have hreleased : slvSda (onStart p { b with sdaOut := false }) = true :=
    (slvSda_onStart _ _).trans (extDrive_of_released hw)
  rw [busRun_stopWires, setSda_start hc hd hw, raised_of_high (b := onStart p { b with sdaOut := false }) hc,
    setSda_stop (b := onStart p { b with sdaOut := false }) hc rfl hreleased]
  simp only [onStart, onStop, eeStop_eeStart]
  rw [← hd]
  rfl

/-- While a slave holds the wire there is neither: at most a rising clock edge. -/
theorem busRun_stop_held (hw : slvSda b = false) :
    busRun p stopWires b =
      .ok { b with
            sclOut := true, sdaOut := true
            ee := { b.ee with slave := if b.sclOut then b.ee.slave else slaveRise false b.ee.slave }
            iox := { b.iox with slave := if b.sclOut then b.iox.slave else slaveRise false b.iox.slave } } := by
  have hraised : slvSda (Bus.raised { b with sdaOut := false }) = false := (slvSda_raised _).trans hw
  rw [busRun_stopWires, setSda_of_held false hw, setSda_of_held true hraised]
  rfl

end Stop

/-- Settles O2: a stop condition unless both lines are 1; from there a start condition first; a rising clock edge at most where
the wire is held. -/
theorem busStopEndsTransaction : Obligations.BusStopEndsTransaction := by
  refine ⟨fun s hs hw hp => exec_busStop hs ?_,
    fun s d hs hw hp hl hm => ⟨writeEeprom s.bus.ee.mem s.bus.ee.page s.bus.ee.ptr d, exec_busStop hs ?_,
      Memory.read_write (Bool.and_eq_true_iff.mp hm).1 _ d⟩,
    fun s d hs hw hp hc hd => ⟨s.bus.startChoice, exec_busStop hs ?_⟩,
    fun s hs hw => exec_busStop hs (busRun_stop_held hw)⟩
  · by_cases hl : s.bus.sclOut = false ∨ s.bus.sdaOut = false
    · rw [busRun_stop_released hw hl, eeStop_of_not_pending hp]
    · obtain ⟨hc, hd⟩ : s.bus.sclOut = true ∧ s.bus.sdaOut = true := by simpa using hl
      rw [busRun_stop_idle hw hc hd, eeStart_of_not_pending hp]
      simp only [hp, hc, hd]
      rfl
  · rw [busRun_stop_released hw hl, eeStop_of_pending hp]
    rfl
  · rw [busRun_stop_idle hw hc hd, eeStart_of_pending hp, hp]
    rfl

/-! ## A bus on which no reference slave is addressed (R69) -/

/-- Both reference slaves are silent until the next start condition. -/
structure Bus.Unheard (b : Bus) : Prop where
  ee : b.ee.slave = Slave.unaddressed
  iox : b.iox.slave = Slave.unaddressed

namespace Bus.Unheard
variable {p : Params} {b : Bus}

/-- Only a further slave may hold the wire. -/
theorem slvSda_eq (h : b.Unheard) : slvSda b = b.extDrive := by
  simp [slvSda, h.ee, h.iox, Slave.unaddressed]

theorem raised (h : b.Unheard) : b.raised = { b with sclOut := true } := by
  have hrise : ∀ w, slaveRise w Slave.unaddressed = Slave.unaddressed := fun _ => rfl
  simp only [Bus.raised, h.ee, h.iox, hrise, ite_self, Eeprom.with_slave h.ee, Expander.with_slave h.iox]

/-- Only a further slave reacts to the falling edge of a pulse. -/
theorem setScl_false (h : b.Unheard) :
    setScl p false { b with sclOut := true } = .ok { extFall b with sclOut := false } := by
  have hfall : slaveFall Slave.unaddressed = Slave.unaddressed.pulseFall := rfl
  have hpulsed : Slave.unaddressed.pulsed = Slave.unaddressed := rfl
  have hends : Slave.unaddressed.endsByte = false := rfl
  rw [Machine.setScl_false rfl,
    onFall_pulse (b := { b with sclOut := false }) ((congrArg slaveFall h.ee).trans hfall)
      ((congrArg slaveFall h.iox).trans hfall)]
  simp only [hpulsed, hends, Bool.false_eq_true, if_false, Eeprom.with_slave h.ee, Expander.with_slave h.iox]
  rfl

theorem extFall (h : b.Unheard) : (extFall b).Unheard := ⟨h.ee, h.iox⟩

/-- A stop condition with nothing pending ends no transaction either: releasing the data wire changes the latch alone. -/
theorem setSda_true (h : b.Unheard) (hp : b.ee.pend = none) : setSda p true b = { b with sdaOut := true } := by
  by_cases hl : b.sclOut = false ∨ b.sdaOut = true
  · exact setSda_release hl
  · obtain ⟨hc, hd⟩ : b.sclOut = true ∧ b.sdaOut = false := by simpa using hl
    cases hw : slvSda b with
    | false => exact setSda_of_held true hw
    | true =>
      rw [setSda_stop hc hd hw, onStop, eeStop_of_not_pending hp, Eeprom.with_slave h.ee, Expander.with_slave h.iox]

end Bus.Unheard

/-! ## BUS_NOACK (R117) -/

/-- Entered with the clock at 0 the operation is one clock pulse. -/
theorem busRun_noack_low {p : Params} {b : Bus} (hc : b.sclOut = false) (he : b.ee.slave.notReceiving = true)
    (hx : b.iox.slave.notReceiving = true) :
    busRun p noackWires b = .ok (Bus.pulsed { b with sdaOut := true }) := by
  have hlow : b.sclOut ≠ true := by simp [hc]
  rw [busRun_noackWires, setSda_of_low true hc]
  exact setScl_pulse (b := { b with sdaOut := true }) true he hx (fun h => absurd h hlow) fun h => absurd h hlow

/-- Settles O5: from any lines where nobody is addressed, and from the clock at 0 for a slave that takes in no byte. -/
theorem busNoackPulsesClock : Obligations.BusNoackPulsesClock := by
  refine ⟨fun s hs he hx hp => exec_busNoack hs ?_, fun s hs hc he hx =>
    ⟨s.bus.pulsed.ee.ptr, pulsed_ptr, exec_busNoack hs (busRun_noack_low hc he hx)⟩⟩
  have hu : Bus.Unheard { s.bus with sdaOut := true } := ⟨he, hx⟩
  rw [busRun_noackWires, Bus.Unheard.setSda_true ⟨he, hx⟩ hp, hu.raised, hu.setScl_false]
  rfl

/-! ## A further slave's drive, one level after each falling edge (R40, R69) -/

/-- After n + 1 falling clock edges it drives entry n of its script. -/
theorem extFall_iterate (n : Nat) (b : Bus) :
    extFall^[n + 1] b = { b with extDrive := b.extScript.getD n true, extScript := b.extScript.drop (n + 1) } := by
  induction n with
  | zero => cases h : b.extScript <;> simp [extFall, h]
  | succ n ih =>
    rw [Function.iterate_succ_apply', ih]
    simp [extFall, List.headD_eq_head?_getD]

/-! ## BUS_SEND (R114) -/

section Send
variable {p : Params} {b : Bus}

theorem busRun_bit_unheard (v : Bit) (h : b.Unheard) (hc : b.sclOut = false) :
    busRun p (bitWires v) b = .ok { extFall b with sdaOut := v } := by
  have hu : Bus.Unheard { b with sdaOut := v } := ⟨h.ee, h.iox⟩
  simp only [bitWires, busRun, Wire.run, setSda_of_low v hc, setScl_true, hu.raised, hu.setScl_false]
  simp only [extFall, hc]

/-- Any bits: the data latch ends at the last one, and a further slave has had as many falling edges. -/
theorem busRun_bits_unheard (vs : List Bit) (h : b.Unheard) (hc : b.sclOut = false) :
    busRun p (vs.flatMap bitWires) b = .ok (extFall^[vs.length] { b with sdaOut := vs.getLastD b.sdaOut }) := by
  induction vs generalizing b with
  | nil => rfl
  | cons v vs ih =>
    have hu : Bus.Unheard { extFall b with sdaOut := v } := ⟨h.ee, h.iox⟩
    rw [List.flatMap_cons, busRun_append, busRun_bit_unheard v h hc]
    exact (ih hu hc).trans (by rw [List.getLastD_cons]; rfl)

/-- The ninth clock: ACK gets the level a further slave drives before its falling edge. -/
theorem busRun_ack_unheard (h : b.Unheard) (hc : b.sclOut = false) (ho : p.busOpenDrain = true ∨ b.extDrive = true) :
    busRun p ackWires b = .ok { extFall b with sdaOut := true, ack := b.extDrive } := by
  have hu : Bus.Unheard { b with sdaOut := true } := ⟨h.ee, h.iox⟩
  have hu' : Bus.Unheard { b with sdaOut := true, ack := b.extDrive } := ⟨h.ee, h.iox⟩
  have hwire : slvSda { b with sclOut := true, sdaOut := true } = b.extDrive := Bus.Unheard.slvSda_eq ⟨h.ee, h.iox⟩
  have hsample : sampleAck p { b with sclOut := true, sdaOut := true } =
      { b with sclOut := true, sdaOut := true, ack := b.extDrive } := by
    rw [sampleAck, readLine_eq (ho.imp_right fun hd => by rw [contention, hwire, hd]; rfl), sdaWire, hwire, Bool.true_and]
  simp only [ackWires, busRun, Wire.run, setSda_of_low true hc, setScl_true, hu.raised, hsample, hu'.setScl_false]
  simp only [extFall, hc]

/-- A byte meant for no reference slave: the acknowledgment is the level a further slave drives after the eighth falling
edge. -/
theorem busRun_send_unheard (v : Byte) (h : b.Unheard) (hc : b.sclOut = false)
    (ho : p.busOpenDrain = true ∨ b.extScript.getD 7 true = true) :
    busRun p (sendWires v) b =
      .ok { b with
            sclOut := false, sdaOut := true, ack := b.extScript.getD 7 true
            extDrive := b.extScript.getD 8 true, extScript := b.extScript.drop 9 } := by
  have hsend : sendWires v = ((List.range 8).map fun i => v.getLsbD (7 - i)).flatMap bitWires ++ ackWires := rfl
  rw [hsend, busRun_append, busRun_bits_unheard _ h hc]
  have hbits : extFall^[8] { b with sdaOut := v.getLsbD 0 } =
      { b with sdaOut := v.getLsbD 0, extDrive := b.extScript.getD 7 true, extScript := b.extScript.drop 8 } :=
    extFall_iterate 7 _
  have hu : Bus.Unheard (extFall^[8] { b with sdaOut := v.getLsbD 0 }) := by rw [hbits]; exact ⟨h.ee, h.iox⟩
  refine (busRun_ack_unheard hu (by rw [hbits]; exact hc) (by rw [hbits]; exact ho)).trans ?_
  rw [hbits, extFall, List.headD_eq_head?_getD, List.head?_drop, List.tail_drop, ← List.getD_eq_getElem?_getD, hc]

end Send

/-- Settles O3: the ninth pulse comes after eight falling edges, each of which moves a further slave to its next level. -/
theorem busSendReturnsNinthBit : Obligations.BusSendReturnsNinthBit :=
  fun v _ hs hc he hx ho => exec_busSend hs (busRun_send_unheard v ⟨he, hx⟩ hc ho)

/-! ## BUS_RECV (R116) -/

section Recv
variable {p : Params} {b : Bus}

theorem takeBit_unheard (h : b.Unheard) (hc : b.sclOut = false) (ho : p.busOpenDrain = true) :
    takeBit p b = .ok (b.sdaOut && b.extDrive, extFall b) := by
  have hwire : slvSda { b with sclOut := true } = b.extDrive := Bus.Unheard.slvSda_eq ⟨h.ee, h.iox⟩
  simp only [takeBit, setScl_true, h.raised, readLine_eq (.inl ho), h.setScl_false, sdaWire, hwire]
  simp only [extFall, hc]

/-- n bits: each sample is the master's level and a further slave's together. -/
theorem takeBits_unheard (n : Nat) (r : Byte) (h : b.Unheard) (hc : b.sclOut = false) (ho : p.busOpenDrain = true) :
    takeBits p n r b =
      .ok (((List.range n).map fun i => b.sdaOut && (extFall^[i] b).extDrive).foldl shiftIn r, extFall^[n] b) := by
  induction n generalizing r b with
  | zero => rfl
  | succ n ih =>
    rw [takeBits, takeBit_unheard h hc ho]
    refine (ih (shiftIn r (b.sdaOut && b.extDrive)) h.extFall hc).trans ?_
    simp only [List.range_succ_eq_map, List.map_cons, List.map_map, List.foldl_cons]
    rfl

end Recv

/-- Eight samples shifted in, bit 7 first, make the byte driven; with the master holding the wire low every sample is 0. -/
theorem shiftIn_samples (v : Byte) (sda : Bit) :
    ((List.range 8).map fun i => sda && v.getLsbD (7 - i)).foldl shiftIn 0#8 = if sda then v else 0#8 := by
  cases sda with
  | false => simp only [Bool.false_and]; rfl
  | true => exact shift_eight 0#8 v

/-- The levels a further slave drives are the bits of v, most significant first. -/
theorem extDrive_iterate {v : Byte} {b : Bus} (h7 : b.extDrive = v.getLsbD 7)
    (h : ∀ i < 7, b.extScript.getD i true = v.getLsbD (6 - i)) {i : Nat} (hi : i < 8) :
    (extFall^[i] b).extDrive = v.getLsbD (7 - i) := by
  cases i with
  | zero => exact h7
  | succ i =>
    rw [extFall_iterate]
    exact (h i (by omega)).trans (congrArg v.getLsbD (by omega))

/-- Settles O4: the eight levels before the eight falling edges are the bits of the byte. -/
theorem busRecvAssemblesByte : Obligations.BusRecvAssemblesByte := by
  intro v s hs hc ho he hx h7 hbits
  have hlevels : ((List.range 8).map fun i => s.bus.sdaOut && (extFall^[i] s.bus).extDrive) =
      (List.range 8).map fun i => s.bus.sdaOut && v.getLsbD (7 - i) :=
    List.map_congr_left fun i hi => by rw [extDrive_iterate h7 hbits (List.mem_range.mp hi)]
  refine exec_busRecv hs ((takeBits_unheard 8 0#8 ⟨he, hx⟩ hc ho).trans ?_)
  rw [hlevels, shiftIn_samples, extFall_iterate]

end Sys2Proof.Machine
end

section
/-! PROOF. The EEPROM client (41_eeprom_client.md R131 to R134) with the reference EEPROM (20_memory.md R66, R67): what an
exchange does on the wires, then as a piece of an expansion, then the two operations. -/

namespace Sys2Proof.Machine

/-! ## The EEPROM's bytes on the wires (R66) -/

/-- The bus after a byte that the EEPROM has acknowledged, the EEPROM standing at e. -/
def Bus.acked (b : Bus) (e : Eeprom) : Bus := { b with sclOut := false, sdaOut := true, ack := false, ee := e }

/-- The same after the eight bits of m that the EEPROM has sent: EE_PTR is free (U10). -/
def Bus.cellSent (b : Bus) (e : Eeprom) (m : Byte) : Bus :=
  { b.acked { e with slave := sentSlave m, ptr := Config.any .bus 8 b.draws } with draws := b.draws + 1 }

/-- Nobody but the EEPROM takes part: the expander is not addressed and no further slave drives (R66). -/
structure Bus.EepromAlone (b : Bus) : Prop where
  iox : b.iox.slave = Slave.unaddressed
  ext : b.extDrive = true
  script : b.extScript = []

theorem eepromAlone_of_busFree {s : State} (h : s.busFree = true) : s.bus.EepromAlone := by
  obtain ⟨-, hiox, -, hext, hscript⟩ := (busFree_iff s).mp h
  exact ⟨hiox, hext, hscript⟩

theorem eepromAnswers_iff (s : State) : s.eepromAnswers = true ↔ s.cfg.eePresent = true ∧ s.bus.ee.wbusy = false := by
  simp only [State.eepromAnswers, Bool.and_eq_true, Bool.not_eq_true']

/-- The EEPROM waiting for a data byte, or for a second start condition, at page and offset (R131, R132). -/
def Eeprom.addressed (e : Eeprom) (page : BitVec 3) (offset : Byte) : Eeprom :=
  { e with page := page, ptr := offset, slave := Slave.listening .third offset }

/-- The EEPROM about to send the cell at page and offset (R132). -/
def Eeprom.reading (e : Eeprom) (page : BitVec 3) (offset : Byte) : Eeprom :=
  { e with
    page := page, ptr := offset
    slave := Slave.sending (Memory.read Config.unwritten e.mem (eeIndex page offset)) }

namespace Bus.EepromAlone
variable {p : Params} {b : Bus} {e : Eeprom}

theorem acked (h : b.EepromAlone) (e : Eeprom) : (b.acked e).EepromAlone := ⟨h.iox, h.ext, h.script⟩

theorem acked_ready (h : b.EepromAlone) (e : Eeprom) : (b.acked e).Ready := ⟨rfl, h.ext, h.script⟩

theorem slvSda_eq (h : b.EepromAlone) : slvSda b = b.ee.slave.drive := by
  simp [slvSda, h.iox, h.ext, Slave.unaddressed]

theorem start (h : b.EepromAlone) (hd : b.ee.slave.drive = true) (hp : b.ee.pend = none) :
    busRun p startWires b = .ok (b.started p) := by
  rw [busRun_start (h.slvSda_eq.trans hd) hp, extFall_of_silent h.ext h.script]
  rfl

/-- The control byte of R89: with r/w = 0 the EEPROM waits for an offset, with 1 it sends the addressed cell. -/
theorem control (h : b.EepromAlone) (hl : p.legal = true) (ho : p.busOpenDrain = true) (hpe : p.eePresent = true)
    (hw : b.ee.wbusy = false) (page : BitVec 3) (rw : Bit) :
    busRun p (sendWires (controlByte (page.setWidth 8) rw)) (b.started p) =
      .ok (b.acked { b.ee with
        page := page
        slave :=
          if rw then Slave.sending (Memory.read Config.unwritten b.ee.mem (eeIndex page b.ee.ptr))
          else Slave.listening .second (controlByte (page.setWidth 8) rw) }) := by
  have htype := controlByte_type page rw
  have hstart : (b.started p).ee.slave = slaveStart true := by rw [← hpe]; rfl
  rw [busRun_control (b := b.started p) _ ho ⟨rfl, h.ext, h.script⟩ hstart rfl htype hw fun _ => ne_ioxAddr_of_type hl htype,
    controlByte_page, controlByte_rw]
  simp only [Bus.started, Bus.acked, Expander.with_slave h.iox]

theorem offset (h : b.EepromAlone) (ho : p.busOpenDrain = true) {u : Byte} (he : e.slave = Slave.listening .second u)
    (v : Byte) :
    busRun p (sendWires v) (b.acked e) = .ok (b.acked { e with ptr := v, slave := Slave.listening .third v }) :=
  busRun_offset v u ho (h.acked_ready e) he h.iox

theorem data (h : b.EepromAlone) (ho : p.busOpenDrain = true) {u : Byte} (he : e.slave = Slave.listening .third u)
    (v : Byte) :
    busRun p (sendWires v) (b.acked e) = .ok (b.acked { e with pend := some v, slave := Slave.listening .extra v }) :=
  busRun_data v u ho (h.acked_ready e) he h.iox

/-- The control byte after the second start condition: the EEPROM is about to send the cell the first two bytes named. -/
theorem control_read (h : b.EepromAlone) (hl : p.legal = true) (ho : p.busOpenDrain = true) (hpe : p.eePresent = true)
    (hw : b.ee.wbusy = false) (page : BitVec 3) (offset : Byte) :
    busRun p (sendWires (controlByte (page.setWidth 8) true)) ((b.acked (b.ee.addressed page offset)).started p) =
      .ok (b.acked (b.ee.reading page offset)) :=
  (h.acked (b.ee.addressed page offset)).control hl ho hpe hw page true

theorem recv (h : b.EepromAlone) (ho : p.busOpenDrain = true) {m : Byte} (he : e.slave = Slave.sending m) :
    takeBits p 8 0#8 (b.acked e) = .ok (m, b.cellSent e m) :=
  takeBits_ee m ho (h.acked_ready e) rfl he h.iox

theorem close (h : b.EepromAlone) (hp : e.pend = none) (m : Byte) :
    busRun p (noackWires ++ stopWires) (b.cellSent e m) =
      .ok { b with
        sclOut := true, sdaOut := true, ack := false, draws := b.draws + 1
        ee := { e with slave := Slave.unaddressed, ptr := Config.any .bus 8 b.draws } } :=
  busRun_closeEe (b := b.cellSent e m) m ⟨rfl, h.ext, h.script⟩ rfl h.iox hp

/-- The stop condition that performs a pending write. -/
theorem stop (h : b.EepromAlone) (hd : e.slave.drive = true) :
    busRun p stopWires (b.acked e) = .ok { b.acked (eeStop e) with sclOut := true } := by
  rw [busRun_stop rfl ((h.acked e).slvSda_eq.trans hd)]
  simp only [Bus.acked, Expander.with_slave h.iox]

/-- A stop condition with nobody addressed. -/
theorem stop_unaddressed (h : b.EepromAlone) (hc : b.sclOut = false) (he : b.ee.slave = Slave.unaddressed)
    (hp : b.ee.pend = none) : busRun p stopWires b = .ok { b with sclOut := true, sdaOut := true } := by
  rw [busRun_stop hc (h.slvSda_eq.trans (by rw [he]; rfl)), eeStop_of_not_pending hp, Eeprom.with_slave he,
    Expander.with_slave h.iox]

end Bus.EepromAlone

/-- The bus after a first byte that nobody acknowledges (R66, R67). -/
def Bus.refused (b : Bus) : Bus := { b with sclOut := false, sdaOut := true, ack := true }

/-- Absent or in its write cycle the EEPROM does not answer its control byte, and nobody else does. -/
theorem busRun_control_unanswered {s : State} (hf : s.busFree = true) (hl : s.cfg.legal = true)
    (ha : s.eepromAnswers = false) (page : BitVec 3) (rw : Bit) :
    busRun s.cfg (sendWires (controlByte (page.setWidth 8) rw)) (s.bus.started s.cfg) = .ok s.bus.refused := by
  obtain ⟨hee, hiox, -⟩ := (busFree_iff s).mp hf
  have htype := controlByte_type page rw
  have hsilent : ¬ (s.cfg.eePresent = true ∧ s.bus.ee.wbusy = false) := by simp [← eepromAnswers_iff, ha]
  rw [busRun_firstNack _ (started_ready hf) rfl rfl (fun hpe hready => hsilent ⟨hpe, hready.2⟩)
    fun _ => ne_ioxAddr_of_type hl htype]
  simp only [Bus.started, Bus.refused, Eeprom.with_slave hee, Expander.with_slave hiox]

theorem eepromAlone_refused {s : State} (h : s.busFree = true) : s.bus.refused.EepromAlone := by
  obtain ⟨hiox, hext, hscript⟩ := eepromAlone_of_busFree h
  exact ⟨hiox, hext, hscript⟩

/-- The ninth clock and the stop condition that close an unanswered read. -/
theorem busRun_closeRefused {s : State} (hf : s.busFree = true) :
    busRun s.cfg (noackWires ++ stopWires) s.bus.refused = .ok { s.bus with sclOut := true, sdaOut := true, ack := true } := by
  obtain ⟨hee, hiox, hpend, hext, hscript⟩ := (busFree_iff s).mp hf
  rw [busRun_append, busRun_noackFree (b := s.bus.refused) hee hiox hpend hext hscript]
  exact (eepromAlone_refused hf).stop_unaddressed rfl hee hpend

/-! ## Pieces of a client's expansion (R131, R132, R133) -/

/-- What lies before the closing steps is skipped after a byte that is not acknowledged (R133). -/
theorem goSkip_toClosing {c : Ctx} {n : Nat} {l k : List Item} {s : State} (h : .ctl .closing ∉ l) :
    goSkip c n (l ++ .ctl .closing :: k) s = go c n k s := by
  induction l with
  | nil => exact goSkip_closing
  | cons i l ih =>
    obtain ⟨hi, hl⟩ := not_or.mp (mt List.mem_cons.mpr h)
    cases i with
    | prim p => exact goSkip_prim.trans (ih hl)
    | ctl x => exact (goSkip_ctl fun hx => hi (hx ▸ rfl)).trans (ih hl)

/-- The state once context c has drawn its data half. -/
def State.drawn (s : State) (c : Ctx) : State :=
  State.setTr { s with draws := s.draws + 1 } c { s.tr c with d := Config.any .core 8 s.draws }

section Drawn
variable (s : State) (c : Ctx)

@[simp] theorem drawn_cfg : (s.drawn c).cfg = s.cfg := by cases c <;> rfl
@[simp] theorem drawn_bus : (s.drawn c).bus = s.bus := by cases c <;> rfl
@[simp] theorem drawn_tr : (s.drawn c).tr c = { s.tr c with d := Config.any .core 8 s.draws } := by cases c <;> rfl
@[simp] theorem drawn_busFree : (s.drawn c).busFree = s.busFree := by cases c <;> rfl
@[simp] theorem drawn_eepromAnswers : (s.drawn c).eepromAnswers = s.eepromAnswers := by cases c <;> rfl
@[simp] theorem drawn_onBusTr (b : Bus) (t : Transients) :
    (s.drawn c).onBusTr c b t = State.onBusTr { s with draws := s.draws + 1 } c b t := by cases c <;> rfl

variable {s c} in
theorem Running.drawn (h : Running c s) : Running c (s.drawn c) := h.congr (by cases c <;> rfl) (by cases c <;> rfl)

end Drawn

/-- A context's transients after a byte v that it sent, acknowledged where a = 0 (R114). -/
def Transients.sent (t : Transients) (v : Byte) (a : Bit) : Transients := { t with txv := v, bit := 0, a := a }

/-- And after a byte v that it received (R116). -/
def Transients.received (t : Transients) (v : Byte) : Transients := { t with rxv := v, bit := 0, d := v }

section Pieces
variable {c : Ctx} {n : Nat} {k : List Item} {s : State} {b b' : Bus}

/-- A start condition. -/
theorem go_started {t : Transients} (h : Running c s) (hb : busRun s.cfg startWires b = .ok b') :
    go c (n + 4) (busStartCode ++ k) (s.onBusTr c b t) = go c n k (s.onBusTr c b' t) := by
  simp only [go_busStart (h.onBusTr b t), onBusTr_cfg, onBusTr_bus, onBusTr_tr, onBusTr_twice, hb, thenBus_ok]

/-- A stop condition. -/
theorem go_stopped {t : Transients} (h : Running c s) (hb : busRun s.cfg stopWires b = .ok b') :
    go c (n + 3) (busStopCode ++ k) (s.onBusTr c b t) = go c n k (s.onBusTr c b' t) := by
  simp only [go_busStop (h.onBusTr b t), onBusTr_cfg, onBusTr_bus, onBusTr_tr, onBusTr_twice, hb, thenBus_ok]

/-- A ninth clock and a stop condition. -/
theorem go_closed {t : Transients} (h : Running c s) (hb : busRun s.cfg (noackWires ++ stopWires) b = .ok b') :
    go c (n + 6) (busNoackCode ++ (busStopCode ++ k)) (s.onBusTr c b t) = go c n k (s.onBusTr c b' t) := by
  rw [← List.append_assoc]
  simp only [go_busClose (h.onBusTr b t), onBusTr_cfg, onBusTr_bus, onBusTr_tr, onBusTr_twice, hb, thenBus_ok]

/-- A byte sent. -/
theorem go_sent {v : Byte} {t : Transients} (h : Running c s) (hb : busRun s.cfg (sendWires v) b = .ok b') :
    go c (n + 28) (busSendCode v ++ k) (s.onBusTr c b t) =
      go c n k (s.onBusTr c b' (t.sent v b'.ack)) := by
  simp only [go_busSend v (h.onBusTr b t), onBusTr_cfg, onBusTr_bus, onBusTr_tr, onBusTr_twice, hb, thenBus_ok,
    Transients.sent]

/-- A byte received. -/
theorem go_received {v : Byte} {t : Transients} (h : Running c s) (hb : takeBits s.cfg 8 0#8 b = .ok (v, b')) :
    go c (n + 24) (busRecvCode ++ k) (s.onBusTr c b t) =
      go c n k (s.onBusTr c b' (t.received v)) := by
  simp only [go_busRecv (h.onBusTr b t), onBusTr_cfg, onBusTr_bus, onBusTr_tr, onBusTr_twice, hb, thenByte_ok,
    Transients.received]

/-- A byte that is acknowledged: the operation goes on. -/
theorem go_sendAcked {v : Byte} {t : Transients} (h : Running c s) (hb : busRun s.cfg (sendWires v) b = .ok b')
    (ha : b'.ack = false) :
    go c (n + 28) (busSendCode v ++ .ctl .nackToClosing :: k) (s.onBusTr c b t) =
      go c n k (s.onBusTr c b' (t.sent v false)) := by
  rw [go_sent h hb, ha]
  exact go_goOn (by simp [runCtl, Transients.sent])

/-- A byte that is not: the closing steps come next. -/
theorem go_sendRefused {v : Byte} {t : Transients} {l : List Item} (h : Running c s)
    (hb : busRun s.cfg (sendWires v) b = .ok b') (ha : b'.ack = true) (hl : .ctl .closing ∉ l) :
    go c (n + 28) (busSendCode v ++ .ctl .nackToClosing :: (l ++ .ctl .closing :: k)) (s.onBusTr c b t) =
      go c n k (s.onBusTr c b' (t.sent v true)) := by
  rw [go_sent h hb, ha]
  exact (go_skip (by simp [runCtl, Transients.sent])).trans (goSkip_toClosing hl)

/-- The settle delay: the write cycle is over if the environment lets it settle (R67, R71). -/
theorem go_delay {ms : Nat} {t : Transients} (h : Running c s) :
    go c (n + 1) (.prim (.delay ms) :: k) (s.onBusTr c b t) =
      go c n k (s.onBusTr c { b with ee := { b.ee with wbusy := b.ee.wbusy && decide (s.env.ee ≠ .settles) } } t) := by
  have hsettles : (!(s.env.ee == .settles)) = decide (s.env.ee ≠ .settles) := by cases s.env.ee <;> rfl
  have heffect : delayMs (s.onBusTr c b t) =
      s.onBusTr c { b with ee := { b.ee with wbusy := b.ee.wbusy && decide (s.env.ee ≠ .settles) } } t := by
    rw [← hsettles]
    cases c <;> rfl
  rw [go_prim (h.onBusTr b t), readyEager_onBusTr, runPrim, thenDo_next, heffect]

/-- The data half an unanswered read returns is drawn first (U4). -/
theorem go_drawData : go c n (.ctl .drawData :: k) s = go c n k (s.drawn c) := go_goOn rfl

end Pieces

/-! ## The two operations' expansions (R131, R132) -/

section Clients
variable {c : Ctx} {n : Nat} {k : List Item} {s : State} {page : BitVec 3} {offset data : Byte}

/-- How both begin: the EEPROM ends up at page and offset. -/
theorem go_eeAddress (h : Running c s) (hf : s.busFree = true) (hl : s.cfg.legal = true)
    (ho : s.cfg.busOpenDrain = true) (ha : s.eepromAnswers = true) :
    go c (n + 60) (busStartCode ++ (busSendCode (controlByte (page.setWidth 8) false) ++ .ctl .nackToClosing ::
        (busSendCode offset ++ .ctl .nackToClosing :: k))) s =
      go c n k (s.onBusTr c (s.bus.acked (s.bus.ee.addressed page offset))
        (((s.tr c).sent (controlByte (page.setWidth 8) false) false).sent offset false)) := by
  obtain ⟨hpe, hready⟩ := (eepromAnswers_iff s).mp ha
  have alone := eepromAlone_of_busFree hf
  rw [go_busStart (n := n + 56) h, busRun_startFree hf, thenBus_ok,
    go_sendAcked (n := n + 28) h (alone.control hl ho hpe hready page false) rfl,
    go_sendAcked h (alone.offset ho rfl offset) rfl]
  rfl

/-- How both reach their closing steps where the EEPROM does not answer (R133). -/
theorem go_eeUnanswered {l : List Item} (h : Running c s) (hf : s.busFree = true)
    (hl : s.cfg.legal = true) (ha : s.eepromAnswers = false) (hc : .ctl .closing ∉ l) :
    go c (n + 32) (busStartCode ++ (busSendCode (controlByte (page.setWidth 8) false) ++ .ctl .nackToClosing ::
        (l ++ .ctl .closing :: k))) s =
      go c n k (s.onBusTr c s.bus.refused
        ((s.tr c).sent (controlByte (page.setWidth 8) false) true)) := by
  rw [go_busStart (n := n + 28) h, busRun_startFree hf, thenBus_ok,
    go_sendRefused h (busRun_control_unanswered hf hl ha page false) rfl hc]

/-- EE_WRITE answered (R131): three acknowledged bytes leave the write pending, the stop condition performs it, the delay
follows. -/
theorem go_eeWrite (h : Running c s) (hf : s.busFree = true) (hl : s.cfg.legal = true)
    (ho : s.cfg.busOpenDrain = true) (ha : s.eepromAnswers = true) :
    go c (n + 92) (eeWriteCode s.cfg (page.setWidth 8) offset data ++ k) s =
      go c n k (s.onBusTr c
        { s.bus with
          sclOut := true, sdaOut := true, ack := false
          ee := { s.bus.ee with
            page := page, ptr := offset, wbusy := decide (s.env.ee ≠ .settles)
            mem := writeEeprom s.bus.ee.mem page offset data } }
        ((((s.tr c).sent (controlByte (page.setWidth 8) false) false).sent offset false).sent data false)) := by
  obtain ⟨hee, -, hpend, -⟩ := (busFree_iff s).mp hf
  have alone := eepromAlone_of_busFree hf
  simp only [eeWriteCode, List.append_assoc, List.cons_append, List.nil_append]
  rw [go_eeAddress (n := n + 32) h hf hl ho ha, go_sent (n := n + 4) h (alone.data ho rfl data), go_goOn rfl,
    go_stopped (n := n + 1) h (alone.stop rfl), go_delay h, eeStop_of_pending rfl]
  simp only [eeSettlePending, Eeprom.addressed, Bus.acked, hee, hpend, Bool.true_or, Bool.true_and, if_true]

/-- EE_WRITE unanswered (R131, R133): the stop condition and the delay come next. -/
theorem go_eeWrite_unanswered (h : Running c s) (hf : s.busFree = true) (hl : s.cfg.legal = true)
    (ha : s.eepromAnswers = false) :
    go c (n + 36) (eeWriteCode s.cfg (page.setWidth 8) offset data ++ k) s =
      go c n k (s.onBusTr c
        { s.bus with
          sclOut := true, sdaOut := true, ack := true
          ee := { s.bus.ee with wbusy := s.bus.ee.wbusy && decide (s.env.ee ≠ .settles) } }
        ((s.tr c).sent (controlByte (page.setWidth 8) false) true)) := by
  obtain ⟨hee, -, hpend, -⟩ := (busFree_iff s).mp hf
  have hskip : .ctl .closing ∉ busSendCode offset ++ (.ctl .nackToClosing :: busSendCode data) := by
    simp [busSendCode, sendBitCode, ackCode]
  have hcode : eeWriteCode s.cfg (page.setWidth 8) offset data ++ k =
      busStartCode ++ (busSendCode (controlByte (page.setWidth 8) false) ++ .ctl .nackToClosing ::
        ((busSendCode offset ++ (.ctl .nackToClosing :: busSendCode data)) ++ .ctl .closing ::
          (busStopCode ++ .prim (.delay s.cfg.eeSettleMs) :: k))) := by
    simp only [eeWriteCode, List.append_assoc, List.cons_append, List.nil_append]
  rw [hcode, go_eeUnanswered (n := n + 4) h hf hl ha hskip,
    go_stopped (n := n + 1) h ((eepromAlone_refused hf).stop_unaddressed rfl hee hpend), go_delay h]
  rfl

/-- EE_READ answered (R132): a second start condition, the control byte for reading, then the addressed cell, which the master
does not acknowledge. -/
theorem go_eeRead (h : Running c s) (hf : s.busFree = true) (hl : s.cfg.legal = true) (ho : s.cfg.busOpenDrain = true)
    (ha : s.eepromAnswers = true) :
    go c (n + 122) (eeReadCode (page.setWidth 8) offset ++ k) s =
      go c n k (State.onBusTr { s with draws := s.draws + 1 } c
        { s.bus with
          sclOut := true, sdaOut := true, ack := false, draws := s.bus.draws + 1
          ee := { s.bus.ee with page := page, ptr := Config.any .bus 8 s.bus.draws } }
        ((((s.drawn c).tr c).sent (controlByte (page.setWidth 8) false) false |>.sent offset false
          |>.sent (controlByte (page.setWidth 8) true) false).received (readEeprom s (eeIndex page offset)))) := by
  obtain ⟨hee, -, hpend, -⟩ := (busFree_iff s).mp hf
  obtain ⟨hpe, hready⟩ := (eepromAnswers_iff s).mp ha
  have alone := eepromAlone_of_busFree hf
  have hd : Running c { s with draws := s.draws + 1 } := h.congr rfl rfl
  simp only [eeReadCode, List.append_assoc, List.cons_append, List.nil_append]
  rw [go_drawData, go_eeAddress (n := n + 62) h.drawn (by simpa using hf) (by simpa using hl) (by simpa using ho)
    (by simpa using ha)]
  simp only [drawn_onBusTr, drawn_bus]
  rw [go_started (n := n + 58) hd ((alone.acked (s.bus.ee.addressed page offset)).start rfl hpend),
    go_sendAcked (n := n + 30) hd (alone.control_read hl ho hpe hready page offset) rfl,
    go_received (n := n + 6) hd (alone.recv ho rfl), go_goOn rfl,
    go_closed hd (alone.close (e := s.bus.ee.reading page offset) hpend _)]
  simp only [Eeprom.reading, hee]
  rfl

/-- EE_READ unanswered (R132, R133): the ninth clock and the stop condition come next, with the data half as drawn. -/
theorem go_eeRead_unanswered (h : Running c s) (hf : s.busFree = true) (hl : s.cfg.legal = true)
    (ha : s.eepromAnswers = false) :
    go c (n + 38) (eeReadCode (page.setWidth 8) offset ++ k) s =
      go c n k (State.onBusTr { s with draws := s.draws + 1 } c
        { s.bus with sclOut := true, sdaOut := true, ack := true }
        (((s.drawn c).tr c).sent (controlByte (page.setWidth 8) false) true)) := by
  have hd : Running c { s with draws := s.draws + 1 } := h.congr rfl rfl
  have hskip : .ctl .closing ∉ busSendCode offset ++ (.ctl .nackToClosing :: (busStartCode ++
      (busSendCode (controlByte (page.setWidth 8) true) ++ (.ctl .nackToClosing :: busRecvCode)))) := by
    simp [busSendCode, sendBitCode, ackCode, busStartCode, busRecvCode, recvBitCode]
  have hcode : eeReadCode (page.setWidth 8) offset ++ k =
      .ctl .drawData :: (busStartCode ++ (busSendCode (controlByte (page.setWidth 8) false) ++ .ctl .nackToClosing ::
        ((busSendCode offset ++ (.ctl .nackToClosing :: (busStartCode ++
          (busSendCode (controlByte (page.setWidth 8) true) ++ (.ctl .nackToClosing :: busRecvCode))))) ++ .ctl .closing ::
            (busNoackCode ++ (busStopCode ++ k))))) := by
    simp only [eeReadCode, List.append_assoc, List.cons_append, List.nil_append]
  rw [hcode, go_drawData, go_eeUnanswered (n := n + 6) h.drawn (by simpa using hf) (by simpa using hl) (by simpa using ha)
    hskip]
  simp only [drawn_onBusTr, drawn_bus]
  rw [go_closed hd (busRun_closeRefused hf)]

end Clients

/-! ## The obligations -/

/-- R87: a page of the domain is one of three bits. -/
theorem eq_setWidth_of_page {page : Byte} (h : page.toNat ≤ 7) : ∃ q : BitVec 3, page = q.setWidth 8 :=
  ⟨page.setWidth 3, by bv_omega⟩

theorem setWidth_page (q : BitVec 3) (offset : Byte) :
    (q.setWidth 8 : Byte).setWidth 3 = q ∧ (q.setWidth 8 : Byte).toNat * 256 + offset.toNat = eeIndex q offset := by
  have := q.isLt
  exact ⟨by simp, by simp only [eeIndex, BitVec.toNat_setWidth]; omega⟩

/-- An operation whose expansion is on the wires alone: what its last bus micro-step leaves is returned. -/
theorem perform_of_onBusTr {i : Instr} {k : RetKind} {code : List Item} {q : Seq} {b : Bus} {t : Transients} {s u : State}
    (m : Nat) (hm : m ≤ Config.quantum) (hs : s.calm = true) (hu : u.calm = true)
    (hgo : go .fg m (code ++ [.ctl (.ret k)]) { s with fg := { op := some i, rest := [], tr := Transients.none } } =
      go .fg 0 [.ctl (.ret k)] (State.onBusTr { u with fg := q } .fg b t)) :
    perform i (code ++ [.ctl (.ret k)]) s = .next { u.done (resultOf k t) with bus := b } :=
  perform_of_go m hm (resting_of_calm hs) (hgo.trans (go_return_onBusTr hu)) (resting_of_calm (s := u) hu)

theorem exec_eeWrite {page : Byte} (h : page.toNat ≤ 7) (offset data : Byte) (s : State) :
    exec (.eeWrite page offset data) s =
      perform (.eeWrite page offset data) (eeWriteCode s.cfg page offset data ++ [.ctl (.ret .ack)]) s :=
  if_pos (decide_eq_true h)

theorem exec_eeRead {page : Byte} (h : page.toNat ≤ 7) (offset : Byte) (s : State) :
    exec (.eeRead page offset) s = perform (.eeRead page offset) (eeReadCode page offset ++ [.ctl (.ret .ackData)]) s :=
  if_pos (decide_eq_true h)

/-- Settles O7: the write that the stop condition performs is the one cell's. -/
theorem eeWriteStoresByte : Obligations.EeWriteStoresByte := by
  intro page offset data s hp hs hf hl ho ha hm
  obtain ⟨q, rfl⟩ := eq_setWidth_of_page hp
  obtain ⟨hpage, hindex⟩ := setWidth_page q offset
  rw [hpage, hindex, exec_eeWrite hp]
  refine ⟨writeEeprom s.bus.ee.mem q offset data, ?_, Memory.read_write (Bool.and_eq_true_iff.mp hm).1 _ data⟩
  exact perform_of_onBusTr 92 (by decide) hs hs (go_eeWrite (n := 0) (running_of_calm hs _) hf hl ho ha)

/-- Settles O8: the stop condition finds nothing to write. -/
theorem eeWriteUnanswered : Obligations.EeWriteUnanswered := by
  intro page offset data s hp hs hf hl ha
  obtain ⟨q, rfl⟩ := eq_setWidth_of_page hp
  rw [exec_eeWrite hp]
  exact perform_of_onBusTr 36 (by decide) hs hs (go_eeWrite_unanswered (n := 0) (running_of_calm hs _) hf hl ha)

/-- Settles O9: the eight bits received are the addressed cell's, and EE_PTR is the value drawn at the last of them. -/
theorem eeReadReturnsCell : Obligations.EeReadReturnsCell := by
  intro page offset s hp hs hf hl ho ha
  obtain ⟨q, rfl⟩ := eq_setWidth_of_page hp
  obtain ⟨hpage, hindex⟩ := setWidth_page q offset
  rw [hpage, hindex, exec_eeRead hp]
  exact ⟨_, perform_of_onBusTr (u := { s with draws := s.draws + 1 }) 122 (by decide) hs hs
    (go_eeRead (n := 0) (running_of_calm hs _) hf hl ho ha)⟩

/-- Settles O10: the data half is the value drawn at the beginning. -/
theorem eeReadUnanswered : Obligations.EeReadUnanswered := by
  intro page offset s hp hs hf hl ha
  obtain ⟨q, rfl⟩ := eq_setWidth_of_page hp
  rw [exec_eeRead hp]
  exact ⟨_, perform_of_onBusTr (u := { s with draws := s.draws + 1 }) 38 (by decide) hs hs
    (go_eeRead_unanswered (n := 0) (running_of_calm hs _) hf hl ha)⟩

/-- What EE_WRITE leaves where it is answered and the write cycle settles (O7). -/
def State.eeWritten (s : State) (page offset : Byte) (m : Memory) : State :=
  { s.done (.ack false) with
    bus := { s.bus with
      sclOut := true, sdaOut := true, ack := false
      ee := { s.bus.ee with page := page.setWidth 3, ptr := offset, wbusy := false, mem := m } } }

/-- Settles O11: the state EE_WRITE leaves meets EE_READ's premises, and the cell read is the one written. -/
theorem eepromRoundTrip : Obligations.EepromRoundTrip := by
  intro page offset value s hp hs hf hl ho ha he hm
  obtain ⟨hpe, -⟩ := (eepromAnswers_iff s).mp ha
  obtain ⟨m, hwrite, hcells⟩ := eeWriteStoresByte page offset value s hp hs hf hl ho ha hm
  have hsettled : decide (s.env.ee ≠ .settles) = false := by simp [he]
  rw [hsettled] at hwrite
  obtain ⟨ptr, hread⟩ := eeReadReturnsCell page offset (s.eeWritten page offset m) hp hs hf hl ho
    ((eepromAnswers_iff _).mpr ⟨hpe, rfl⟩)
  have hcell : readEeprom (s.eeWritten page offset m) (page.toNat * 256 + offset.toNat) = value :=
    (hcells _).trans (if_pos rfl)
  rw [hcell] at hread
  exact ⟨s.eeWritten page offset m, _, hwrite, hread, List.append_assoc .., hcells⟩

end Sys2Proof.Machine
end

section
/-! PROOF. The expander client (42_ioexpander_client.md R141, R142) with the reference expander (20_memory.md R68): what an
exchange does on the wires, then as a piece of an expansion, then the two operations. -/

namespace Sys2Proof.Machine

/-! ## The expander's bytes on the wires (R68) -/

/-- The bus after a byte that the expander has acknowledged or sent, the expander standing at x. -/
def Bus.ioxAcked (b : Bus) (x : Expander) : Bus := { b with sclOut := false, sdaOut := true, ack := false, iox := x }

/-- The bus after a whole exchange with the expander, closed by a stop condition; its port is v. -/
def Bus.ioxClosed (b : Bus) (v : Byte) : Bus :=
  { b with sclOut := true, sdaOut := true, ack := false, iox := { b.iox with port := v } }

section Wires
variable {s : State}

theorem ioxAcked_ready (h : s.busFree = true) (x : Expander) : (s.bus.ioxAcked x).Ready := by
  obtain ⟨-, -, -, hext, hscript⟩ := (busFree_iff s).mp h
  exact ⟨rfl, hext, hscript⟩

theorem started_iox_of_present (h : s.cfg.ioxPresent = true) : (s.bus.started s.cfg).iox.slave = slaveStart true := by
  rw [← h]
  rfl

/-- After its write address the expander waits for a port byte. -/
theorem busRun_ioxAddrW (hf : s.busFree = true) (hl : s.cfg.legal = true) (ho : s.cfg.busOpenDrain = true)
    (hp : s.cfg.ioxPresent = true) :
    busRun s.cfg (sendWires s.cfg.ioxAddrW) (s.bus.started s.cfg) =
      .ok (s.bus.ioxAcked { s.bus.iox with slave := Slave.listening .second s.cfg.ioxAddrW }) := by
  obtain ⟨hee, -⟩ := (busFree_iff s).mp hf
  obtain ⟨-, hw, -⟩ := expanderApart_of_legal hl
  rw [busRun_ioxWrite ho (started_ready hf) rfl (started_iox_of_present hp) hw]
  simp only [Bus.started, Bus.ioxAcked, Eeprom.with_slave hee]

/-- After its read address it is about to send its port. -/
theorem busRun_ioxAddrR (hf : s.busFree = true) (hl : s.cfg.legal = true) (ho : s.cfg.busOpenDrain = true)
    (hp : s.cfg.ioxPresent = true) :
    busRun s.cfg (sendWires s.cfg.ioxAddrR) (s.bus.started s.cfg) =
      .ok (s.bus.ioxAcked { s.bus.iox with slave := Slave.sending s.bus.iox.port }) := by
  obtain ⟨hee, -⟩ := (busFree_iff s).mp hf
  obtain ⟨hne, -, hr⟩ := expanderApart_of_legal hl
  rw [busRun_ioxRead ho (started_ready hf) rfl (started_iox_of_present hp) hr hne.symm]
  simp only [Bus.started, Bus.ioxAcked, Eeprom.with_slave hee]

/-- Without the expander nobody answers a first byte that is no control byte. -/
theorem busRun_iox_unanswered {v : Byte} (hf : s.busFree = true) (hp : s.cfg.ioxPresent = false)
    (hv : v.extractLsb 7 4 ≠ 0b1010#4) :
    busRun s.cfg (sendWires v) (s.bus.started s.cfg) = .ok s.bus.refused := by
  obtain ⟨hee, hiox, -⟩ := (busFree_iff s).mp hf
  rw [busRun_firstNack v (started_ready hf) rfl rfl (fun _ h => hv h.1) fun h => by simp [hp] at h]
  simp only [Bus.started, Bus.refused, Eeprom.with_slave hee, Expander.with_slave hiox]

/-- The byte after its write address is its new port (R68). -/
theorem busRun_ioxMask {x : Expander} {u : Byte} (hf : s.busFree = true) (ho : s.cfg.busOpenDrain = true)
    (hx : x.slave = Slave.listening .second u) (mask : Byte) :
    busRun s.cfg (sendWires mask) (s.bus.ioxAcked x) =
      .ok (s.bus.ioxAcked { port := mask, slave := Slave.listening .extra mask }) := by
  obtain ⟨hee, -⟩ := (busFree_iff s).mp hf
  exact busRun_ioxPort mask u ho (ioxAcked_ready hf x) hee hx

/-- A stop condition while the expander releases the wire. -/
theorem busRun_ioxStop {x : Expander} (hf : s.busFree = true) (hd : x.slave.drive = true) :
    busRun s.cfg stopWires (s.bus.ioxAcked x) = .ok (s.bus.ioxClosed x.port) := by
  obtain ⟨hee, hiox, hpend, hext, -⟩ := (busFree_iff s).mp hf
  have hwire : slvSda (s.bus.ioxAcked x) = true := by simp [slvSda, Bus.ioxAcked, hee, hd, hext, Slave.unaddressed]
  rw [busRun_stop rfl hwire]
  simp only [Bus.ioxAcked, Bus.ioxClosed, eeStop_of_not_pending hpend, Eeprom.with_slave hee, hiox]

/-- The byte the expander sends (R68, R116). -/
theorem takeBits_ioxPort {x : Expander} {m : Byte} (hf : s.busFree = true) (ho : s.cfg.busOpenDrain = true)
    (hx : x.slave = Slave.sending m) :
    takeBits s.cfg 8 0#8 (s.bus.ioxAcked x) = .ok (m, s.bus.ioxAcked { x with slave := sentSlave m }) := by
  obtain ⟨hee, -⟩ := (busFree_iff s).mp hf
  exact takeBits_iox m ho (ioxAcked_ready hf x) rfl hee hx

/-- The ninth clock and the stop condition after it (R91). -/
theorem busRun_ioxClose {x : Expander} {m : Byte} (hf : s.busFree = true) (hx : x.slave = sentSlave m) :
    busRun s.cfg (noackWires ++ stopWires) (s.bus.ioxAcked x) = .ok (s.bus.ioxClosed x.port) := by
  obtain ⟨hee, hiox, hpend, -⟩ := (busFree_iff s).mp hf
  rw [busRun_closeIox m (ioxAcked_ready hf x) hee hx hpend]
  simp only [Bus.ioxAcked, Bus.ioxClosed, hiox]

end Wires

/-! ## The two operations' expansions (R141, R142), in any context: EDGE_ISR uses both (R203) -/

section Expansions
variable {c : Ctx} {n : Nat} {k : List Item} {s : State} {mask : Byte}

/-- IOX_CFG answered: the port byte follows the address. -/
theorem go_ioxCfg (h : Running c s) (hf : s.busFree = true) (hl : s.cfg.legal = true) (ho : s.cfg.busOpenDrain = true)
    (hp : s.cfg.ioxPresent = true) :
    go c (n + 63) (ioxCfgCode s.cfg mask ++ k) s =
      go c n k (s.onBusTr c (s.bus.ioxClosed mask) (((s.tr c).sent s.cfg.ioxAddrW false).sent mask false)) := by
  simp only [ioxCfgCode, List.append_assoc, List.cons_append, List.nil_append]
  rw [go_busStart (n := n + 59) h, busRun_startFree hf, thenBus_ok,
    go_sendAcked (n := n + 31) h (busRun_ioxAddrW hf hl ho hp) rfl, go_sent (n := n + 3) h (busRun_ioxMask hf ho rfl mask),
    go_goOn rfl, go_stopped h (busRun_ioxStop hf rfl)]
  rfl

/-- IOX_CFG unanswered: the stop condition comes next and the mask is not sent. -/
theorem go_ioxCfg_unanswered (h : Running c s) (hf : s.busFree = true) (hl : s.cfg.legal = true)
    (hp : s.cfg.ioxPresent = false) :
    go c (n + 35) (ioxCfgCode s.cfg mask ++ k) s =
      go c n k (s.onBusTr c { s.bus with sclOut := true, sdaOut := true, ack := true }
        ((s.tr c).sent s.cfg.ioxAddrW true)) := by
  obtain ⟨hee, -, hpend, -⟩ := (busFree_iff s).mp hf
  obtain ⟨-, hw, -⟩ := expanderApart_of_legal hl
  have hskip : .ctl .closing ∉ busSendCode mask := by simp [busSendCode, sendBitCode, ackCode]
  simp only [ioxCfgCode, List.append_assoc, List.cons_append, List.nil_append]
  rw [go_busStart (n := n + 31) h, busRun_startFree hf, thenBus_ok,
    go_sendRefused (n := n + 3) h (busRun_iox_unanswered hf hp hw) rfl hskip,
    go_stopped h ((eepromAlone_refused hf).stop_unaddressed rfl hee hpend)]
  rfl

/-- IOX_READ answered: the port follows the address, and the master does not acknowledge it. -/
theorem go_ioxRead (h : Running c s) (hf : s.busFree = true) (hl : s.cfg.legal = true) (ho : s.cfg.busOpenDrain = true)
    (hp : s.cfg.ioxPresent = true) :
    go c (n + 62) (ioxReadCode s.cfg ++ k) s =
      go c n k (State.onBusTr { s with draws := s.draws + 1 } c (s.bus.ioxClosed s.bus.iox.port)
        ((((s.drawn c).tr c).sent s.cfg.ioxAddrR false).received s.bus.iox.port)) := by
  have hd : Running c { s with draws := s.draws + 1 } := h.congr rfl rfl
  simp only [ioxReadCode, List.append_assoc, List.cons_append, List.nil_append]
  rw [go_drawData, go_busStart (n := n + 58) h.drawn]
  simp only [drawn_cfg, drawn_bus, drawn_onBusTr, busRun_startFree hf, thenBus_ok]
  rw [go_sendAcked (n := n + 30) hd (busRun_ioxAddrR hf hl ho hp) rfl,
    go_received (n := n + 6) hd (takeBits_ioxPort hf ho rfl), go_goOn rfl, go_closed hd (busRun_ioxClose hf rfl)]

/-- IOX_READ unanswered: the ninth clock and the stop condition come next, with the value as drawn. -/
theorem go_ioxRead_unanswered (h : Running c s) (hf : s.busFree = true) (hl : s.cfg.legal = true)
    (hp : s.cfg.ioxPresent = false) :
    go c (n + 38) (ioxReadCode s.cfg ++ k) s =
      go c n k (State.onBusTr { s with draws := s.draws + 1 } c
        { s.bus with sclOut := true, sdaOut := true, ack := true } (((s.drawn c).tr c).sent s.cfg.ioxAddrR true)) := by
  obtain ⟨-, -, hr⟩ := expanderApart_of_legal hl
  have hd : Running c { s with draws := s.draws + 1 } := h.congr rfl rfl
  have hskip : .ctl .closing ∉ busRecvCode := by simp [busRecvCode, recvBitCode]
  simp only [ioxReadCode, List.append_assoc, List.cons_append, List.nil_append]
  rw [go_drawData, go_busStart (n := n + 34) h.drawn]
  simp only [drawn_cfg, drawn_bus, drawn_onBusTr, busRun_startFree hf, thenBus_ok]
  rw [go_sendRefused (n := n + 6) hd (busRun_iox_unanswered hf hp hr) rfl hskip, go_closed hd (busRun_closeRefused hf)]

end Expansions

/-! ## The obligations -/

theorem exec_ioxCfg (mask : Byte) (s : State) :
    exec (.ioxCfg mask) s = perform (.ioxCfg mask) (ioxCfgCode s.cfg mask ++ [.ctl (.ret .ack)]) s := rfl

theorem exec_ioxRead (s : State) :
    exec .ioxRead s = perform .ioxRead (ioxReadCode s.cfg ++ [.ctl (.ret .byte)]) s := rfl

/-- Settles O14: the expander takes the mask it is sent, or the mask is never sent. -/
theorem ioxCfgWritesPort : Obligations.IoxCfgWritesPort := by
  intro mask s hs hf hl ho
  have hrun := running_of_calm hs { op := some (.ioxCfg mask), rest := [], tr := Transients.none }
  rw [exec_ioxCfg]
  cases hp : s.cfg.ioxPresent with
  | false => exact perform_of_onBusTr 35 (by decide) hs hs (go_ioxCfg_unanswered (n := 0) hrun hf hl hp)
  | true => exact perform_of_onBusTr 63 (by decide) hs hs (go_ioxCfg (n := 0) hrun hf hl ho hp)

/-- Settles O15: the byte received is the port; with no byte received, it is the value drawn at the beginning. -/
theorem ioxReadReturnsPort : Obligations.IoxReadReturnsPort := by
  intro s hs hf hl ho
  have hrun := running_of_calm hs { op := some .ioxRead, rest := [], tr := Transients.none }
  rw [exec_ioxRead]
  cases hp : s.cfg.ioxPresent with
  | false =>
    exact ⟨_, fun h => Bool.noConfusion h, perform_of_onBusTr (u := { s with draws := s.draws + 1 }) 38 (by decide) hs hs
      (go_ioxRead_unanswered (n := 0) hrun hf hl hp)⟩
  | true =>
    exact ⟨s.bus.iox.port, fun _ => rfl, perform_of_onBusTr (u := { s with draws := s.draws + 1 }) 62 (by decide) hs hs
      (go_ioxRead (n := 0) hrun hf hl ho hp)⟩

end Sys2Proof.Machine
end

section
/-! PROOF. The ready-wait (43_lcd_primitives.md R153) over any number of status reads: it ends at the first read after the module is
ready, and never with a module that never clears BF (60_exceptions.md R236). -/

namespace Sys2Proof.Machine

/-! ## What one status read of a wait leaves -/

/-- Context c has read a status byte whose bit 7 is b, from a module with BF = b. -/
def State.found (s : State) (c : Ctx) (b : Bit) : State :=
  s.onLcdTr c { s.lcd with mode := 0b01#2, bf := b } { s.tr c with stBusy := b, stAddr := s.lcd.ac }

section Found
variable (s : State) (c : Ctx) (b : Bit)

@[simp] theorem found_lcd : (s.found c b).lcd = { s.lcd with mode := 0b01#2, bf := b } := onLcdTr_lcd ..
@[simp] theorem found_env : (s.found c b).env = s.env := onLcdTr_env ..
@[simp] theorem found_irq : (s.found c b).irq = s.irq := onLcdTr_irq ..
@[simp] theorem found_tr : (s.found c b).tr c = { s.tr c with stBusy := b, stAddr := s.lcd.ac } := onLcdTr_tr ..

/-- The last of several status reads is all that shows. -/
@[simp] theorem found_found (b' : Bit) : (s.found c b).found c b' = s.found c b' := by
  simp only [State.found, onLcdTr_lcd, onLcdTr_tr, onLcdTr_twice]

end Found

theorem Running.found {s : State} {c : Ctx} (h : Running c s) (b : Bit) : Running c (s.found c b) := h.onLcdTr _ _

/-- `until s[7] = 0`: a busy status byte sends the wait back to its beginning. -/
theorem go_again_of_busy {c : Ctx} {n : Nat} {k : List Item} {s : State} (h : (s.tr c).stBusy = true) :
    go c n (.ctl .againIfBusy :: k) s = go c n (waitCode ++ k) s :=
  go_insert (by simp [runCtl, h]) rfl

/-- A ready one ends it. -/
theorem go_again_of_ready {c : Ctx} {n : Nat} {k : List Item} {s : State} (h : (s.tr c).stBusy = false) :
    go c n (.ctl .againIfBusy :: k) s = go c n k s :=
  go_goOn (by simp [runCtl, h])

/-- FG's SEQ when LCD_WAIT has begun (R29). -/
def Seq.waitBegun : Seq := { op := some .lcdWait, rest := [], tr := Transients.none }

theorem exec_lcdWait {s : State} (h : s.resting = true) :
    exec .lcdWait s = go .fg Config.quantum (waitCode ++ [.ctl (.ret .status)]) { s with fg := Seq.waitBegun } :=
  perform_eq_go h

/-- What FG leaves when LCD_WAIT has found the module ready and returns the status byte. -/
theorem go_return_found {n : Nat} {q : Seq} {s : State} (hs : s.calm = true) :
    go .fg n [.ctl (.ret .status)] (State.found { s with fg := q } .fg false) =
      .next { s.done (.byte (0#1 ++ s.lcd.ac)) with lcd := { s.lcd with mode := 0b01#2, bf := false } } := by
  obtain ⟨hisr, hidle, -⟩ := (calm_iff s).mp hs
  rw [go_goOn rfl, go_nil_fg (by simpa using hisr)]
  congr 1
  exact finish_fg_of_idle
    (s := { s.done (.byte (0#1 ++ s.lcd.ac)) with lcd := { s.lcd with mode := 0b01#2, bf := false } }) hidle _

/-! ## Boundaries at which the environment moves LCDDEV alone (R75) -/

/-- FG has the core, and the script moves LCDDEV alone, which has no other schedule. -/
structure LcdScripted (s : State) : Prop where
  noHandler : s.irq.inIsr = none
  noRequest : takeable s = none
  sched : s.env.lcd = .scripted
  script : ∀ es ∈ s.env.script, ∀ e ∈ es, e = Event.lcdReady

/-- The coming boundary of such a state: an entry that is not empty makes the module ready. -/
def State.lcdMoved (s : State) : State :=
  { s with
    env := { s.env with script := s.env.script.tail }
    lcd := { s.lcd with bf := s.lcd.bf && (s.env.script.headD []).isEmpty } }

theorem LcdScripted.congr {s t : State} (h : LcdScripted s) (hi : t.irq = s.irq) (hc : t.cfg = s.cfg) (he : t.env = s.env) :
    LcdScripted t :=
  ⟨hi ▸ h.noHandler, by simpa only [takeable, hi, hc] using h.noRequest, he ▸ h.sched, he ▸ h.script⟩

theorem LcdScripted.lcdMoved {s : State} (h : LcdScripted s) : LcdScripted s.lcdMoved :=
  ⟨h.noHandler, h.noRequest, h.sched, fun es hes => h.script es (List.mem_of_mem_tail hes)⟩

theorem applyEvents_of_lcdReady (es : List Event) (h : ∀ e ∈ es, e = Event.lcdReady) (s : State) :
    applyEvents s es = { s with lcd := { s.lcd with bf := s.lcd.bf && es.isEmpty } } := by
  induction es generalizing s with
  | nil => simp [applyEvents]
  | cons e es ih =>
    obtain ⟨rfl, hes⟩ := List.forall_mem_cons.mp h
    simp [applyEvents, ih hes, applyEvent, lcdReady]

theorem boundary_of_lcdScripted {s : State} (h : LcdScripted s) : boundary s = s.lcdMoved := by
  have hmoves : scriptMoves s = s.lcdMoved := by
    cases hs : s.env.script with
    | nil =>
      simp only [scriptMoves, State.lcdMoved, hs, List.tail_nil, List.headD_nil, List.isEmpty_nil, Bool.and_true]
      rw [← hs]
    | cons es r =>
      simp [scriptMoves, State.lcdMoved, hs, applyEvents_of_lcdReady es (h.script es (by simp [hs]))]
  rw [boundary, hmoves, readyEager, readyAtBoundary_of_ne_eager (by simp [h.lcdMoved.sched])]

theorem microStep_of_lcdScripted {s : State} (h : LcdScripted s) : microStep s = ctxStep .fg s.lcdMoved := by
  simp [microStep, boundary_of_lcdScripted h, coreStep, h.lcdMoved.noHandler, h.lcdMoved.noRequest]

/-- One micro-step of FG behind such a boundary: `go_prim` with a script. -/
theorem go_prim_of_lcdScripted {n : Nat} {p : Prim} {k : List Item} {s : State} (h : LcdScripted s) :
    go .fg (n + 1) (.prim p :: k) s = thenDo (runPrim .fg p s.lcdMoved) (go .fg n k) := by
  have hset : LcdScripted (s.setRest .fg (.prim p :: k)) := h.congr rfl rfl rfl
  have hrest : (s.setRest .fg (.prim p :: k)).resting = false := by simp [State.resting, State.setRest, State.setSeq]
  have hstep : ctxStep .fg (s.setRest .fg (.prim p :: k)).lcdMoved =
      thenDo (runPrim .fg p (s.lcdMoved.setRest .fg k)) (settle .fg false k) := rfl
  simp only [go, settle, thenDo_next]
  rw [drive_succ, hrest, microStep_of_lcdScripted hset, hstep]
  simp only [runPrim_setRest, withRest, thenDo_assoc, thenDo_next, settle_setRest, Bool.false_eq_true, if_false]
  rfl

/-- Off the schedule L-onread a status read leaves the module as it is. -/
theorem readStatus_of_ne_onRead {c : Ctx} {s : State} (he : s.env.lcd ≠ .onRead) (hm : s.lcd.mode = 0b01#2) :
    readStatus c s = .next (s.setTr c { s.tr c with stBusy := s.lcd.bf, stAddr := s.lcd.ac }) := by
  have hread : readyAtRead s.env.lcd s.lcd = s.lcd := by simp [readyAtRead, beq_false_of_ne he]
  simp only [readStatus, hread, portRead, if_pos hm, status]

/-- The state with another script. -/
def State.withScript (s : State) (script : List (List Event)) : State := { s with env := { s.env with script := script } }

/-- BF as a status read meets it behind two such boundaries. -/
def State.busyAtRead (s : State) : Bool :=
  s.lcd.bf && (s.env.script.headD []).isEmpty && (s.env.script.tail.headD []).isEmpty

/-- The status read of R152 behind two such boundaries: `go_status` with a script. -/
theorem go_status_of_lcdScripted {n : Nat} {k : List Item} {s : State} (h : LcdScripted s) :
    go .fg (n + 2) (statusCode ++ k) s =
      go .fg n k ((s.found .fg s.busyAtRead).withScript s.env.script.tail.tail) := by
  have hmode : LcdScripted { s.lcdMoved with lcd := { s.lcdMoved.lcd with mode := 0b01#2 } } :=
    h.lcdMoved.congr rfl rfl rfl
  simp only [statusCode, List.cons_append, List.nil_append]
  rw [go_prim_of_lcdScripted h]
  simp only [runPrim, thenDo_next]
  rw [go_prim_of_lcdScripted hmode, runPrim, readStatus_of_ne_onRead (by simp [hmode.lcdMoved.sched]) rfl]
  rfl

/-! ## A module that becomes ready later -/

section Later
variable {n : Nat} {k : List Item} {s : State}

/-- n boundaries without a move, then one at which the module becomes ready. -/
def readyAfter (n : Nat) : List (List Event) := List.replicate n [] ++ [[.lcdReady]]

theorem lcdScripted_readyAfter (h : Running .fg s) (he : s.env.lcd = .scripted) (n : Nat) :
    LcdScripted (s.withScript (readyAfter n)) := by
  obtain ⟨-, hisr, htimer, hedge⟩ := h
  refine ⟨hisr, (takeable_eq_none_iff hisr).mpr ⟨htimer, hedge⟩, he, fun es hes e hmem => ?_⟩
  simp only [State.withScript, readyAfter, List.mem_append, List.mem_replicate, List.mem_singleton] at hes
  rcases hes with ⟨-, rfl⟩ | rfl
  · cases hmem
  · exact List.mem_singleton.mp hmem

theorem busyAtRead_readyAfter_of_lt (h : n < 2) : (s.withScript (readyAfter n)).busyAtRead = false := by
  interval_cases n <;> simp [State.busyAtRead, State.withScript, readyAfter]

theorem busyAtRead_readyAfter_add_two : (s.withScript (readyAfter (n + 2))).busyAtRead = s.lcd.bf := by
  simp [State.busyAtRead, State.withScript, readyAfter, List.replicate_succ]

theorem readyAfter_tail_of_lt (h : n < 2) : (readyAfter n).tail.tail = [] := by
  interval_cases n <;> rfl

/-- A read takes two boundaries: the wait ends within 2 * j micro-steps, at the first read after the move. -/
theorem go_wait_readyAfter (j : Nat) (hn : n < 2 * j) (h : Running .fg s) (hb : s.lcd.bf = true)
    (he : s.env.lcd = .scripted) :
    ∃ m, go .fg (2 * j) (waitCode ++ k) (s.withScript (readyAfter n)) = go .fg m k ((s.found .fg false).withScript []) := by
  induction j generalizing n s with
  | zero => omega
  | succ j ih =>
    have hread := go_status_of_lcdScripted (n := 2 * j) (k := .ctl .againIfBusy :: k) (lcdScripted_readyAfter h he n)
    rcases Nat.lt_or_ge n 2 with hlast | hmore
    · rw [busyAtRead_readyAfter_of_lt hlast] at hread
      refine ⟨2 * j, hread.trans ((go_again_of_ready rfl).trans ?_)⟩
      simp only [State.withScript, readyAfter_tail_of_lt hlast]
      rfl
    · obtain ⟨n, rfl⟩ := Nat.exists_eq_add_of_le' hmore
      rw [busyAtRead_readyAfter_add_two, hb] at hread
      obtain ⟨m, hm⟩ := ih (n := n) (s := s.found .fg true) (by omega) (h.found true) (by simp) (by simpa using he)
      rw [found_found] at hm
      exact ⟨m, hread.trans ((go_again_of_busy rfl).trans hm)⟩

end Later

theorem withScript_of_calm {s : State} (h : s.calm = true) : s.withScript [] = s := by
  obtain ⟨-, -, hq⟩ := (calm_iff s).mp h
  simp only [State.quiet, Bool.and_eq_true, decide_eq_true_eq] at hq
  obtain ⟨⟨hscript, -⟩, -⟩ := hq
  rw [State.withScript, ← hscript]

/-- Settles O27: at the first read by `go_wait`; later, one busy read for every two boundaries without a move. -/
theorem waitReturnsReadyStatus : Obligations.WaitReturnsReadyStatus := by
  refine ⟨fun s hs hw => ?_, fun n s hn hs hb he => ?_⟩
  · have hwait : ({ s with fg := Seq.waitBegun } : State).waitEnds = true := hw
    rw [exec_lcdWait (resting_of_calm hs)]
    exact (go_wait (n := 4094) (running_of_calm hs _) hwait).trans (go_return_found hs)
  · have hrest : (s.withScript (readyAfter n)).resting = true := resting_of_calm (s := s) hs
    obtain ⟨m, hm⟩ := go_wait_readyAfter (k := [.ctl (.ret .status)]) 2048 hn (running_of_calm hs Seq.waitBegun) hb he
    have hend : (State.found { s with fg := Seq.waitBegun } .fg false).withScript [] =
        State.found { s.withScript [] with fg := Seq.waitBegun } .fg false := rfl
    rw [hend, withScript_of_calm hs, go_return_found hs] at hm
    exact (exec_lcdWait hrest).trans hm

/-! ## A module that never clears BF -/

section Hang
variable {c : Ctx} {k : List Item} {s : State}

/-- A wait whose status read finds the module busy begins again. -/
theorem go_wait_of_busy {n : Nat} (h : Running c s) (hb : s.lcd.bf = true) (he : s.env.lcd = .scripted) :
    go c (n + 2) (waitCode ++ k) s = go c n (waitCode ++ k) (s.found c true) := by
  have hbusy : s.statusBusy = true := by simp [State.statusBusy, hb, he]
  rw [waitCode, List.append_assoc, go_status h, hbusy]
  exact go_again_of_busy (s := s.found c true) (by simp)

/-- Any even number of micro-steps later the wait stands at its beginning. -/
theorem go_wait_hangs (j : Nat) (h : Running c s) (hb : s.lcd.bf = true) (he : s.env.lcd = .scripted) :
    go c (2 * (j + 1)) (waitCode ++ k) s = .next ((s.found c true).setRest c (waitCode ++ k)) := by
  induction j generalizing s with
  | zero => exact go_wait_of_busy (n := 0) h hb he
  | succ j ih =>
    rw [Nat.mul_succ, go_wait_of_busy h hb he, ih (h.found true) (by simp) (by simpa using he), found_found]

/-- What stands at the beginning of a wait goes on with it. -/
theorem resume_wait : resume (s.setRest c (waitCode ++ k)) = go c Config.quantum (waitCode ++ k) s := rfl

end Hang

theorem steps_of_fixed {s : State} (h : step s = .next s) (n : Nat) : steps n s = .next s := by
  induction n with
  | zero => rfl
  | succ n ih => rw [steps, h, thenDo_next, ih]

/-- Where LCD_WAIT stands after a whole number of busy reads: at the beginning of its loop. -/
def State.stuckInWait (s : State) : State :=
  (State.found { s with fg := Seq.waitBegun } .fg true).setRest .fg (waitCode ++ [.ctl (.ret .status)])

theorem exec_lcdWait_stuck {s : State} (hs : s.calm = true) (hb : s.lcd.bf = true) (he : s.env.lcd = .scripted) :
    exec .lcdWait s = .next s.stuckInWait := by
  rw [exec_lcdWait (resting_of_calm hs)]
  exact go_wait_hangs 2047 (running_of_calm hs _) hb he

theorem step_stuckInWait {s : State} (hs : s.calm = true) (he : s.env.lcd = .scripted) :
    step s.stuckInWait = .next s.stuckInWait := by
  have hgo := go_wait_hangs (k := [.ctl (.ret .status)]) 2047 ((running_of_calm hs Seq.waitBegun).found true) rfl he
  rw [found_found] at hgo
  exact (step_of_not_resting (s := s.stuckInWait) (Bool.and_false _)).trans (resume_wait.trans hgo)

/-- Settles O28: LCD_WAIT's first step ends in a state that every further step leaves as it is. -/
theorem unresponsiveModuleHangs : Obligations.UnresponsiveModuleHangs := by
  intro s hs hb he
  exact ⟨s.stuckInWait, exec_lcdWait_stuck hs hb he, fun n =>
    ⟨_, steps_of_fixed (step_stuckInWait hs he) n, rfl, Bool.and_false _, rfl, rfl⟩⟩

end Sys2Proof.Machine
end

section
/-! PROOF. The LCD operations (44_lcd_operations.md) as sequences of pieces, each of which takes the machine from one state to
the next (`Runs`), and the two of one piece, LCD_GOTO and LCD_PUTC (R173, R174). -/

namespace Sys2Proof.Machine

/-! ## Runs of a piece of an expansion -/

/-- In at most `cost` micro-steps context c does `code`, which takes the machine from s to t. Of c's transients only the status
byte it read last may change. -/
def Runs (c : Ctx) (cost : Nat) (code : List Item) (s t : State) : Prop :=
  ∀ (n : Nat) (k : List Item) (x : Transients), ∃ (m : Nat) (y : Transients), n ≤ m ∧ y.waited 0#7 = x.waited 0#7 ∧
    go c (n + cost) (code ++ k) (s.setTr c x) = go c m k (t.setTr c y)

section Calculus
variable {c : Ctx} {p q : Nat} {x y : List Item} {s t u : State}

theorem Runs.nil (c : Ctx) (s : State) : Runs c 0 [] s s := fun n _ x => ⟨n, x, le_rfl, rfl, rfl⟩

theorem Runs.append (hx : Runs c p x s t) (hy : Runs c q y t u) : Runs c (p + q) (x ++ y) s u := by
  intro n k z
  obtain ⟨m, z₁, hm, hz₁, hgo₁⟩ := hx (n + q) (y ++ k) z
  obtain ⟨m', z₂, hm', hz₂, hgo₂⟩ := hy (m - q) k z₁
  rw [Nat.sub_add_cancel (by omega)] at hgo₂
  refine ⟨m', z₂, by omega, hz₂.trans hz₁, ?_⟩
  rw [List.append_assoc, Nat.add_comm p q, ← Nat.add_assoc, hgo₁, hgo₂]

theorem Runs.mono (hpq : p ≤ q) (h : Runs c p x s t) : Runs c q x s t := by
  intro n k z
  obtain ⟨m, z', hm, hz, hgo⟩ := h (n + (q - p)) k z
  rw [Nat.add_assoc, Nat.sub_add_cancel hpq] at hgo
  exact ⟨m, z', by omega, hz, hgo⟩

/-- Exactly p micro-steps, whatever the transients are. -/
theorem Runs.of_go (w : Transients → Transients) (hw : ∀ z, (w z).waited 0#7 = z.waited 0#7)
    (h : ∀ n k z, go c (n + p) (x ++ k) (s.setTr c z) = go c n k (t.setTr c (w z))) : Runs c p x s t :=
  fun n k z => ⟨n, w z, le_rfl, hw z, h n k z⟩

end Calculus

theorem Running.setTr {c : Ctx} {s : State} (h : Running c s) (z : Transients) : Running c (s.setTr c z) :=
  h.congr (by simp) (by simp)

@[simp] theorem setTr_waitEnds (s : State) (c : Ctx) (z : Transients) : (s.setTr c z).waitEnds = s.waitEnds := by
  cases c <;> rfl

theorem waitEnds_of_lcdAnswers {s : State} (h : s.lcdAnswers = true) : s.waitEnds = true := by
  rw [State.waitEnds, h, Bool.or_true]

/-- FG's SEQ when operation i has begun (R29). -/
def Seq.begun (i : Instr) : Seq := { op := some i, rest := [], tr := Transients.none }

/-- An operation begun at rest that leaves the machine at u, and returns r whatever its last status byte was. -/
theorem perform_of_runs {i : Instr} {k : RetKind} {r : Result} {code : List Item} {s u : State} (cost : Nat)
    (hcost : cost ≤ Config.quantum) (hs : s.calm = true) (hu : u.calm = true) (hr : ∀ z, resultOf k z = r)
    (h : ∀ q, Runs .fg cost code { s with fg := q } { u with fg := q }) :
    perform i (code ++ [.ctl (.ret k)]) s = .next { u with results := u.results ++ [r] } := by
  obtain ⟨hisr, hidle, -⟩ := (calm_iff u).mp hu
  obtain ⟨m, z, -, -, hgo⟩ := h (Seq.begun i) 0 [.ctl (.ret k)] Transients.none
  have hend : go .fg m [.ctl (.ret k)] (State.setTr { u with fg := Seq.begun i } .fg z) =
      .next { u with results := u.results ++ [r] } := by
    rw [go_goOn rfl, go_nil_fg (by simpa using hisr), ← hr z]
    congr 1
    exact finish_fg_of_idle (s := { u with results := u.results ++ [resultOf k z] }) hidle _
  refine perform_of_go cost hcost (resting_of_calm hs) (Eq.trans ?_ (hgo.trans hend)) (resting_of_calm (s := u) hu)
  rw [Nat.zero_add]
  rfl

/-! ## The pieces of an LCD operation -/

/-- The module after a set-address command of DDRAM address a (R60, R92). -/
def Lcd.addressed (l : Lcd) (a : BitVec 7) : Lcd := { l with mode := 0b00#2, ac := a, ramsel := .dd, bf := true }

/-- The module after LCD_PUTC's data byte (R174). -/
def Lcd.typed (l : Lcd) (v : Byte) : Lcd := acceptData v { l with mode := 0b10#2, bf := false }

section Pieces
variable {c : Ctx} {s : State}

/-- A wait, then a command that the module accepts (R155). -/
theorem runs_waitCmd {v : Byte} {l : Lcd} (h : Running c s) (hw : s.waitEnds = true)
    (ha : acceptCommand s.cfg v { s.lcd with mode := 0b00#2, bf := false } = some l) :
    Runs c 4 (waitCode ++ cmdCode v) s { s with lcd := l } := by
  refine Runs.of_go (fun z => z.waited s.lcd.ac) (fun _ => rfl) fun n k z => ?_
  rw [go_waitCmd (l := l) (h.setTr z) (by simpa using hw) (by simpa using ha)]
  cases c <;> rfl

/-- LCD_GOTO within range (R173). -/
theorem runs_goto {row column : Nat} (h : Running c s) (hw : s.waitEnds = true) (hc : cursorOk row column = true) :
    Runs c 4 (gotoCode row column) s { s with lcd := s.lcd.addressed (cursorAddr row column) } := by
  rw [gotoCode, if_pos hc]
  exact runs_waitCmd h hw (acceptCommand_setAddr s.cfg _ _)

/-- LCD_PUTC (R174). -/
theorem runs_putc {v : Byte} (h : Running c s) (hw : s.waitEnds = true) :
    Runs c 4 (putcCode v) s { s with lcd := s.lcd.typed v } := by
  refine Runs.of_go (fun z => z.waited s.lcd.ac) (fun _ => rfl) fun n k z => ?_
  rw [go_putc (h.setTr z) (by simpa using hw)]
  cases c <;> rfl

/-- A delay, LCDDEV's boundary before it (R71, R75). -/
theorem runs_delay {ms : Nat} (h : Running c s) : Runs c 1 [.prim (.delay ms)] s (delayMs (readyEager s)) := by
  refine Runs.of_go id (fun _ => rfl) fun n k z => ?_
  rw [List.singleton_append, go_prim (h.setTr z)]
  cases c <;> rfl

/-- One of LCD_INIT's wake-up writes (R62, R171). -/
theorem runs_wake {v : Byte} {l : Lcd} (h : Running c s)
    (ha : acceptCommand s.cfg v { readyAtBoundary s.env.lcd s.lcd with mode := 0b00#2 } = some l) :
    Runs c 2 (wakeCode v) s { s with lcd := l } := by
  refine Runs.of_go id (fun _ => rfl) fun n k z => ?_
  refine (go_windowWrite (m := 0b00#2) (wake := true) (h.setTr z)).trans ?_
  rw [State.setTr_cfg, State.setTr_env, State.setTr_lcd, portWrite_command, deliverCommand_of_some (Bool.and_false _) ha]
  cases c <;> rfl

end Pieces

/-! ## LCD_GOTO and LCD_PUTC (R173, R174) -/

/-- ROW_BASE as the table the source gives (R55). -/
theorem cursorAddr_eq {row : Nat} (h : row ≤ 3) (column : Nat) :
    cursorAddr row column = BitVec.ofNat 7 ([0x00, 0x40, 0x10, 0x50].getD row 0 + column) := by
  interval_cases row <;> rfl

/-- Settles O30: in range LCD_GOTO is a wait and one set-address command. -/
theorem gotoSetsCursor : Obligations.GotoSetsCursor := by
  intro row column s hrow hcol hs hw
  have hok : cursorOk row.toNat column.toNat = true := by simp [cursorOk, hrow, hcol]
  rw [← cursorAddr_eq hrow, exec, execLcdGoto, hok]
  exact perform_of_runs (u := { s with lcd := s.lcd.addressed (cursorAddr row.toNat column.toNat) }) 4 (by decide) hs hs
    (fun _ => rfl) fun q => runs_goto (running_of_calm hs q) hw hok

theorem typed_of_entryInc {l : Lcd} (h : l.entryInc = true) (v : Byte) :
    l.typed v = { l with
      mode := 0b10#2, bf := true, ddram := ddramAfter l v, cgram := cgramAfter l v
      ac := if l.ramsel = .dd then l.ac + 1#7 else l.ac.extractLsb 6 6 ++ (l.ac.extractLsb 5 0 + 1#6) } :=
  acceptData_of_entryInc v (l := { l with mode := 0b10#2, bf := false }) h

/-- Settles O31: a wait, then the data byte of O24. -/
theorem putcStoresCharacter : Obligations.PutcStoresCharacter := by
  intro code s hs hw hinc hwf
  simp only [Lcd.memoriesWf, Bool.and_eq_true] at hwf
  obtain ⟨⟨⟨hdd, -⟩, hcg⟩, -⟩ := hwf
  refine ⟨ddramAfter s.lcd code, cgramAfter s.lcd code, ?_, read_ddramAfter hdd code, read_cgramAfter hcg code⟩
  rw [← typed_of_entryInc hinc]
  exact perform_of_runs (u := { s with lcd := s.lcd.typed code }) 4 (by decide) hs hs (fun _ => rfl) fun q =>
    runs_putc (running_of_calm hs q) hw

end Sys2Proof.Machine
end

section
/-! PROOF. LCD_PUTS (44_lcd_operations.md R176, R178): the loop of either wrap policy, a character at a time, round the
display's 64 cells. -/

namespace Sys2Proof.Machine

/-! ## Cells written one after another -/

/-- Write the values one after another, value k at `addr (n + k)`. -/
def Memory.writeRun (dflt : Byte) (addr : Nat → Nat) : Memory → Nat → List Byte → Memory
  | m, _, [] => m
  | m, n, v :: vs => Memory.writeRun dflt addr (Memory.write dflt m (addr n) v) (n + 1) vs

section WriteRun
variable {dflt : Byte} {addr : Nat → Nat} {m : Memory} {n : Nat} {vs : List Byte}

/-- An address that is none of the run's keeps its value. -/
theorem Memory.read_writeRun_of_ne {a : Nat} (h : Memory.wf dflt m = true) (ha : ∀ k < vs.length, a ≠ addr (n + k)) :
    Memory.read dflt (Memory.writeRun dflt addr m n vs) a = Memory.read dflt m a := by
  induction vs generalizing m n with
  | nil => rfl
  | cons v vs ih =>
    have htail : ∀ k < vs.length, a ≠ addr (n + 1 + k) := fun k hk => by
      rw [Nat.add_right_comm]
      exact ha (k + 1) (Nat.succ_lt_succ hk)
    have hhead : a ≠ addr n := ha 0 (Nat.succ_pos _)
    rw [Memory.writeRun, ih (Memory.write_wf h _ _) htail, Memory.read_write h, if_neg hhead]

/-- An address of the run holds the last value written there. -/
theorem Memory.read_writeRun_last {k : Nat} (h : Memory.wf dflt m = true) (hk : k < vs.length)
    (hlast : ∀ j < vs.length, k < j → addr (n + k) ≠ addr (n + j)) :
    Memory.read dflt (Memory.writeRun dflt addr m n vs) (addr (n + k)) = vs.getD k 0#8 := by
  induction vs generalizing m n k with
  | nil => cases hk
  | cons v vs ih =>
    rw [Memory.writeRun]
    cases k with
    | zero =>
      have htail : ∀ j < vs.length, addr (n + 0) ≠ addr (n + 1 + j) := fun j hj => by
        rw [Nat.add_right_comm]
        exact hlast (j + 1) (Nat.succ_lt_succ hj) (Nat.succ_pos j)
      rw [Memory.read_writeRun_of_ne (Memory.write_wf h _ _) htail, Memory.read_write h]
      exact if_pos rfl
    | succ k =>
      have htail : ∀ j < vs.length, k < j → addr (n + 1 + k) ≠ addr (n + 1 + j) := fun j hj hkj => by
        rw [Nat.add_right_comm n 1 k, Nat.add_right_comm n 1 j]
        exact hlast (j + 1) (Nat.succ_lt_succ hj) (Nat.succ_lt_succ hkj)
      rw [← Nat.add_assoc, Nat.add_right_comm, ih (Memory.write_wf h _ _) (Nat.lt_of_succ_lt_succ hk) htail]
      rfl

end WriteRun

/-! ## The display, cell after cell (R55, R178) -/

/-- The display's cells are counted round. -/
theorem cellAddr_congr {a b : Nat} (h : a % 64 = b % 64) : cellAddr a = cellAddr b := by
  have hcol : a % 16 = b % 16 := by omega
  rw [cellAddr, cellAddr, h, hcol]

theorem cellAddr_mod (n : Nat) : cellAddr (n % 64) = cellAddr n := cellAddr_congr (Nat.mod_mod n 64)

/-- R55: `pos` is the inverse of `addr`. -/
theorem cursorPos_cellAddr (n : Nat) : cursorPos (cellAddr n) = some (n % 64 / 16, n % 16) := by
  have hround : ∀ i : Fin 64, cursorPos (cellAddr i) = some (i.val % 64 / 16, i.val % 16) := by decide
  have h := hround ⟨n % 64, Nat.mod_lt _ (by decide)⟩
  rwa [cellAddr_mod, Nat.mod_mod, Nat.mod_mod_of_dvd n (by decide)] at h

theorem cellAddr_inj {a b : Nat} (h : cellAddr a = cellAddr b) : a % 64 = b % 64 := by
  have hpos := cursorPos_cellAddr a
  rw [h, cursorPos_cellAddr, Option.some.injEq, Prod.mk.injEq] at hpos
  omega

theorem visible_cellAddr (n : Nat) : visible (cellAddr n) = true := by
  rw [visible, cursorPos_cellAddr, Option.isSome_some]

/-- Within a row the addresses follow one another. -/
theorem cellAddr_succ {n : Nat} (h : n % 16 ≠ 15) : cellAddr (n + 1) = cellAddr n + 1#7 := by
  have hround : ∀ i : Fin 64, i.val % 16 ≠ 15 → cellAddr (i + 1) = cellAddr i + 1#7 := by decide
  have hnext : cellAddr (n % 64 + 1) = cellAddr (n + 1) := cellAddr_congr (by omega)
  have hstep := hround ⟨n % 64, Nat.mod_lt _ (by decide)⟩ (by simp only; omega)
  rwa [hnext, cellAddr_mod] at hstep

/-- The row after a row's last cell (R176). -/
theorem nextRow_of_rowEnd {n : Nat} (h : n % 16 = 15) : nextRow (n % 64 / 16) = (n + 1) % 64 / 16 := by
  unfold nextRow
  split <;> omega

/-- What LCD_GOTO between two rows addresses (R176). -/
theorem cursorAddr_nextRow {n : Nat} (h : n % 16 = 15) : cursorAddr (nextRow (n % 64 / 16)) 0 = cellAddr (n + 1) := by
  have hcol : (n + 1) % 16 = 0 := by omega
  rw [nextRow_of_rowEnd h, cellAddr, hcol]

theorem cursorOk_nextRow (row : Nat) : cursorOk (nextRow row) 0 = true := by
  unfold nextRow
  split <;> simp [cursorOk]
  omega

/-- DDRAM after a text from logical cell n on. -/
def typeCells (d : Memory) (n : Nat) (text : List Byte) : Memory :=
  Memory.writeRun Config.blank (fun i => (cellAddr i).toNat) d n text

theorem typeCells_cons (d : Memory) (n : Nat) (v : Byte) (text : List Byte) :
    typeCells d n (v :: text) = typeCells (writeDdram d (cellAddr n) v) (n + 1) text := by
  rw [writeDdram, if_pos (visible_cellAddr n)]
  rfl

section TypeCells
variable {d : Memory} {n : Nat} {text : List Byte}

/-- The last 64 characters stand where they were written. -/
theorem read_typeCells {k : Nat} (h : Memory.wf Config.blank d = true) (hk : k < text.length)
    (hlast : text.length ≤ k + 64) :
    Memory.read Config.blank (typeCells d n text) (cellAddr (n + k)).toNat = text.getD k 0#8 := by
  refine Memory.read_writeRun_last (addr := fun i => (cellAddr i).toNat) h hk fun j hj hkj heq => ?_
  have := cellAddr_inj (BitVec.eq_of_toNat_eq heq)
  omega

/-- A cell that the text does not reach keeps its character. -/
theorem read_typeCells_beyond {j : Nat} (h : Memory.wf Config.blank d = true) (hj : j < 64) (hlen : text.length ≤ j) :
    Memory.read Config.blank (typeCells d n text) (cellAddr (n + j)).toNat =
      Memory.read Config.blank d (cellAddr (n + j)).toNat := by
  refine Memory.read_writeRun_of_ne h fun k hk heq => ?_
  have := cellAddr_inj (BitVec.eq_of_toNat_eq heq)
  omega

/-- No address outside the windows is written. -/
theorem read_typeCells_outside {a : Nat} (h : Memory.wf Config.blank d = true) (ha : a ∉ visibleAddrs) :
    Memory.read Config.blank (typeCells d n text) a = Memory.read Config.blank d a := by
  refine Memory.read_writeRun_of_ne h fun k _ heq => ha ?_
  rw [heq]
  exact (visible_iff_mem _).mp (visible_cellAddr _)

end TypeCells

/-! ## LCD_PUTS (R176) -/

/-- R176, PUTS_WRAP_POLICY = lazy: the character of cell n + 1, when cell n has just been written. -/
def putsDeferredChar (n : Nat) (v : Byte) : List Item :=
  if n % 16 = 15 then gotoCode (nextRow (n % 64 / 16)) 0 ++ putcCode v else putcCode v

/-- R176, PUTS_WRAP_POLICY = eager: the character of cell n. -/
def putsEagerChar (n : Nat) (v : Byte) : List Item :=
  if n % 16 = 15 then putcCode v ++ gotoCode (nextRow (n % 64 / 16)) 0 else putcCode v

/-- Cell n + 1 stands in the next row's column 0, or one column on. -/
theorem cellPos_succ (n : Nat) :
    (n % 16 = 15 ∧ (n + 1) % 64 / 16 = nextRow (n % 64 / 16) ∧ (n + 1) % 16 = 0) ∨
    (n % 16 ≠ 15 ∧ (n + 1) % 64 / 16 = n % 64 / 16 ∧ (n + 1) % 16 = n % 16 + 1) := by
  by_cases hend : n % 16 = 15
  · exact .inl ⟨hend, (nextRow_of_rowEnd hend).symm, by omega⟩
  · exact .inr ⟨hend, by omega, by omega⟩

theorem putsDeferredCode_cons (n : Nat) (v : Byte) (text : List Byte) :
    putsDeferredCode (n % 64 / 16) (n % 16 + 1) (v :: text) =
      putsDeferredChar n v ++ putsDeferredCode ((n + 1) % 64 / 16) ((n + 1) % 16 + 1) text := by
  rw [putsDeferredCode, putsDeferredChar]
  obtain ⟨hend, hrow, hcol⟩ | ⟨hend, hrow, hcol⟩ := cellPos_succ n
  · rw [if_pos (by omega), if_pos hend, hrow, hcol]
  · rw [if_neg (by omega), if_neg hend, hrow, hcol]

theorem putsEagerCode_cons (n : Nat) (v : Byte) (text : List Byte) :
    putsEagerCode (n % 64 / 16) (n % 16) (v :: text) =
      putsEagerChar n v ++ putsEagerCode ((n + 1) % 64 / 16) ((n + 1) % 16) text := by
  rw [putsEagerCode, putsEagerChar]
  obtain ⟨hend, hrow, hcol⟩ | ⟨hend, hrow, hcol⟩ := cellPos_succ n
  · rw [if_pos (by omega), if_pos hend, hrow, hcol]
  · rw [if_neg (by omega), if_neg hend, hrow, hcol]

/-- LCD_MODE under eager wrap when the cells before n are written: a row's last character is followed by LCD_GOTO. -/
def eagerMode (n : Nat) : BitVec 2 := if n % 16 = 0 then 0b00#2 else 0b10#2

/-- The module addresses DDRAM cell a, and DDRAM is d. -/
def State.shows (s : State) (mode : BitVec 2) (bf : Bit) (a : BitVec 7) (d : Memory) : State :=
  { s with lcd := { s.lcd with mode := mode, bf := bf, ac := a, ramsel := .dd, ddram := d } }

section Puts
variable {c : Ctx} {s : State} {mode : BitVec 2} {bf : Bit} {a : BitVec 7} {d : Memory}

theorem Running.shows (h : Running c s) : Running c (s.shows mode bf a d) := h.congr rfl rfl

/-- With ENTRY_INC = 1 a character goes into the cell addressed and AC advances (R57). -/
theorem typed_shows (hinc : s.lcd.entryInc = true) (v : Byte) :
    { s.shows mode bf a d with lcd := (s.shows mode bf a d).lcd.typed v } =
      s.shows 0b10#2 true (a + 1#7) (writeDdram d a v) := by
  rw [typed_of_entryInc (l := (s.shows mode bf a d).lcd) hinc]
  rfl

variable (h : Running c s) (hw : s.lcdAnswers = true)
include h hw

theorem runs_goto_shows {row column : Nat} (hc : cursorOk row column = true) :
    Runs c 4 (gotoCode row column) (s.shows mode bf a d) (s.shows 0b00#2 true (cursorAddr row column) d) :=
  runs_goto h.shows (waitEnds_of_lcdAnswers (s := s.shows mode bf a d) hw) hc

variable (hinc : s.lcd.entryInc = true)
include hinc

theorem runs_putc_shows (v : Byte) :
    Runs c 4 (putcCode v) (s.shows mode bf a d) (s.shows 0b10#2 true (a + 1#7) (writeDdram d a v)) := by
  rw [← typed_shows hinc]
  exact runs_putc h.shows (waitEnds_of_lcdAnswers (s := s.shows mode bf a d) hw)

theorem runs_putsDeferredChar (n : Nat) (v : Byte) :
    Runs c 8 (putsDeferredChar n v) (s.shows 0b10#2 true (cellAddr n + 1#7) d)
      (s.shows 0b10#2 true (cellAddr (n + 1) + 1#7) (writeDdram d (cellAddr (n + 1)) v)) := by
  rw [putsDeferredChar]
  split
  · next hend =>
    rw [← cursorAddr_nextRow hend]
    exact (runs_goto_shows h hw (cursorOk_nextRow _)).append (runs_putc_shows h hw hinc v)
  · next hend =>
    rw [cellAddr_succ hend]
    exact (runs_putc_shows h hw hinc v).mono (by decide)

theorem runs_putsEagerChar (n : Nat) (v : Byte) :
    Runs c 8 (putsEagerChar n v) (s.shows mode bf (cellAddr n) d)
      (s.shows (eagerMode (n + 1)) true (cellAddr (n + 1)) (writeDdram d (cellAddr n) v)) := by
  rw [putsEagerChar, eagerMode]
  split
  · next hend =>
    rw [if_pos (by omega), ← cursorAddr_nextRow hend]
    exact (runs_putc_shows h hw hinc v).append (runs_goto_shows h hw (cursorOk_nextRow _))
  · next hend =>
    rw [if_neg (by omega), cellAddr_succ hend]
    exact (runs_putc_shows h hw hinc v).mono (by decide)

/-- The rest of a text under PUTS_WRAP_POLICY = lazy, cell n just written: a row end is left only when another character
comes. -/
theorem runs_putsDeferred (text : List Byte) (n : Nat) (d : Memory) :
    Runs c (8 * text.length) (putsDeferredCode (n % 64 / 16) (n % 16 + 1) text)
      (s.shows 0b10#2 true (cellAddr n + 1#7) d)
      (s.shows 0b10#2 true (cellAddr (n + text.length) + 1#7) (typeCells d (n + 1) text)) := by
  induction text generalizing n d with
  | nil => exact Runs.nil c _
  | cons v text ih =>
    rw [putsDeferredCode_cons, typeCells_cons, List.length_cons, Nat.mul_succ, Nat.add_comm (8 * _), ← Nat.add_assoc n,
      Nat.add_right_comm]
    exact (runs_putsDeferredChar h hw hinc n v).append (ih (n + 1) _)

/-- A text under PUTS_WRAP_POLICY = eager, cell n addressed: a row end is left at once. -/
theorem runs_putsEager (text : List Byte) (n : Nat) (mode : BitVec 2) (bf : Bit) (d : Memory) :
    Runs c (8 * text.length) (putsEagerCode (n % 64 / 16) (n % 16) text) (s.shows mode bf (cellAddr n) d)
      (s.shows (if text = [] then mode else eagerMode (n + text.length)) (bf || !text.isEmpty) (cellAddr (n + text.length))
        (typeCells d n text)) := by
  induction text generalizing n mode bf d with
  | nil =>
    rw [if_pos rfl, List.isEmpty_nil, Bool.not_true, Bool.or_false]
    exact Runs.nil c _
  | cons v text ih =>
    have hmode : (if text = [] then eagerMode (n + 1) else eagerMode (n + 1 + text.length)) =
        eagerMode (n + 1 + text.length) := by
      split
      · next hnil => rw [hnil]; rfl
      · rfl
    have hrest := ih (n + 1) (eagerMode (n + 1)) true (writeDdram d (cellAddr n) v)
    rw [hmode, Bool.true_or] at hrest
    rw [putsEagerCode_cons, typeCells_cons, if_neg (List.cons_ne_nil v text), List.isEmpty_cons, Bool.not_false, Bool.or_true,
      List.length_cons, Nat.mul_succ, Nat.add_comm (8 * _), ← Nat.add_assoc n, Nat.add_right_comm]
    exact (runs_putsEagerChar h hw hinc n v).append hrest

/-- LCD_MODE after LCD_PUTS of a text from cell n on (R176). -/
def putsMode (w : WrapPolicy) (n : Nat) (text : List Byte) : BitVec 2 :=
  if text = [] then 0b01#2 else if w = .eager ∧ (n + text.length) % 16 = 0 then 0b00#2 else 0b10#2

/-- AC after it (R176): under lazy wrap, where the last character left it. -/
def putsAddr (w : WrapPolicy) (n : Nat) (text : List Byte) : BitVec 7 :=
  match w with
  | .eager => cellAddr (n + text.length)
  | .deferred => if text = [] then cellAddr n else cellAddr (n + text.length - 1) + 1#7

/-- The loop of LCD_PUTS, begun at cell n, where the wait has just found the module (R176). -/
theorem runs_putsLoop (w : WrapPolicy) (text : List Byte) (n : Nat) (d : Memory) :
    Runs c (8 * text.length) (putsLoopCode w (n % 64 / 16) (n % 16) text) (s.shows 0b01#2 false (cellAddr n) d)
      (s.shows (putsMode w n text) (!text.isEmpty) (putsAddr w n text) (typeCells d n text)) := by
  cases w with
  | eager =>
    have hmode : putsMode .eager n text = if text = [] then 0b01#2 else eagerMode (n + text.length) := by
      simp only [putsMode, eagerMode, true_and]
    rw [hmode]
    exact runs_putsEager h hw hinc text n _ _ d
  | deferred =>
    cases text with
    | nil => exact Runs.nil c _
    | cons v text =>
      have hcol : ¬ n % 16 > 15 := by omega
      have hfirst := (runs_putc_shows (mode := 0b01#2) (bf := false) (a := cellAddr n) (d := d) h hw hinc v).append
        (runs_putsDeferred h hw hinc text n _)
      rw [← typeCells_cons] at hfirst
      rw [putsLoopCode, putsDeferredCode, if_neg hcol]
      exact hfirst.mono (by rw [List.length_cons]; omega)

end Puts

theorem startsPrim_putsLoop (w : WrapPolicy) (row col : Nat) (text : List Byte) :
    startsPrim (putsLoopCode w row col text) = true := by
  cases text with
  | nil => cases w <;> rfl
  | cons v text =>
    cases w with
    | deferred =>
      rw [putsLoopCode, putsDeferredCode, gotoCode, if_pos (cursorOk_nextRow row)]
      split <;> rfl
    | eager =>
      rw [putsLoopCode, putsEagerCode]
      split <;> rfl

section PutsStart
variable {c : Ctx} {s t : State}

theorem go_wait_setTr {n : Nat} {k : List Item} {x : Transients} (h : Running c s) (hw : s.waitEnds = true) :
    go c (n + 2) (waitCode ++ k) (s.setTr c x) =
      go c n k (State.setTr { s with lcd := { s.lcd with mode := 0b01#2, bf := false } } c (x.waited s.lcd.ac)) := by
  rw [go_wait (h.setTr x) (by simpa using hw)]
  cases c <;> rfl

/-- LCD_PUTS decodes the address its first wait has read, then runs its loop (R176). -/
theorem runs_puts {cost row col : Nat} {text : List Byte} (h : Running c s) (hw : s.waitEnds = true)
    (hpos : cursorPos s.lcd.ac = some (row, col))
    (hloop : Runs c cost (putsLoopCode s.cfg.putsWrap row col text)
      { s with lcd := { s.lcd with mode := 0b01#2, bf := false } } t) :
    Runs c (cost + 2) (putsCode text) s t := by
  intro n k x
  obtain ⟨m, y, hm, hy, hgo⟩ := hloop n k (x.waited s.lcd.ac)
  refine ⟨m, y, hm, hy, Eq.trans ?_ hgo⟩
  rw [putsCode, List.append_assoc, ← Nat.add_assoc, go_wait_setTr h hw]
  exact go_insert (by simp [runCtl, putsStart, Transients.waited, hpos]) (startsPrim_putsLoop ..)

end PutsStart

theorem shows_of_dd {s : State} (h : s.lcd.ramsel = .dd) (mode : BitVec 2) (bf : Bit) (a : BitVec 7) (d : Memory) :
    s.shows mode bf a d = { s with lcd := { s.lcd with mode := mode, bf := bf, ac := a, ddram := d } } := by
  rw [State.shows, ← h]

/-- LCD_PUTS with the module addressing cell n of DDRAM (R176, R178). -/
theorem runs_puts_shows {c : Ctx} {s : State} {n : Nat} (h : Running c s) (hw : s.lcdAnswers = true)
    (hinc : s.lcd.entryInc = true) (hdd : s.lcd.ramsel = .dd) (hac : s.lcd.ac = cellAddr n) (text : List Byte) :
    Runs c (8 * text.length + 2) (putsCode text) s
      (s.shows (putsMode s.cfg.putsWrap n text) (!text.isEmpty) (putsAddr s.cfg.putsWrap n text)
        (typeCells s.lcd.ddram n text)) := by
  refine runs_puts h (waitEnds_of_lcdAnswers hw) (hac ▸ cursorPos_cellAddr n) ?_
  have hfound := shows_of_dd hdd 0b01#2 false s.lcd.ac s.lcd.ddram
  rw [← hfound, hac]
  exact runs_putsLoop h hw hinc s.cfg.putsWrap text n s.lcd.ddram

/-- Settles O32: the wait names cell m, and each character takes the next cell round the display. -/
theorem putsGoesRoundTheDisplay : Obligations.PutsGoesRoundTheDisplay := by
  intro text m s hlen _ hs hw hinc hdd hac hwf
  refine ⟨putsMode s.cfg.putsWrap m text, putsAddr s.cfg.putsWrap m text, typeCells s.lcd.ddram m text, ?_, rfl,
    fun k hk hlast => read_typeCells hwf hk hlast, fun j hj hbeyond => read_typeCells_beyond hwf hj hbeyond,
    fun a ha => read_typeCells_outside hwf ha, ?_⟩
  · have hbudget : 8 * text.length + 2 ≤ Config.quantum := by rw [Config.quantum]; omega
    have hexec := perform_of_runs (i := .lcdPuts text) (k := .none)
      (u := s.shows (putsMode s.cfg.putsWrap m text) (!text.isEmpty) (putsAddr s.cfg.putsWrap m text)
        (typeCells s.lcd.ddram m text)) _ hbudget hs hs (fun _ => rfl)
      fun q => runs_puts_shows (s := { s with fg := q }) (running_of_calm hs q) hw hinc hdd hac text
    rw [shows_of_dd hdd] at hexec
    exact hexec
  · cases s.cfg.putsWrap <;> rfl

/-- Settles O33: the first wait's status byte names no cell. -/
theorem putsOutsideWindowsRefused : Obligations.PutsOutsideWindowsRefused := by
  intro text s hs hw hout
  have hpos : cursorPos s.lcd.ac = none := by
    rw [← visible_iff_mem, visible] at hout
    simpa using hout
  have hwait := go_wait (n := 4094) (k := [.ctl (.putsFrom text), .ctl (.ret .none)])
    (s := { s with fg := Seq.begun (.lcdPuts text) }) (running_of_calm hs _) hw
  refine (perform_eq_go (resting_of_calm hs)).trans (hwait.trans (go_reject ?_))
  simp [runCtl, putsStart, hpos]

end Sys2Proof.Machine
end

section
/-! PROOF. LCD_GLYPH and LCD_INIT (44_lcd_operations.md R171, R172, R179). -/

namespace Sys2Proof.Machine

/-! ## LCD_GLYPH (R179) -/

/-- The CGRAM address of glyph row n, the 64 rows counted round (R56). -/
def glyphAddr (n : Nat) : BitVec 7 := BitVec.ofNat 7 (n % 64)

theorem glyphAddr_low (n : Nat) : ((glyphAddr n).extractLsb 5 0).toNat = n % 64 := by
  simp [glyphAddr]

/-- AC counts the rows round, its highest bit unchanged (R57). -/
theorem glyphAddr_succ (n : Nat) :
    (glyphAddr n).extractLsb 6 6 ++ ((glyphAddr n).extractLsb 5 0 + 1#6) = glyphAddr (n + 1) := by
  have hround : ∀ i : Fin 64, (glyphAddr i).extractLsb 6 6 ++ ((glyphAddr i).extractLsb 5 0 + 1#6) = glyphAddr (i + 1) := by
    decide
  have h := hround ⟨n % 64, Nat.mod_lt _ (by decide)⟩
  simpa [glyphAddr] using h

/-- CGRAM after glyph rows from row n on: the low five bits of each (R31, R57). -/
def drawRows (g : Memory) (n : Nat) (rows : List Byte) : Memory :=
  Memory.writeRun Config.unwritten (· % 64) g n (rows.map (· &&& 0x1F#8))

theorem drawRows_cons (g : Memory) (n : Nat) (v : Byte) (rows : List Byte) :
    drawRows g n (v :: rows) = drawRows (writeCgram g ((glyphAddr n).extractLsb 5 0) v) (n + 1) rows := by
  rw [writeCgram, glyphAddr_low]
  rfl

/-- A glyph row is written as a character is (R174, R179). -/
theorem glyphRowsCode_cons (v : Byte) (rows : List Byte) : glyphRowsCode (v :: rows) = putcCode v ++ glyphRowsCode rows := rfl

/-- The module addresses CGRAM row n, and CGRAM is g. -/
def State.glyphs (s : State) (mode : BitVec 2) (n : Nat) (g : Memory) : State :=
  { s with lcd := { s.lcd with mode := mode, bf := true, ac := glyphAddr n, ramsel := .cg, cgram := g } }

section Glyph
variable {c : Ctx} {s : State}

/-- With ENTRY_INC = 1 a row goes where AC says and AC advances (R57). -/
theorem typed_glyphs (hinc : s.lcd.entryInc = true) (mode : BitVec 2) (n : Nat) (g : Memory) (v : Byte) :
    { s.glyphs mode n g with lcd := (s.glyphs mode n g).lcd.typed v } =
      s.glyphs 0b10#2 (n + 1) (writeCgram g ((glyphAddr n).extractLsb 5 0) v) := by
  rw [typed_of_entryInc (l := (s.glyphs mode n g).lcd) hinc, State.glyphs, State.glyphs, ← glyphAddr_succ]
  rfl

theorem runs_glyphRows (h : Running c s) (hw : s.lcdAnswers = true) (hinc : s.lcd.entryInc = true) (rows : List Byte)
    (mode : BitVec 2) (n : Nat) (g : Memory) :
    Runs c (4 * rows.length) (glyphRowsCode rows) (s.glyphs mode n g)
      (s.glyphs (if rows = [] then mode else 0b10#2) (n + rows.length) (drawRows g n rows)) := by
  induction rows generalizing mode n g with
  | nil => exact Runs.nil c _
  | cons v rows ih =>
    have hrow := runs_putc (v := v) (s := s.glyphs mode n g) (h.congr rfl rfl) (waitEnds_of_lcdAnswers hw)
    have hrest := ih 0b10#2 (n + 1) (writeCgram g ((glyphAddr n).extractLsb 5 0) v)
    rw [typed_glyphs hinc] at hrow
    rw [ite_self] at hrest
    rw [glyphRowsCode_cons, drawRows_cons, if_neg (List.cons_ne_nil v rows), List.length_cons, Nat.mul_succ,
      Nat.add_comm (4 * _), ← Nat.add_assoc n, Nat.add_right_comm]
    exact hrow.append hrest

/-- The CGRAM-address command of a slot (R56, R92). -/
theorem glyphCommand_bits {slot : Byte} (hslot : slot.toNat ≤ 7) : (glyphCommand slot).extractLsb 7 6 = 0b01#2 ∧
    0#1 ++ (glyphCommand slot).extractLsb 5 0 = glyphAddr (slot.toNat * 8) := by
  have hbits : ∀ q : BitVec 3, (glyphCommand (q.setWidth 8)).extractLsb 7 6 = 0b01#2 ∧
      0#1 ++ (glyphCommand (q.setWidth 8)).extractLsb 5 0 = glyphAddr ((q.setWidth 8 : Byte).toNat * 8) := by decide
  obtain ⟨q, rfl⟩ := eq_setWidth_of_page hslot
  exact hbits q

/-- LCD_GLYPH: the slot's address, then its rows (R179). -/
theorem runs_glyph {slot : Byte} (hslot : slot.toNat ≤ 7) (rows : Vector Byte 8) (h : Running c s) (hw : s.lcdAnswers = true)
    (hinc : s.lcd.entryInc = true) :
    Runs c 36 (glyphCode slot rows) s
      (s.glyphs 0b10#2 (slot.toNat * 8 + 8) (drawRows s.lcd.cgram (slot.toNat * 8) rows.toList)) := by
  obtain ⟨hsel, haddr⟩ := glyphCommand_bits hslot
  have hcmd := runs_waitCmd h (waitEnds_of_lcdAnswers hw) (acceptCommand_cgram (p := s.cfg) _ hsel)
  have hrows := runs_glyphRows h hw hinc rows.toList 0b00#2 (slot.toNat * 8) s.lcd.cgram
  have hne : rows.toList ≠ [] := List.ne_nil_of_length_pos (by simp)
  rw [haddr] at hcmd
  rw [if_neg hne, Vector.length_toList] at hrows
  exact hcmd.append hrows

end Glyph

section DrawRows
variable {g : Memory} {n : Nat} {rows : List Byte}

/-- The rows of a run that stays below row 64. -/
theorem read_drawRows {k : Nat} (h : Memory.wf Config.unwritten g = true) (hn : n + rows.length ≤ 64) (hk : k < rows.length) :
    Memory.read Config.unwritten (drawRows g n rows) (n + k) = rows[k] &&& 0x1F#8 := by
  have hread := Memory.read_writeRun_last (addr := (· % 64)) (n := n) (vs := rows.map (· &&& 0x1F#8)) (k := k) h
    (by simpa using hk) (fun j hj hkj => by rw [List.length_map] at hj; omega)
  have hcell : (n + k) % 64 = n + k := Nat.mod_eq_of_lt (by omega)
  simpa [drawRows, hcell, hk] using hread

/-- No other row is written. -/
theorem read_drawRows_outside {a : Nat} (h : Memory.wf Config.unwritten g = true) (hn : n + rows.length ≤ 64)
    (ha : a < n ∨ n + rows.length ≤ a) :
    Memory.read Config.unwritten (drawRows g n rows) a = Memory.read Config.unwritten g a := by
  refine Memory.read_writeRun_of_ne h fun k hk => ?_
  rw [List.length_map] at hk
  omega

end DrawRows

/-- Settles O34: the command addresses the slot's first row, and each row written leaves AC at the next. -/
theorem glyphDefinesSlot : Obligations.GlyphDefinesSlot := by
  intro slot rows s hslot hs hw hinc hwf
  have hlen : slot.toNat * 8 + rows.toList.length ≤ 64 := by rw [Vector.length_toList]; omega
  have hexec : exec (.lcdGlyph slot rows) s =
      perform (.lcdGlyph slot rows) (glyphCode slot rows ++ [.ctl (.ret .none)]) s := if_pos (decide_eq_true hslot)
  refine ⟨drawRows s.lcd.cgram (slot.toNat * 8) rows.toList, ?_, fun r => ?_, fun a ha => ?_⟩
  · rw [hexec]
    exact perform_of_runs
      (u := s.glyphs 0b10#2 (slot.toNat * 8 + 8) (drawRows s.lcd.cgram (slot.toNat * 8) rows.toList)) 36 (by decide) hs hs
      (fun _ => rfl) fun q => runs_glyph (s := { s with fg := q }) hslot rows (running_of_calm hs q) hw hinc
  · rw [read_drawRows hwf hlen (by simp)]
    simp
  · exact read_drawRows_outside hwf hlen (by simpa using ha)

/-! ## LCD_INIT (R171, R172) -/

/-- The module stands at l after a delay of LCD_INIT: BF as the boundary before the delay leaves it (R75), the EEPROM's write
cycle as the delay leaves it (R67). -/
def State.delayed (s : State) (l : Lcd) : State := { delayMs s with lcd := { l with bf := !(s.env.lcd == .eager) } }

@[simp] theorem delayed_delayed (s : State) (l l' : Lcd) : (s.delayed l).delayed l' = s.delayed l' := by
  simp [State.delayed, delayMs]

/-- The module after LCD_INIT with the final function-set byte v and the cleared cells d, but for BF (R172). -/
def Lcd.initialized (l : Lcd) (v : Byte) (d : Memory) : Lcd :=
  { l with
    mode := 0b00#2, ac := 0#7, ramsel := .dd, ddram := d, entryInc := true, displayOn := false, func := v }

/-- One of the wake-up writes and its delay (R171). -/
def initWake (v : Byte) (ms : Nat) : List Item := wakeCode v ++ [.prim (.delay ms)]

theorem lcdInitCode_eq (p : Params) : lcdInitCode p =
    initWake p.cmdFsWake p.tFs1 ++ (initWake p.cmdFsWake p.tFs2 ++ (initWake p.cmdFsWake p.tFs3 ++
      (initCommand p.cmdFsFinal p.tCmd4 ++ (initCommand p.cmdDisplayOff p.tCmd5 ++ (initCommand p.cmdClear p.tCmd6 ++
        (initCommand p.cmdEntryInc p.tCmd7 ++ initCommand p.cmdHome p.tCmd8)))))) := by
  simp only [lcdInitCode, initWake, List.append_assoc]

section Init
variable {c : Ctx} {s : State}

/-- A byte that the module accepted, then its delay. -/
theorem runs_thenDelay {cost ms : Nat} {code : List Item} {l : Lcd} (h : Running c s)
    (hcode : Runs c cost code s { s with lcd := { l with bf := true } }) :
    Runs c (cost + 1) (code ++ [.prim (.delay ms)]) s (s.delayed l) :=
  hcode.append (runs_delay (h.congr rfl rfl))

variable (h : Running c s)
include h

theorem runs_initWake {ms : Nat} (hp : CommandsTold s.cfg) :
    Runs c 3 (initWake s.cfg.cmdFsWake ms) s (s.delayed { s.lcd with mode := 0b00#2, func := s.cfg.cmdFsWake }) :=
  runs_thenDelay h (runs_wake h (acceptCommand_functionSet _ hp (.inl rfl)))

/-- The module and the write cycle stand where the first wake-up write and its delay left them. -/
theorem runs_initWake_again {ms : Nat} (hp : CommandsTold s.cfg) :
    Runs c 3 (initWake s.cfg.cmdFsWake ms) (s.delayed { s.lcd with mode := 0b00#2, func := s.cfg.cmdFsWake })
      (s.delayed { s.lcd with mode := 0b00#2, func := s.cfg.cmdFsWake }) := by
  have hagain := runs_initWake (s := s.delayed { s.lcd with mode := 0b00#2, func := s.cfg.cmdFsWake }) (ms := ms)
    (h.congr rfl rfl) hp
  rw [delayed_delayed] at hagain
  exact hagain

theorem runs_initCommand {v : Byte} {ms : Nat} {l m : Lcd} (hw : s.lcdAnswers = true)
    (ha : acceptCommand s.cfg v { l with mode := 0b00#2, bf := false } = some { m with bf := true }) :
    Runs c 5 (initCommand v ms) (s.delayed l) (s.delayed m) := by
  rw [← delayed_delayed s l m]
  exact runs_thenDelay (s := s.delayed l) (h.congr rfl rfl)
    (runs_waitCmd (h.congr rfl rfl) (waitEnds_of_lcdAnswers (s := s.delayed l) hw) ha)

/-- The eight commands, each met by a module that the delay before it has left (R171); d names the cleared cells. -/
theorem runs_lcdInit (hw : s.lcdAnswers = true) (hp : CommandsTold s.cfg) {d : Memory}
    (hd : Memory.fill Config.blank s.lcd.ddram Config.blank visibleAddrs = d) :
    Runs c 34 (lcdInitCode s.cfg) s (s.delayed (s.lcd.initialized s.cfg.cmdFsFinal d)) := by
  have hclear := acceptCommand_clear { s.lcd with mode := 0b00#2, bf := false, func := s.cfg.cmdFsFinal, displayOn := false } hp
  rw [hd] at hclear
  rw [lcdInitCode_eq]
  exact .append (runs_initWake h hp) <| .append (runs_initWake_again h hp) <| .append (runs_initWake_again h hp) <|
    .append (runs_initCommand (m := { s.lcd with mode := 0b00#2, func := s.cfg.cmdFsFinal }) h hw
      (acceptCommand_functionSet _ hp (.inr rfl))) <|
    .append (runs_initCommand (m := { s.lcd with mode := 0b00#2, func := s.cfg.cmdFsFinal, displayOn := false }) h hw
      (acceptCommand_displayOff _ hp)) <|
    .append (runs_initCommand (m := { s.lcd.initialized s.cfg.cmdFsFinal d with entryInc := s.lcd.entryInc }) h hw hclear) <|
    .append (runs_initCommand (m := s.lcd.initialized s.cfg.cmdFsFinal d) h hw (acceptCommand_entryInc _ hp)) <|
    runs_initCommand h hw (acceptCommand_home _ hp)

end Init

/-- Settles O29: clear-display leaves the cells BLANK, and the commands after it touch no cell. -/
theorem initLeavesModuleReady : Obligations.InitLeavesModuleReady := by
  intro s hs hp hw hwf
  have hsettles : (!(s.env.ee == .settles)) = decide (s.env.ee ≠ .settles) := by cases s.env.ee <;> rfl
  have hcells := read_clear hwf
  generalize hd : Memory.fill Config.blank s.lcd.ddram Config.blank visibleAddrs = d at hcells
  refine ⟨!(s.env.lcd == .eager), d, ?_, hcells⟩
  rw [← hsettles]
  exact perform_of_runs (u := s.delayed (s.lcd.initialized s.cfg.cmdFsFinal d)) 34 (by decide) hs hs (fun _ => rfl) fun q =>
    runs_lcdInit (s := { s with fg := q }) (running_of_calm hs q) hw (commandsTold_of_legal hp) hd

end Sys2Proof.Machine
end

section
/-! SUPPORT. What the background agents' expansions (45_background_agents.md) are made of, beside the pieces of the LCD operations:
single micro-steps, a text written where LCD_GOTO stands, the guard (R199), and runs that leave a context's transients open. -/

namespace Sys2Proof.Machine

/-! ## Runs that leave the transients open -/

/-- In at most `cost` micro-steps context c does `code`, which takes the machine from s to t, whatever c's transients are and
become. -/
def Leads (c : Ctx) (cost : Nat) (code : List Item) (s t : State) : Prop :=
  ∀ (n : Nat) (k : List Item) (x : Transients), ∃ (m : Nat) (y : Transients), n ≤ m ∧
    go c (n + cost) (code ++ k) (s.setTr c x) = go c m k (t.setTr c y)

section Leads
variable {c : Ctx} {p q : Nat} {x y : List Item} {s t u : State}

theorem Runs.leads (h : Runs c p x s t) : Leads c p x s t := fun n k z =>
  let ⟨m, z', hm, _, hgo⟩ := h n k z
  ⟨m, z', hm, hgo⟩

theorem Leads.append (hx : Leads c p x s t) (hy : Leads c q y t u) : Leads c (p + q) (x ++ y) s u := by
  intro n k z
  obtain ⟨m, z₁, hm, hgo₁⟩ := hx (n + q) (y ++ k) z
  obtain ⟨m', z₂, hm', hgo₂⟩ := hy (m - q) k z₁
  rw [Nat.sub_add_cancel (by omega)] at hgo₂
  refine ⟨m', z₂, by omega, ?_⟩
  rw [List.append_assoc, Nat.add_comm p q, ← Nat.add_assoc, hgo₁, hgo₂]

/-- A bookkeeping element that puts a list in its place. -/
theorem Leads.of_insert {x : Ctl} {code : List Item} (hx : ∀ z, runCtl c x (s.setTr c z) = .insert code (t.setTr c z))
    (hcode : startsPrim code = true) (h : Leads c p code t u) : Leads c p [.ctl x] s u := by
  intro n k z
  obtain ⟨m, z', hm, hgo⟩ := h n k z
  exact ⟨m, z', hm, (go_insert (hx z) hcode).trans hgo⟩

end Leads

theorem atRest_iff (s : State) : s.atRest = true ↔ s.irq.inIsr = none ∧ s.fg = Seq.idle := by
  simp only [State.atRest, Bool.and_eq_true, decide_eq_true_eq]

theorem atRest_of_calm {s : State} (h : s.calm = true) : s.atRest = true :=
  (Bool.and_eq_true_iff.mp h).1

theorem resting_of_atRest {s : State} (h : s.atRest = true) : s.resting = true := by
  obtain ⟨hisr, hidle⟩ := (atRest_iff s).mp h
  simp [State.resting, hisr, hidle, Seq.idle]

/-- An operation begun at rest that leaves the machine at u, where an interrupt may be takeable. -/
theorem perform_of_leads {i : Instr} {code : List Item} {s u : State} (cost : Nat) (hcost : cost ≤ Config.quantum)
    (hs : s.calm = true) (hu : u.atRest = true) (h : ∀ q, Leads .fg cost code { s with fg := q } { u with fg := q }) :
    perform i code s = .next u := by
  obtain ⟨hisr, hidle⟩ := (atRest_iff u).mp hu
  obtain ⟨m, z, -, hgo⟩ := h (Seq.begun i) 0 [] Transients.none
  have hend : go .fg m [] (State.setTr { u with fg := Seq.begun i } .fg z) = .next u := by
    rw [go_nil_fg (by simpa using hisr)]
    exact congrArg Host.Outcome.next (finish_fg_of_idle hidle _)
  rw [List.append_nil, Nat.zero_add, hend] at hgo
  exact perform_of_go cost hcost (resting_of_calm hs) hgo (resting_of_atRest hu)

/-! ## A handler's run (R227 to R230) -/

theorem undisturbed_iff (s : State) :
    s.undisturbed = true ↔ s.irq.inIsr = none ∧ s.fg = Seq.idle ∧ s.env.script = [] := by
  simp only [State.undisturbed, Bool.and_eq_true, atRest_iff, decide_eq_true_eq, and_assoc]

theorem undisturbed_of_calm {s : State} (h : s.calm = true) : s.undisturbed = true := by
  obtain ⟨hisr, hidle, hquiet⟩ := (calm_iff s).mp h
  simp only [State.quiet, Bool.and_eq_true, decide_eq_true_eq] at hquiet
  obtain ⟨⟨hscript, -⟩, -⟩ := hquiet
  exact (undisturbed_iff s).mpr ⟨hisr, hidle, hscript⟩

/-- A return changes nothing of the interrupt bookkeeping where no handler was running (R230). -/
theorem Irq.with_noHandler {q : Irq} (h : q.inIsr = none) : { q with inIsr := none } = q := by rw [← h]

theorem handlerCode_startsPrim (p : Params) (h : Handler) :
    startsPrim (handlerCode p h) = true ∧ handlerCode p h ≠ [] := by
  cases h <;> exact ⟨rfl, List.cons_ne_nil _ _⟩

theorem finish_setTr (c : Ctx) (x : Transients) (s : State) : finish c (s.setTr c x) = finish c s := by
  cases c <;> rfl

/-- A handler fired at rest, whose expansion leaves the machine at u, returns there. -/
theorem fireHandler_of_leads {h : Handler} {s u : State} (cost : Nat) (hcost : cost ≤ Config.quantum)
    (hs : s.undisturbed = true) (hrun : Leads (handlerCtx h) cost (handlerCode s.cfg h) (enterHandler h s) u)
    (hu : u.fg = s.fg) :
    fireHandler h s = .next (finish (handlerCtx h) u) := by
  obtain ⟨hisr, hidle, hscript⟩ := (undisturbed_iff s).mp hs
  obtain ⟨hprim, hne⟩ := handlerCode_startsPrim s.cfg h
  obtain ⟨m, z, -, hgo⟩ := hrun 0 [] Transients.none
  have hfg : u.fg.rest = [] := by rw [hu, hidle]; rfl
  have hend : go (handlerCtx h) m [] (u.setTr (handlerCtx h) z) = .next (finish (handlerCtx h) u) := by
    rw [go_nil_handler h (by cases h <;> exact hfg), finish_setTr]
  have hentry : (enterHandler h s).setTr (handlerCtx h) Transients.none = enterHandler h s := by cases h <;> rfl
  rw [List.append_nil, Nat.zero_add, hend, hentry] at hgo
  refine fireHandler_of_drive cost hcost hisr hscript ((drive_enterHandler hprim hne).trans hgo) ?_
  cases h <;> simp [State.resting, handlerCtx, finish, returnHandler, State.setSeq, hfg]

/-! ## Single micro-steps -/

theorem readyEager_setTr (s : State) (c : Ctx) (x : Transients) :
    readyEager (s.setTr c x) = (readyEager s).setTr c x := by
  cases c <;> rfl

section Prims
variable {c : Ctx} {s : State} (h : Running c s)
include h

/-- A micro-step in which the transients play no part. -/
theorem runs_prim {p : Prim} {t : State}
    (hp : ∀ x, runPrim c p ((readyEager s).setTr c x) = .next (t.setTr c x)) : Runs c 1 [.prim p] s t := by
  refine Runs.of_go id (fun _ => rfl) fun n k x => ?_
  rw [List.singleton_append, go_prim (h.setTr x), readyEager_setTr, hp, thenDo_next, id]

theorem runs_setTmrRun (b : Bit) :
    Runs c 1 [.prim (.setTmrRun b)] s { readyEager s with irq := { s.irq with tmrRun := b } } :=
  runs_prim h fun _ => by cases c <;> rfl

theorem runs_setTmrIe (b : Bit) :
    Runs c 1 [.prim (.setTmrIe b)] s { readyEager s with irq := { s.irq with tmrIe := b } } :=
  runs_prim h fun _ => by cases c <;> rfl

theorem runs_reload (v : Nat) : Runs c 1 [.prim (.reload v)] s (readyEager s) :=
  runs_prim h fun _ => by cases c <;> rfl

theorem runs_zeroClock : Runs c 1 [.prim .zeroClock] s { readyEager s with clk := Clock.zero } :=
  runs_prim h fun _ => by cases c <;> rfl

theorem runs_incCnt : Runs c 1 [.prim .incCnt] s { readyEager s with cnt := s.cnt + 1#4 } :=
  runs_prim h fun _ => by cases c <;> rfl

theorem runs_zeroCnt : Runs c 1 [.prim .zeroCnt] s { readyEager s with cnt := 0#4 } :=
  runs_prim h fun _ => by cases c <;> rfl

/-- TMR_RUN plays no part in what is taken at a boundary (R224). -/
theorem Running.setTmrRun (b : Bit) : Running c { readyEager s with irq := { s.irq with tmrRun := b } } := by
  cases c <;> exact h

end Prims

/-- A request that is not enabled is not taken (R224). -/
theorem Running.clearTmrIe {s : State} (h : Running .fg s) :
    Running .fg { readyEager s with irq := { s.irq with tmrIe := false } } := by
  obtain ⟨hscript, hisr, -, hedge⟩ := h
  exact ⟨hscript, hisr, Bool.and_false _, hedge⟩

/-- `return` of an operation that returns nothing (R84). -/
theorem runs_retNone (c : Ctx) (s : State) :
    Runs c 0 [.ctl (.ret .none)] s { s with results := s.results ++ [.nothing] } := by
  refine Runs.of_go id (fun _ => rfl) fun n k x => ?_
  rw [List.singleton_append, go_goOn rfl]
  cases c <;> rfl

/-! ## A text written where LCD_GOTO stands (R173, R174) -/

/-- The module after a sequence of LCD_PUTC. -/
def Lcd.typedAll (l : Lcd) : List Byte → Lcd
  | [] => l
  | v :: vs => (l.typed v).typedAll vs

/-- The module after LCD_GOTO, which does nothing out of range. -/
def Lcd.movedTo (l : Lcd) (row column : Nat) : Lcd :=
  if cursorOk row column then l.addressed (cursorAddr row column) else l

/-- The module after LCD_GOTO and a text. -/
def Lcd.printed (l : Lcd) (row column : Nat) (text : List Byte) : Lcd := (l.movedTo row column).typedAll text

theorem cursorOk_of_le {row column : Nat} (hrow : row ≤ 3) (hcol : column ≤ 15) : cursorOk row column = true := by
  simp [cursorOk, hrow, hcol]

section Text
variable {c : Ctx} {s : State} (h : Running c s) (hw : s.lcdAnswers = true)
include h hw

theorem runs_putcs (text : List Byte) (l : Lcd) :
    Runs c (4 * text.length) (putcsCode text) { s with lcd := l } { s with lcd := l.typedAll text } := by
  induction text generalizing l with
  | nil => exact Runs.nil c _
  | cons v text ih =>
    rw [List.length_cons, Nat.mul_succ, Nat.add_comm]
    exact (runs_putc (s := { s with lcd := l }) (h.congr rfl rfl) (waitEnds_of_lcdAnswers hw)).append (ih (l.typed v))

theorem runs_movedTo (row column : Nat) (l : Lcd) :
    Runs c 4 (gotoCode row column) { s with lcd := l } { s with lcd := l.movedTo row column } := by
  rw [Lcd.movedTo]
  split
  · next hok => exact runs_goto (s := { s with lcd := l }) (h.congr rfl rfl) (waitEnds_of_lcdAnswers hw) hok
  · next hok =>
    rw [gotoCode, if_neg hok]
    exact (Runs.nil c _).mono (Nat.zero_le 4)

theorem runs_printed (row column : Nat) (text : List Byte) (l : Lcd) :
    Runs c (4 + 4 * text.length) (gotoCode row column ++ putcsCode text) { s with lcd := l }
      { s with lcd := l.printed row column text } :=
  (runs_movedTo h hw row column l).append (runs_putcs h hw text _)

end Text

/-- The module after writes into DDRAM that leave LCD_MODE, BF, AC and the cells as named. -/
def Lcd.shows (l : Lcd) (mode : BitVec 2) (bf : Bit) (a : BitVec 7) (d : Memory) : Lcd :=
  { l with mode := mode, bf := bf, ac := a, ramsel := .dd, ddram := d }

/-- DDRAM after a text from address a on. -/
def typeFrom (d : Memory) (a : BitVec 7) : List Byte → Memory
  | [] => d
  | v :: vs => typeFrom (writeDdram d a v) (a + 1#7) vs

/-- With ENTRY_INC = 1 each character goes into the cell after the one before (R57). -/
theorem typedAll_shows {l : Lcd} (hinc : l.entryInc = true) (text : List Byte) (v : Byte) (mode : BitVec 2) (bf : Bit)
    (a : BitVec 7) (d : Memory) :
    (l.shows mode bf a d).typedAll (v :: text) =
      l.shows 0b10#2 true (a + BitVec.ofNat 7 (v :: text).length) (typeFrom d a (v :: text)) := by
  have hchar : ∀ mode bf a d v, (l.shows mode bf a d).typed v = l.shows 0b10#2 true (a + 1#7) (writeDdram d a v) :=
    fun mode bf a d v => typed_of_entryInc (l := l.shows mode bf a d) hinc v
  induction text generalizing v mode bf a d with
  | nil => exact hchar mode bf a d v
  | cons w text ih =>
    have haddr : a + 1#7 + BitVec.ofNat 7 (w :: text).length = a + BitVec.ofNat 7 (v :: w :: text).length := by
      rw [List.length_cons (a := v), BitVec.ofNat_add, BitVec.add_assoc, BitVec.add_comm 1#7]
    rw [Lcd.typedAll, hchar, ih, haddr]
    rfl

theorem printed_of_entryInc {l : Lcd} {row column : Nat} {text : List Byte} (hinc : l.entryInc = true)
    (hok : cursorOk row column = true) (hne : text ≠ []) :
    l.printed row column text =
      l.shows 0b10#2 true (cursorAddr row column + BitVec.ofNat 7 text.length)
        (typeFrom l.ddram (cursorAddr row column) text) := by
  obtain ⟨v, text, rfl⟩ := List.exists_cons_of_ne_nil hne
  rw [Lcd.printed, Lcd.movedTo, if_pos hok]
  exact typedAll_shows hinc text v 0b00#2 true _ l.ddram

theorem typeFrom_wf {d : Memory} (h : Memory.wf Config.blank d = true) (a : BitVec 7) (text : List Byte) :
    Memory.wf Config.blank (typeFrom d a text) = true := by
  induction text generalizing d a with
  | nil => exact h
  | cons v text ih => exact ih (writeDdram_wf h a v) _

/-- A text all of whose addresses lie in the windows: character k stands at address a + k, and no other cell changes. -/
theorem read_typeFrom {d : Memory} {a : BitVec 7} {text : List Byte} (h : Memory.wf Config.blank d = true)
    (hvis : ∀ k < text.length, a.toNat + k ∈ visibleAddrs) (i : Nat) :
    Memory.read Config.blank (typeFrom d a text) i =
      if a.toNat ≤ i ∧ i < a.toNat + text.length then text.getD (i - a.toNat) 0#8 else Memory.read Config.blank d i := by
  induction text generalizing d a with
  | nil => exact (if_neg (by simp only [List.length_nil]; omega)).symm
  | cons v text ih =>
    have hhead : a.toNat ∈ visibleAddrs := hvis 0 (Nat.succ_pos _)
    have hlow : a.toNat < 96 := by
      have hall : ∀ j ∈ visibleAddrs, j < 96 := by decide
      exact hall _ hhead
    have hnext : (a + 1#7).toNat = a.toNat + 1 := by
      rw [BitVec.toNat_add, BitVec.toNat_ofNat]
      omega
    have htail : ∀ k < text.length, (a + 1#7).toNat + k ∈ visibleAddrs := fun k hk => by
      rw [hnext, Nat.add_right_comm]
      exact hvis (k + 1) (Nat.succ_lt_succ hk)
    rw [typeFrom, ih (writeDdram_wf h a v) htail, read_writeDdram h, hnext, List.length_cons]
    rcases Nat.lt_trichotomy i a.toNat with hlt | rfl | hgt
    · rw [if_neg (by omega), if_neg (by omega), if_neg (by omega)]
    · rw [if_neg (by omega), if_pos ⟨rfl, hhead⟩, if_pos (by omega), Nat.sub_self]
      rfl
    · obtain ⟨j, rfl⟩ := Nat.exists_eq_add_of_lt hgt
      have hcell : a.toNat + j + 1 - a.toNat = j + 1 := by omega
      have hrest : a.toNat + j + 1 - (a.toNat + 1) = j := by omega
      rw [hcell, hrest, if_neg (c := a.toNat + j + 1 = a.toNat ∧ _) (by omega), List.getD_cons_succ]
      exact if_congr (by omega) rfl rfl

/-- The addresses of a row's columns (R55). -/
theorem cursorAddr_add_mem {row column k : Nat} (hrow : row ≤ 3) (hk : column + k ≤ 15) :
    (cursorAddr row column).toNat + k ∈ visibleAddrs := by
  have hcell : (cursorAddr row column).toNat + k = (cursorAddr row (column + k)).toNat := by
    simp only [cursorAddr, BitVec.toNat_ofNat]
    interval_cases row <;> simp only [rowBase] <;> omega
  have hall : ∀ r ≤ 3, ∀ j ≤ 15, (cursorAddr r j).toNat ∈ visibleAddrs := by decide
  rw [hcell]
  exact hall row hrow _ hk

/-- A text that stays in its row. -/
theorem read_typeFrom_row {d : Memory} {row column : Nat} {text : List Byte} (h : Memory.wf Config.blank d = true)
    (hrow : row ≤ 3) (hfit : column + text.length ≤ 16) (i : Nat) :
    Memory.read Config.blank (typeFrom d (cursorAddr row column) text) i =
      if (cursorAddr row column).toNat ≤ i ∧ i < (cursorAddr row column).toNat + text.length
      then text.getD (i - (cursorAddr row column).toNat) 0#8 else Memory.read Config.blank d i :=
  read_typeFrom h (fun k hk => cursorAddr_add_mem hrow (by omega)) i

/-! ## The guard (R199) -/

/-- The module after a wait has found it ready (R153). -/
def Lcd.polled (l : Lcd) : Lcd := { l with mode := 0b01#2, bf := false }

/-- The module after a guarded body that leaves it at l', begun at l: LCD_MODE and AC are put back, by a command after which LCDDEV
has had one boundary on its schedule k. -/
def Lcd.guarded (l : Lcd) (k : LcdSched) (l' : Lcd) : Lcd :=
  { l' with mode := l.mode, ac := l.ac, ramsel := .dd, bf := !(k == .eager) }

theorem decide_ne_eager (k : LcdSched) : decide (k ≠ .eager) = !(k == .eager) := by cases k <;> rfl

section Guard
variable {c : Ctx} {n : Nat} {k : List Item} {s : State} {x : Transients}

/-- The guard's snapshot of LCD_MODE and AC. -/
theorem go_guardOpen (h : Running c s) (hw : s.lcdAnswers = true) :
    go c (n + 3) (.prim .readMode :: (waitCode ++ .ctl .saveAddr :: k)) (s.setTr c x) =
      go c n k (State.setTr { s with lcd := s.lcd.polled } c
        { x with savedMode := s.lcd.mode, stBusy := false, stAddr := s.lcd.ac, savedAddr := s.lcd.ac }) := by
  have hmode : runPrim c .readMode (readyEager (s.setTr c x)) =
      .next ((readyEager s).setTr c { x with savedMode := s.lcd.mode }) := by cases c <;> rfl
  have hready : Running c (readyEager s) := h.congr rfl rfl
  rw [go_prim (h.setTr x), hmode, thenDo_next, go_wait_setTr hready (waitEnds_of_lcdAnswers hw), go_goOn rfl]
  cases c <;> rfl

/-- What the guard puts back: AC by a set-address command, then LCD_MODE. -/
theorem go_guardClose (h : Running c s) (hw : s.lcdAnswers = true) :
    go c (n + 5) (waitCode ++ .ctl .restoreAddr :: .prim .restoreMode :: k) (s.setTr c x) =
      go c n k (State.setTr { s with lcd :=
        { s.lcd with mode := x.savedMode, ac := x.savedAddr, ramsel := .dd, bf := !(s.env.lcd == .eager) } } c
        (x.waited s.lcd.ac)) := by
  have hinsert : runCtl c .restoreAddr (State.setTr { s with lcd := s.lcd.polled } c (x.waited s.lcd.ac)) =
      .insert (cmdCode (setAddrCommand x.savedAddr)) (State.setTr { s with lcd := s.lcd.polled } c (x.waited s.lcd.ac)) := by
    cases c <;> rfl
  have hpolled : Running c (State.setTr { s with lcd := s.lcd.polled } c (x.waited s.lcd.ac)) :=
    h.congr (by simp) (by simp)
  have hcmd : go c (n + 3) (cmdCode (setAddrCommand x.savedAddr) ++ .prim .restoreMode :: k)
        (State.setTr { s with lcd := s.lcd.polled } c (x.waited s.lcd.ac)) =
      go c (n + 1) (.prim .restoreMode :: k)
        (State.setTr { s with lcd := s.lcd.addressed x.savedAddr } c (x.waited s.lcd.ac)) := by
    rw [go_cmd hpolled (lcdFree_of_ready (by simp [Lcd.polled])) (acceptCommand_setAddr _ x.savedAddr _)]
    cases c <;> rfl
  have hrestore : runPrim c .restoreMode
        (readyEager (State.setTr { s with lcd := s.lcd.addressed x.savedAddr } c (x.waited s.lcd.ac))) =
      .next (State.setTr { s with lcd :=
        { s.lcd with mode := x.savedMode, ac := x.savedAddr, ramsel := .dd, bf := !(s.env.lcd == .eager) } } c
        (x.waited s.lcd.ac)) := by cases c <;> rfl
  rw [go_wait_setTr h (waitEnds_of_lcdAnswers hw)]
  refine (go_insert hinsert rfl).trans (hcmd.trans ?_)
  rw [go_prim (h.congr (by simp) (by simp)), hrestore, thenDo_next]

/-- The guard around a body. -/
theorem leads_guarded {cost : Nat} {body : List Item} {l : Lcd} (h : Running c s) (hw : s.lcdAnswers = true)
    (hbody : Runs c cost body { s with lcd := s.lcd.polled } { s with lcd := l }) :
    Leads c (cost + 8) (guardedCode body) s { s with lcd := s.lcd.guarded s.env.lcd l } := by
  intro n k x
  obtain ⟨m, y, hm, hy, hgo⟩ := hbody (n + 5) (waitCode ++ .ctl .restoreAddr :: .prim .restoreMode :: k)
    { x with savedMode := s.lcd.mode, stBusy := false, stAddr := s.lcd.ac, savedAddr := s.lcd.ac }
  have hclose := go_guardClose (n := m - 5) (k := k) (x := y) (s := { s with lcd := l }) (h.congr rfl rfl) hw
  have hmode : y.savedMode = s.lcd.mode := congrArg Transients.savedMode hy
  have haddr : y.savedAddr = s.lcd.ac := congrArg Transients.savedAddr hy
  rw [Nat.sub_add_cancel (by omega), hmode, haddr] at hclose
  refine ⟨m - 5, _, by omega, Eq.trans ?_ (hgo.trans hclose)⟩
  have hopen := go_guardOpen (n := n + 5 + cost)
    (k := body ++ (waitCode ++ .ctl .restoreAddr :: .prim .restoreMode :: k)) (x := x) h hw
  rw [← hopen, guardedCode]
  simp only [List.append_assoc, List.cons_append, List.nil_append]
  congr 1
  omega

end Guard

end Sys2Proof.Machine
end

section
/-! PROOF. The requests of the clock and of the edge counter (45_background_agents.md R191 to R195, R201, R202). -/

namespace Sys2Proof.Machine

/-! ## Starting and stopping the clock (R191, R192) -/

/-- What FG leaves where the timer bits alone are written. -/
def State.timerSet (s : State) (enabled running : Bit) : State :=
  { readyEager s with irq := { s.irq with tmrIe := enabled, tmrRun := running } }

/-- CLK_START: the enable is written last, so no interrupt is taken in it. -/
theorem runs_clkStart {s : State} (h : Running .fg s) : Runs .fg 2 clkStartCode s (s.timerSet true true) := by
  have hboth := (runs_setTmrRun h true).append (runs_setTmrIe (h.setTmrRun true) true)
  have hend : ({ readyEager { readyEager s with irq := { s.irq with tmrRun := true } } with
      irq := { s.irq with tmrRun := true, tmrIe := true } } : State) = s.timerSet true true := by
    simp only [State.timerSet, readyEager, readyAtBoundary_twice]
  rwa [hend] at hboth

/-- CLK_START and its other name, whichever of the two is the operation (R97, R191). -/
theorem perform_clkStart {s : State} (i : Instr) (hs : s.calm = true) :
    perform i (clkStartCode ++ [.ctl (.ret .none)]) s =
      .next { s.done .nothing with irq := { s.irq with tmrIe := true, tmrRun := true } } :=
  perform_of_leads 2 (by decide) hs (atRest_of_calm (s := s) hs) fun q =>
    ((runs_clkStart (running_of_calm hs q)).append (runs_retNone .fg _)).leads

/-- Settles O35: each writes its bits in one or two micro-steps, and nothing else is written. -/
theorem clockStartAndStop : Obligations.ClockStartAndStop := fun s hs =>
  ⟨perform_clkStart .clkStart hs, perform_clkStart .clkResume hs,
    perform_of_leads 1 (by decide) hs (atRest_of_calm (s := s) hs) fun q =>
      ((runs_setTmrIe (running_of_calm hs q) false).append (runs_retNone .fg _)).leads⟩

/-! ## CLK_RESET and CLK_RESTART (R193, R194) -/

/-- R7: the seven clock cells fit the row. -/
theorem clockFits_of_legal {p : Params} (h : p.legal = true) : p.clkCol ≤ 9 := by
  simp only [Params.legal, Params.clockFits, Bool.and_eq_true, decide_eq_true_eq] at h
  obtain ⟨⟨⟨-, hfits⟩, -⟩, -⟩ := h
  exact hfits

/-- The module after a free value has been drawn for AC (R193, D26). -/
def Lcd.acDrawn (l : Lcd) : Lcd := { l with ac := Config.any .lcd 7 l.draws, draws := l.draws + 1 }

theorem runs_drawAddr (c : Ctx) (s : State) : Runs c 0 [.ctl .drawAddr] s { s with lcd := s.lcd.acDrawn } := by
  refine Runs.of_go id (fun _ => rfl) fun n k x => ?_
  rw [List.singleton_append, go_goOn rfl]
  cases c <;> rfl

/-- The module after CLK_RESET (R193). -/
def State.zeroShown (s : State) : Lcd :=
  ((readyAtBoundary s.env.lcd s.lcd).printed 3 s.cfg.clkCol zeroTimeText).acDrawn

/-- What CLK_RESET leaves but for its result. -/
def State.clockReset (s : State) : State :=
  { s with clk := Clock.zero, irq := { s.irq with tmrIe := false }, lcd := s.zeroShown }

/-- CLK_RESET: the timer is disabled first, so no interrupt is taken in it. -/
theorem runs_clkReset {s : State} (h : Running .fg s) (hw : s.lcdAnswers = true) :
    Runs .fg 34 (clkResetCode s.cfg) s s.clockReset := by
  have hzero := (runs_setTmrIe h false).append (runs_zeroClock h.clearTmrIe)
  have hprint := runs_printed (s := { s with clk := Clock.zero, irq := { s.irq with tmrIe := false } })
    (h.clearTmrIe.congr rfl rfl) hw 3 s.cfg.clkCol zeroTimeText (readyAtBoundary s.env.lcd s.lcd)
  have hstart : ({ readyEager { readyEager s with irq := { s.irq with tmrIe := false } } with clk := Clock.zero } : State) =
      { s with clk := Clock.zero, irq := { s.irq with tmrIe := false }, lcd := readyAtBoundary s.env.lcd s.lcd } := by
    simp only [readyEager, readyAtBoundary_twice]
  rw [hstart] at hzero
  have hall := (hzero.append hprint).append (runs_drawAddr .fg _)
  rw [clkResetCode, List.append_assoc [Item.prim _, _]]
  exact hall

theorem exec_clkReset {s : State} (hs : s.calm = true) (hw : s.lcdAnswers = true) :
    exec .clkReset s = .next { s.clockReset with results := s.results ++ [.nothing] } :=
  perform_of_leads 34 (by decide) hs (atRest_of_calm (s := s) hs) fun q =>
    ((runs_clkReset (s := { s with fg := q }) (running_of_calm hs q) hw).append (runs_retNone .fg _)).leads

/-- CLK_RESTART is CLK_RESET with its result, then CLK_START with its own (R194). -/
theorem exec_clkRestart {s : State} (hs : s.calm = true) (hw : s.lcdAnswers = true) :
    exec .clkRestart s =
      .next { s.clockReset.timerSet true true with results := s.results ++ [.nothing] ++ [.nothing] } := by
  refine perform_of_leads 36 (by decide) hs (atRest_of_calm (s := s) hs) fun q => ?_
  have hrun := running_of_calm hs q
  have hreset := (runs_clkReset (s := { s with fg := q }) hrun hw).append (runs_retNone .fg _)
  have hstart := (runs_clkStart (s := { s.clockReset with fg := q, results := s.results ++ [.nothing] })
    (hrun.clearTmrIe.congr rfl rfl)).append (runs_retNone .fg _)
  have hall := (hreset.append hstart).leads
  rw [← List.append_assoc] at hall
  exact hall

theorem zeroShown_of_entryInc {s : State} (hl : s.cfg.legal = true) (hinc : s.lcd.entryInc = true) :
    s.zeroShown = { s.lcd with
      mode := 0b10#2, bf := true, ramsel := .dd, ac := Config.any .lcd 7 s.lcd.draws, draws := s.lcd.draws + 1
      ddram := typeFrom s.lcd.ddram (cursorAddr 3 s.cfg.clkCol) zeroTimeText } := by
  have hok := cursorOk_of_le (row := 3) le_rfl ((clockFits_of_legal hl).trans (by decide))
  rw [State.zeroShown,
    printed_of_entryInc (text := zeroTimeText) (l := readyAtBoundary s.env.lcd s.lcd) hinc hok (List.cons_ne_nil _ _)]
  simp only [Lcd.shows, Lcd.acDrawn, readyAtBoundary_ddram, readyAtBoundary_cgram, readyAtBoundary_entryInc,
    readyAtBoundary_displayOn, readyAtBoundary_func, readyAtBoundary_draws]

/-- CLK_ROW = 3 (R95). -/
theorem cursorAddr_clockRow {column : Nat} (h : column ≤ 15) : (cursorAddr 3 column).toNat = 0x50 + column := by
  simp only [cursorAddr, rowBase, BitVec.toNat_ofNat]
  omega

/-- Settles O36: the seven characters stand side by side from the clock's first cell on. -/
theorem clockResetRendersZero : Obligations.ClockResetRendersZero := by
  intro s hs hl hw hinc hwf
  have hcol := clockFits_of_legal hl
  refine ⟨Config.any .lcd 7 s.lcd.draws, typeFrom s.lcd.ddram (cursorAddr 3 s.cfg.clkCol) zeroTimeText, ?_, fun a => ?_⟩
  · rw [exec_clkReset hs hw, State.clockReset, zeroShown_of_entryInc hl hinc]
    rfl
  · rw [read_typeFrom_row hwf le_rfl (Nat.add_le_add_right hcol 7), cursorAddr_clockRow (by omega)]
    rfl

/-- Settles O37: CLK_START's two boundaries are all that comes after what CLK_RESET leaves. -/
theorem clockRestartResetsThenStarts : Obligations.ClockRestartResetsThenStarts := by
  intro s hs hl hw hinc
  refine ⟨_, exec_clkReset hs hw, ?_⟩
  rw [exec_clkRestart hs hw, State.timerSet, readyEager, State.clockReset, zeroShown_of_entryInc hl hinc,
    decide_ne_eager, List.append_assoc]
  rfl

/-! ## CLK_READ (R195) -/

/-- A displayed field of the counters. -/
def Clock.field (k : Clock) : ClockField → Nat
  | .ms => k.ms
  | .sec => k.sec
  | .min => k.min

/-- What CLK_READ has read of a field. -/
def Transients.field (t : Transients) : ClockField → Nat
  | .ms => t.readMs
  | .sec => t.readSec
  | .min => t.readMin

/-- The transients after one of CLK_READ's reads. -/
def Transients.readField (k : Clock) (t : Transients) : ClockField → Transients
  | .ms => { t with readMs := k.ms }
  | .sec => { t with readSec := k.sec }
  | .min => { t with readMin := k.min }

theorem field_readField (k : Clock) (t : Transients) (f g : ClockField) :
    (t.readField k f).field g = if g = f then k.field f else t.field g := by
  cases f <;> cases g <;> rfl

/-- A field that is read holds the counter, in whatever order the fields are read. -/
theorem field_readFields (k : Clock) (g : ClockField) (fs : List ClockField) (t : Transients) :
    (fs.foldl (Transients.readField k) t).field g = if g ∈ fs then k.field g else t.field g := by
  induction fs generalizing t with
  | nil => rfl
  | cons f fs ih =>
    rw [List.foldl_cons, ih, field_readField]
    by_cases hf : g = f
    · subst hf; simp
    · simp [hf]

/-- CLK_READ's reads, one micro-step each. -/
theorem go_readClock {c : Ctx} {n : Nat} {k : List Item} {s : State} (h : Running c s) (f : ClockField)
    (fs : List ClockField) (x : Transients) :
    go c (n + (fs.length + 1)) ((f :: fs).map (fun g => .prim (.readClock g)) ++ k) (s.setTr c x) =
      go c n k ((readyEager s).setTr c ((f :: fs).foldl (Transients.readField s.clk) x)) := by
  have hread : runPrim c (.readClock f) (readyEager (s.setTr c x)) =
      .next ((readyEager s).setTr c (x.readField s.clk f)) := by cases c <;> cases f <;> rfl
  rw [List.map_cons, List.cons_append, ← Nat.add_assoc, go_prim (h.setTr x), hread, thenDo_next]
  induction fs generalizing f s x with
  | nil => rfl
  | cons g fs ih =>
    have hready : Running c (readyEager s) := h.congr rfl rfl
    have hread : runPrim c (.readClock g) (readyEager ((readyEager s).setTr c (x.readField s.clk f))) =
        .next ((readyEager s).setTr c ((x.readField s.clk f).readField s.clk g)) := by
      rw [readyEager_setTr, readyEager_twice]
      cases c <;> cases g <;> rfl
    have hrest := ih hready g (x.readField s.clk f) (by rw [hread, readyEager_twice]; rfl)
    rw [List.map_cons, List.cons_append, List.length_cons, ← Nat.add_assoc, go_prim (hready.setTr _), hread, thenDo_next]
    rw [readyEager_twice] at hrest
    exact hrest

/-- The three fields read are the result. -/
theorem resultOf_readFields {k : Clock} {fs : List ClockField} (h : ∀ g, g ∈ fs) (t : Transients) :
    resultOf .time (fs.foldl (Transients.readField k) t) = .time k.min k.sec k.ms := by
  have hfield : ∀ g, (fs.foldl (Transients.readField k) t).field g = k.field g := fun g => by
    rw [field_readFields, if_pos (h g)]
  have hmin := hfield .min
  have hsec := hfield .sec
  have hms := hfield .ms
  simp only [Transients.field, Clock.field] at hmin hsec hms
  rw [resultOf, hmin, hsec, hms]

/-- R195: each of the three fields is in the order. -/
theorem mem_of_readsEachField {p : Params} (h : p.readsEachField = true) :
    p.clkReadOrder.length = 3 ∧ ∀ g, g ∈ p.clkReadOrder := by
  simp only [Params.readsEachField, Bool.and_eq_true, decide_eq_true_eq, List.all_eq_true] at h
  obtain ⟨hlen, hmem⟩ := h
  exact ⟨hlen, fun g => hmem g (by cases g <;> simp)⟩

/-- Settles O38: every field is among the reads, and their order plays no part. -/
theorem clockReadReturnsFields : Obligations.ClockReadReturnsFields := by
  intro s hs horder
  obtain ⟨hisr, hidle, -⟩ := (calm_iff s).mp hs
  obtain ⟨hlen, hmem⟩ := mem_of_readsEachField horder
  obtain ⟨f, fs, hfs⟩ := List.exists_cons_of_ne_nil (List.ne_nil_of_mem (hmem .ms))
  have hgo := go_readClock (n := 0) (k := [.ctl (.ret .time)]) (running_of_calm hs (Seq.begun .clkRead)) f fs Transients.none
  rw [hfs] at hmem
  rw [hfs, List.length_cons] at hlen
  rw [hlen, Nat.zero_add, go_goOn rfl, go_nil_fg (by simpa using hisr)] at hgo
  refine perform_of_go 3 (by decide) (resting_of_calm hs) ?_ (resting_of_calm (s := s) hs)
  rw [clkReadCode, hfs, State.done, ← resultOf_readFields hmem Transients.none]
  exact hgo.trans (congrArg Host.Outcome.next
    (finish_fg_of_idle (s := { readyEager s with results := s.results ++ [_] }) hidle _))

/-! ## EDGE_READ and EDGE_RESET (R201, R202) -/

theorem exec_edgeReset {s : State} (hs : s.calm = true) : exec .edgeReset s = .next { s.done .nothing with cnt := 0#4 } :=
  perform_of_leads 1 (by decide) hs (atRest_of_calm (s := s) hs) fun q =>
    ((runs_zeroCnt (running_of_calm hs q)).append (runs_retNone .fg _)).leads

/-- Settles O39: one micro-step on CNT each. -/
theorem edgeReadAndReset : Obligations.EdgeReadAndReset := by
  intro s hs
  obtain ⟨hisr, hidle, -⟩ := (calm_iff s).mp hs
  refine ⟨perform_of_go 1 (by decide) (resting_of_calm hs) ?_ (resting_of_calm (s := s) hs), exec_edgeReset hs⟩
  rw [go_prim (running_of_calm hs _), runPrim, thenDo_next, go_goOn rfl, go_nil_fg (by simpa using hisr)]
  exact congrArg Host.Outcome.next (finish_fg_of_idle (s := s.done (.count s.cnt)) hidle _)

end Sys2Proof.Machine
end

section
/-! PROOF. TIMER_ISR (45_background_agents.md R197 to R200): a firing with and without a render, and the clock tick law. -/

namespace Sys2Proof.Machine

/-! ## The tick (R198) -/

/-- A raw tick that carries into no displayed field. -/
theorem tick_of_raw_ne {k : Clock} (h : k.raw ≠ 10) : tick k = ({ k with raw := k.raw + 1 }, []) :=
  if_neg (by omega)

/-- A raw tick that carries, in range: each field carries when the one before it wraps. -/
theorem tick_of_carry {k : Clock} (h : k.raw = 10) (hr : k.inRange = true) :
    (tick k).1 =
      { raw := 0, ms := (k.ms + 1) % 10, sec := if k.ms = 9 then (k.sec + 1) % 60 else k.sec
        min := if k.ms = 9 ∧ k.sec = 59 then (k.min + 1) % 60 else k.min } := by
  obtain ⟨-, hms, hsec, hmin⟩ := (Clock.inRange_iff k).mp hr
  rw [tick, if_pos (by omega)]
  split_ifs <;> simp only [Clock.mk.injEq, true_and, and_true] <;> omega

/-- Which fields such a tick changes. -/
theorem mem_changed_of_carry {k : Clock} (h : k.raw = 10) (f : ClockField) :
    f ∈ (tick k).2 ↔ match f with | .ms => True | .sec => k.ms = 9 | .min => k.ms = 9 ∧ k.sec = 59 := by
  rw [tick, if_pos (by omega)]
  split
  · split
    · split <;> cases f <;> simp <;> omega
    · cases f <;> simp <;> omega
  · cases f <;> simp <;> omega

theorem changed_ne_nil_of_carry {k : Clock} (h : k.raw = 10) : (tick k).2 ≠ [] :=
  List.ne_nil_of_mem ((mem_changed_of_carry h .ms).mpr trivial)

/-! ## The render (R197) -/

/-- The module after the render of field f, if it has changed. -/
def Lcd.field (l : Lcd) (p : Params) (changed : List ClockField) (f : ClockField) (column : Nat) (codes : List Byte) : Lcd :=
  if f ∈ changed then l.printed 3 (p.clkCol + column) codes else l

/-- The module after the render of all that has changed, left to right. -/
def Lcd.rendered (l : Lcd) (p : Params) (changed : List ClockField) (minText secText msText : List Byte) : Lcd :=
  ((l.field p changed .min 0 minText).field p changed .sec 3 secText).field p changed .ms 6 msText

section Render
variable {c : Ctx} {s : State} {p : Params} {changed : List ClockField}

theorem runs_field (h : Running c s) (hw : s.lcdAnswers = true) (f : ClockField) (column : Nat) {codes : List Byte}
    (hlen : codes.length ≤ 2) (l : Lcd) :
    Runs c 12 (if f ∈ changed then fieldCode p column codes else []) { s with lcd := l }
      { s with lcd := l.field p changed f column codes } := by
  rw [Lcd.field]
  split
  · exact (runs_printed h hw 3 _ codes l).mono (by omega)
  · exact (Runs.nil c _).mono (Nat.zero_le 12)

theorem startsPrim_render (minText secText msText : List Byte) :
    startsPrim (renderCode p changed minText secText msText) = true := by
  rw [renderCode]
  split <;> rfl

/-- The guarded render of one field or more. -/
theorem leads_render {minText secText msText : List Byte} (h : Running c s) (hw : s.lcdAnswers = true)
    (hne : changed ≠ []) (hmin : minText.length ≤ 2) (hsec : secText.length ≤ 2) (hms : msText.length ≤ 2) :
    Leads c 44 (renderCode p changed minText secText msText) s
      { s with lcd := s.lcd.guarded s.env.lcd (s.lcd.polled.rendered p changed minText secText msText) } := by
  rw [renderCode, if_neg hne]
  exact leads_guarded h hw
    (((runs_field h hw .min 0 hmin _).append (runs_field h hw .sec 3 hsec _)).append (runs_field h hw .ms 6 hms _))

end Render

theorem length_digitPair (n draw : Nat) : (digitPair n draw).length = 2 := by
  rw [digitPair]
  split <;> rfl

theorem length_digitSingle (n draw : Nat) : (digitSingle n draw).length = 1 := by
  rw [digitSingle]
  split <;> rfl

/-! ## A firing (R197, R227, R230) -/

/-- TIMER_ISR has ticked and is about to render what has changed. -/
def State.ticked (s : State) : State :=
  { readyEager (enterHandler .tisr s) with
    clk := (tick s.clk).1, irq := { enterIrq .tisr s.irq with tmrRun := false } }

/-- What a firing of TIMER_ISR leaves, the module and the free values drawn as given. -/
def State.timerFired (s : State) (l : Lcd) (draws : Nat) : State :=
  { readyEager s with
    clk := (tick s.clk).1, irq := { s.irq with tmrRun := true, tmrPend := false }, lcd := l, tisr := Seq.idle, draws := draws }

theorem running_ticked {s : State} (hs : s.undisturbed = true) : Running .tisr s.ticked := by
  obtain ⟨-, -, hscript⟩ := (undisturbed_iff s).mp hs
  exact ⟨hscript, rfl⟩

/-- The tick, and the render that the fields it changed call for. -/
theorem leads_tickRender {c : Ctx} {cost : Nat} {s u : State} (h : Running c s)
    (hr : Leads c cost (clockRender (tick s.clk).2 { readyEager s with clk := (tick s.clk).1 })
      { readyEager s with
        clk := (tick s.clk).1
        draws := clockDraws (tick s.clk).2 { readyEager s with clk := (tick s.clk).1 } } u) :
    Leads c (cost + 1) [.prim .clockTick, .ctl .renderClock] s u := by
  intro n k x
  obtain ⟨m, y, hm, hgo⟩ := hr n k { x with changed := (tick s.clk).2 }
  have htick : runPrim c .clockTick (readyEager (s.setTr c x)) =
      .next (State.setTr { readyEager s with clk := (tick s.clk).1 } c { x with changed := (tick s.clk).2 }) := by
    cases c <;> rfl
  refine ⟨m, y, hm, Eq.trans ?_ hgo⟩
  rw [← Nat.add_assoc, List.cons_append, go_prim (h.setTr x), htick, thenDo_next]
  refine go_insert ?_ (startsPrim_render _ _ _)
  cases c <;> rfl

/-- A firing, given what its render does. -/
theorem exec_timerIsr_of_render {cost draws : Nat} {l : Lcd} {s : State} (hcost : cost ≤ 100) (hs : s.undisturbed = true)
    (hr : Leads .tisr cost (clockRender (tick s.clk).2 s.ticked)
      { s.ticked with draws := clockDraws (tick s.clk).2 s.ticked } { s.ticked with lcd := l, draws := draws }) :
    exec .timerIsr s = .next (s.timerFired (readyAtBoundary s.env.lcd l) draws) := by
  obtain ⟨hisr, -, hscript⟩ := (undisturbed_iff s).mp hs
  have hentry : Running .tisr (enterHandler .tisr s) := running_enterHandler (h := .tisr) hscript
  have hstop := (runs_setTmrRun hentry false).append (runs_reload (hentry.setTmrRun false) s.cfg.tmrReload)
  have hready : readyEager { readyEager (enterHandler .tisr s) with irq := { (enterHandler .tisr s).irq with tmrRun := false } } =
      { readyEager (enterHandler .tisr s) with irq := { (enterHandler .tisr s).irq with tmrRun := false } } := by
    simp only [readyEager, readyAtBoundary_twice]
  rw [hready] at hstop
  have htick := leads_tickRender (hentry.setTmrRun false) (by rw [hready]; exact hr)
  have hrun : Running .tisr { s.ticked with lcd := l, draws := draws } := (running_ticked hs).congr rfl rfl
  have hall := (hstop.leads.append htick).append (runs_setTmrRun hrun true).leads
  refine (fireHandler_of_leads (h := .tisr) _ (by rw [Config.quantum]; omega) hs hall rfl).trans
    (congrArg Host.Outcome.next ?_)
  rw [State.timerFired, ← Irq.with_noHandler hisr]
  rfl

/-- A firing that changes no field. -/
theorem exec_timerIsr_of_unchanged {s : State} (hs : s.undisturbed = true) (hraw : s.clk.raw ≠ 10) :
    exec .timerIsr s = .next (s.timerFired (readyAtBoundary s.env.lcd s.lcd) s.draws) := by
  have hnone : (tick s.clk).2 = [] := by rw [tick_of_raw_ne hraw]
  rw [← readyAtBoundary_twice]
  refine exec_timerIsr_of_render (Nat.zero_le _) hs ?_
  rw [hnone]
  exact (Runs.nil .tisr _).leads

/-- The module after a firing that changes fields. -/
def State.clockShown (s : State) : Lcd :=
  s.lcd.guarded s.env.lcd (s.lcd.polled.rendered s.cfg (tick s.clk).2 (digitPair (tick s.clk).1.min s.draws)
    (digitPair (tick s.clk).1.sec (s.draws + 2)) (digitSingle (tick s.clk).1.ms (s.draws + 4)))

/-- A firing that changes fields. -/
theorem exec_timerIsr_of_changed {s : State} (hs : s.undisturbed = true) (hw : s.lcdAnswers = true)
    (hraw : s.clk.raw = 10) :
    exec .timerIsr s = .next (s.timerFired s.clockShown (clockDraws (tick s.clk).2 s.ticked)) := by
  have hrun : Running .tisr { s.ticked with draws := clockDraws (tick s.clk).2 s.ticked } := (running_ticked hs).congr rfl rfl
  have hshown : readyAtBoundary s.env.lcd s.clockShown = s.clockShown := by
    simp [readyAtBoundary, State.clockShown, Lcd.guarded]
  rw [← hshown]
  exact exec_timerIsr_of_render (cost := 44) (by decide) hs (leads_render hrun hw (changed_ne_nil_of_carry hraw)
    (by rw [length_digitPair]) (by rw [length_digitPair]) (by rw [length_digitSingle]; decide))

/-- Settles O40: the tick changes no field, so nothing is rendered. -/
theorem timerTickWithoutRender : Obligations.TimerTickWithoutRender := by
  intro s hs hraw
  rw [exec_timerIsr_of_unchanged hs hraw, State.timerFired, tick_of_raw_ne hraw]
  rfl

/-! ## The cells a render writes (R95, R197) -/

/-- m is l but for the cells, which are d, and for what the guard puts back or leaves: LCD_MODE, BF, AC and RAMSEL. -/
def Lcd.Wrote (l : Lcd) (d : Memory) (m : Lcd) : Prop :=
  m = { l with mode := m.mode, bf := m.bf, ac := m.ac, ramsel := m.ramsel, ddram := d }

theorem Lcd.Wrote.refl (l : Lcd) : l.Wrote l.ddram l := rfl

theorem Lcd.Wrote.trans {l m n : Lcd} {d e : Memory} (h : l.Wrote d m) (hn : m.Wrote e n) : l.Wrote e n := by
  rw [Lcd.Wrote] at hn ⊢
  rw [hn, h]

theorem Lcd.Wrote.ddram_eq {l m : Lcd} {d : Memory} (h : l.Wrote d m) : m.ddram = d := by rw [h]

theorem Lcd.Wrote.entryInc_eq {l m : Lcd} {d : Memory} (h : l.Wrote d m) : m.entryInc = l.entryInc := by rw [h]

/-- What is left of a guarded body. -/
theorem Lcd.Wrote.guarded {l m : Lcd} {d : Memory} (h : l.polled.Wrote d m) (k : LcdSched) :
    l.guarded k m = { l with ramsel := .dd, bf := !(k == .eager), ddram := d } := by
  rw [Lcd.guarded, h]
  rfl

theorem printed_wrote {l : Lcd} {row column : Nat} {text : List Byte} (hinc : l.entryInc = true)
    (hok : cursorOk row column = true) (hne : text ≠ []) :
    l.Wrote (typeFrom l.ddram (cursorAddr row column) text) (l.printed row column text) := by
  rw [printed_of_entryInc hinc hok hne]
  rfl

/-- The cells after the render of field f, if it has changed. -/
def fieldCells (d : Memory) (p : Params) (changed : List ClockField) (f : ClockField) (column : Nat) (codes : List Byte) :
    Memory :=
  if f ∈ changed then typeFrom d (cursorAddr 3 (p.clkCol + column)) codes else d

/-- The cells after the render of all that has changed. -/
def renderedCells (d : Memory) (p : Params) (changed : List ClockField) (minText secText msText : List Byte) : Memory :=
  fieldCells (fieldCells (fieldCells d p changed .min 0 minText) p changed .sec 3 secText) p changed .ms 6 msText

theorem fieldCells_wf {d : Memory} (h : Memory.wf Config.blank d = true) (p : Params) (changed : List ClockField)
    (f : ClockField) (column : Nat) (codes : List Byte) :
    Memory.wf Config.blank (fieldCells d p changed f column codes) = true := by
  rw [fieldCells]
  split
  · exact typeFrom_wf h _ _
  · exact h

section Cells
variable {p : Params} {changed : List ClockField} {f : ClockField} {column : Nat} {codes : List Byte} (hp : p.clkCol ≤ 9)
include hp

theorem field_wrote {l : Lcd} (hinc : l.entryInc = true) (hcol : column ≤ 6) (hne : codes ≠ []) :
    l.Wrote (fieldCells l.ddram p changed f column codes) (l.field p changed f column codes) := by
  rw [fieldCells, Lcd.field]
  split
  · exact printed_wrote hinc (cursorOk_of_le le_rfl (by omega)) hne
  · exact Lcd.Wrote.refl l

theorem rendered_wrote {l : Lcd} {minText secText msText : List Byte} (hinc : l.entryInc = true) (hmin : minText ≠ [])
    (hsec : secText ≠ []) (hms : msText ≠ []) :
    l.Wrote (renderedCells l.ddram p changed minText secText msText) (l.rendered p changed minText secText msText) := by
  have hfirst := field_wrote (changed := changed) (f := .min) hp hinc (column := 0) (by decide) hmin
  have hsecond := field_wrote (changed := changed) (f := .sec) hp (hfirst.entryInc_eq.trans hinc) (column := 3) (by decide) hsec
  rw [hfirst.ddram_eq] at hsecond
  have hboth := hfirst.trans hsecond
  have hthird := field_wrote (changed := changed) (f := .ms) hp (hboth.entryInc_eq.trans hinc) (column := 6) (by decide) hms
  rw [hboth.ddram_eq] at hthird
  exact hboth.trans hthird

variable {d : Memory} (hwf : Memory.wf Config.blank d = true)
include hwf

theorem read_fieldCells (hfit : column + codes.length ≤ 7) (hcol : column ≤ 6) (a : Nat) :
    Memory.read Config.blank (fieldCells d p changed f column codes) a =
      if f ∈ changed ∧ 0x50 + p.clkCol + column ≤ a ∧ a < 0x50 + p.clkCol + column + codes.length
      then codes.getD (a - (0x50 + p.clkCol + column)) 0#8 else Memory.read Config.blank d a := by
  rw [fieldCells]
  split
  · next hf =>
    rw [read_typeFrom_row hwf le_rfl (by omega), cursorAddr_clockRow (by omega), ← Nat.add_assoc]
    simp only [hf, true_and]
  · next hf => exact (if_neg fun h => hf h.1).symm

/-- The seven cells hold the digits of the fields that have changed. -/
theorem read_renderedCells (m₁ m₀ s₁ s₀ k : Byte) (a : Nat) :
    Memory.read Config.blank (renderedCells d p changed [m₁, m₀] [s₁, s₀] [k]) a =
      if .ms ∈ changed ∧ a = 0x50 + p.clkCol + 6 then k
      else if .sec ∈ changed ∧ a = 0x50 + p.clkCol + 3 then s₁
      else if .sec ∈ changed ∧ a = 0x50 + p.clkCol + 4 then s₀
      else if .min ∈ changed ∧ a = 0x50 + p.clkCol then m₁
      else if .min ∈ changed ∧ a = 0x50 + p.clkCol + 1 then m₀
      else Memory.read Config.blank d a := by
  rw [renderedCells, read_fieldCells hp (fieldCells_wf (fieldCells_wf hwf _ _ _ _ _) _ _ _ _ _) (by simp) (by simp),
    read_fieldCells hp (fieldCells_wf hwf _ _ _ _ _) (by simp) (by simp), read_fieldCells hp hwf (by simp) (by simp)]
  generalize 0x50 + p.clkCol = b
  by_cases hin : b ≤ a ∧ a < b + 7
  · obtain ⟨j, rfl⟩ := Nat.exists_eq_add_of_le hin.1
    have hj : j < 7 := by omega
    interval_cases j <;> simp [Nat.add_assoc]
  · simp only [List.length_cons, List.length_nil]
    repeat rw [if_neg (by omega)]

end Cells

/-- In range a field's digits are its decimal ones (R95). -/
theorem digitPair_of_le {n : Nat} (h : n ≤ 99) (draw : Nat) : digitPair n draw = [digitCode (n / 10), digitCode (n % 10)] :=
  if_pos h

theorem digitSingle_of_le {n : Nat} (h : n ≤ 9) (draw : Nat) : digitSingle n draw = [digitCode n] :=
  if_pos h

/-- The cells after a firing that changes fields, in range. -/
def State.clockCells (s : State) : Memory :=
  renderedCells s.lcd.ddram s.cfg (tick s.clk).2
    [digitCode ((tick s.clk).1.min / 10), digitCode ((tick s.clk).1.min % 10)]
    [digitCode ((tick s.clk).1.sec / 10), digitCode ((tick s.clk).1.sec % 10)] [digitCode (tick s.clk).1.ms]

/-- In range no digit is free, so nothing is drawn (U20). -/
theorem clockDraws_of_inRange {s : State} (hr : s.clk.inRange = true) : clockDraws (tick s.clk).2 s.ticked = s.draws := by
  obtain ⟨-, hms, hsec, hmin⟩ := (Clock.inRange_iff _).mp (tick_inRange hr)
  refine if_pos (.inr ?_)
  simp only [clockShowable, Bool.and_eq_true, decide_eq_true_eq]
  exact ⟨⟨hmin.trans (by decide), hsec.trans (by decide)⟩, hms⟩

theorem clockShown_of_inRange {s : State} (hl : s.cfg.legal = true) (hinc : s.lcd.entryInc = true)
    (hr : s.clk.inRange = true) :
    s.clockShown = { s.lcd with ramsel := .dd, bf := !(s.env.lcd == .eager), ddram := s.clockCells } := by
  obtain ⟨-, hms, hsec, hmin⟩ := (Clock.inRange_iff _).mp (tick_inRange hr)
  rw [State.clockShown, digitPair_of_le (hmin.trans (by decide)), digitPair_of_le (hsec.trans (by decide)),
    digitSingle_of_le hms]
  exact (rendered_wrote (l := s.lcd.polled) (clockFits_of_legal hl) hinc (List.cons_ne_nil _ _) (List.cons_ne_nil _ _)
    (List.cons_ne_nil _ _)).guarded _

/-- Settles O41: the guard leaves the cells and RAMSEL, and the cells are the changed fields' digits. -/
theorem timerTickRendersChangedFields : Obligations.TimerTickRendersChangedFields := by
  intro s hs hl hw hinc hwf hr hraw
  have htick := tick_of_carry hraw hr
  refine ⟨(tick s.clk).1.ms, (tick s.clk).1.sec, (tick s.clk).1.min, s.clockCells, by rw [htick], by rw [htick],
    by rw [htick], ?_, fun a => (read_renderedCells (clockFits_of_legal hl) hwf _ _ _ _ _ a).trans ?_⟩
  · rw [exec_timerIsr_of_changed hs hw hraw, clockDraws_of_inRange hr, clockShown_of_inRange hl hinc hr, decide_ne_eager,
      State.timerFired, htick]
    rfl
  · simp only [mem_changed_of_carry hraw, true_and, and_assoc]
    rfl

/-! ## The clock tick law (R200) -/

/-- Executions of one operation, one after another, keep what each of them hands on to the next. -/
theorem execTimes_induction {i : Instr} {P : Nat → State → Prop} {s : State} (h0 : P 0 s)
    (hstep : ∀ k t, P k t → ∃ u, exec i t = .next u ∧ P (k + 1) u) (k : Nat) :
    ∃ u, execTimes i k s = .next u ∧ P k u := by
  induction k with
  | zero => exact ⟨s, rfl, h0⟩
  | succ k ih =>
    obtain ⟨t, ht, hP⟩ := ih
    obtain ⟨u, hu, hPu⟩ := hstep k t hP
    exact ⟨u, by rw [execTimes, ht, thenDo_next, hu], hPu⟩

/-- The counters after k ticks from 0. -/
def clockAt (k : Nat) : Clock := { raw := k % 11, ms := k / 11 % 10, sec := k / 110 % 60, min := k / 6600 % 60 }

theorem clockAt_inRange (k : Nat) : (clockAt k).inRange = true := by
  rw [Clock.inRange_iff]
  simp only [clockAt]
  omega

/-- The closed form ticks as the counters do. -/
theorem tick_clockAt (k : Nat) : (tick (clockAt k)).1 = clockAt (k + 1) := by
  by_cases h : k % 11 = 10
  · refine (tick_of_carry h (clockAt_inRange k)).trans ?_
    rw [clockAt, clockAt, Clock.mk.injEq]
    refine ⟨by omega, by dsimp only; omega, ?_, ?_⟩
    · split <;> dsimp only at * <;> omega
    · split <;> dsimp only at * <;> omega
  · rw [tick_of_raw_ne h]
    simp only [clockAt, Clock.mk.injEq]
    omega

/-- Every firing of TIMER_ISR ticks the counters, and leaves the machine where it can be fired again. -/
theorem exec_timerIsr_ticks {s : State} (hs : s.undisturbed = true) (hw : s.lcdAnswers = true) :
    ∃ u, exec .timerIsr s = .next u ∧ u.clk = (tick s.clk).1 ∧ u.undisturbed = true ∧ u.lcdAnswers = true := by
  by_cases hraw : s.clk.raw = 10
  · exact ⟨_, exec_timerIsr_of_changed hs hw hraw, rfl, hs, hw⟩
  · exact ⟨_, exec_timerIsr_of_unchanged hs hraw, rfl, hs, hw⟩

/-- Settles O42: CLK_RESET leaves the counters at 0, and the closed form follows each tick. -/
theorem clockTickLaw : Obligations.ClockTickLaw := by
  intro s hs _ hw _
  refine ⟨_, exec_clkReset hs hw, fun k => ?_⟩
  have hstart : State.undisturbed { s.clockReset with results := s.results ++ [.nothing] } = true :=
    undisturbed_of_calm (s := s) hs
  obtain ⟨u, hu, hclk, -⟩ := execTimes_induction
    (P := fun k t => t.clk = clockAt k ∧ t.undisturbed = true ∧ t.lcdAnswers = true) ⟨rfl, hstart, hw⟩
    (fun j t ⟨hclk, ht, htw⟩ => by
      obtain ⟨u, hu, huclk, hrest⟩ := exec_timerIsr_ticks ht htw
      exact ⟨u, hu, by rw [huclk, hclk, tick_clockAt], hrest⟩) k
  exact ⟨u, hu, hclk⟩

end Sys2Proof.Machine
end

section
/-! PROOF. EDGE_ISR (45_background_agents.md R203, R204): one firing, and the counter wrap law. -/

namespace Sys2Proof.Machine

/-! ## The expander's exchanges, whether it answers or not (R141, R142) -/

/-- The bus after an exchange with the expander that leaves its port alone. -/
def Bus.exchanged (b : Bus) (p : Params) : Bus := { b with sclOut := true, sdaOut := true, ack := !p.ioxPresent }

/-- The bus after IOX_CFG, which nobody hears where the expander is absent. -/
def Bus.configured (b : Bus) (p : Params) (mask : Byte) : Bus :=
  { b.exchanged p with iox := { b.iox with port := if p.ioxPresent then mask else b.iox.port } }

section Present
variable {p : Params} (b : Bus)

theorem exchanged_of_present (h : p.ioxPresent = true) : b.exchanged p = b.ioxClosed b.iox.port := by
  rw [Bus.exchanged, h]
  rfl

theorem exchanged_of_absent (h : p.ioxPresent = false) :
    b.exchanged p = { b with sclOut := true, sdaOut := true, ack := true } := by
  rw [Bus.exchanged, h]
  rfl

theorem configured_of_present (h : p.ioxPresent = true) (mask : Byte) : b.configured p mask = b.ioxClosed mask := by
  rw [Bus.configured, Bus.exchanged, h]
  rfl

theorem configured_of_absent (h : p.ioxPresent = false) (mask : Byte) : b.configured p mask = b.exchanged p := by
  rw [Bus.configured, Bus.exchanged, h]
  rfl

end Present

/-- What a piece on the wires leaves is told apart from the transients. -/
theorem onBusTr_setTr (s : State) (c : Ctx) (b : Bus) (x t : Transients) :
    (s.setTr c x).onBusTr c b t = State.setTr { readyEager s with bus := b } c t := by
  cases c <;> rfl

theorem onBusTr_setTr_draws (s : State) (c : Ctx) (b : Bus) (d : Nat) (x t : Transients) :
    State.onBusTr { s.setTr c x with draws := d } c b t =
      State.setTr { readyEager s with draws := d, bus := b } c t := by
  cases c <;> rfl

section Exchange
variable {c : Ctx} {s : State} (h : Running c s) (hf : s.busFree = true) (hl : s.cfg.legal = true)
  (ho : s.cfg.busOpenDrain = true)
include h hf hl ho

theorem leads_ioxCfg (mask : Byte) :
    Leads c 63 (ioxCfgCode s.cfg mask) s { readyEager s with bus := s.bus.configured s.cfg mask } := by
  intro n k x
  have hrun := h.setTr x
  have hfree : (s.setTr c x).busFree = true := by cases c <;> exact hf
  cases hp : s.cfg.ioxPresent with
  | true =>
    have hgo := go_ioxCfg (n := n) (k := k) (mask := mask) hrun hfree (by simpa using hl) (by simpa using ho) (by simpa using hp)
    rw [onBusTr_setTr, State.setTr_cfg, State.setTr_bus] at hgo
    rw [configured_of_present _ hp]
    exact ⟨n, _, le_rfl, hgo⟩
  | false =>
    have hgo := go_ioxCfg_unanswered (n := n + 28) (k := k) (mask := mask) hrun hfree (by simpa using hl) (by simpa using hp)
    rw [onBusTr_setTr, State.setTr_cfg, State.setTr_bus] at hgo
    rw [configured_of_absent _ hp, exchanged_of_absent _ hp]
    exact ⟨n + 28, _, Nat.le_add_right n 28, hgo⟩

/-- IOX_READ: where the expander answers, d is its port. -/
theorem go_ioxRead_exchanged (n : Nat) (k : List Item) (x : Transients) :
    ∃ (m : Nat) (y : Transients), n ≤ m ∧ (s.cfg.ioxPresent = true → y.d = s.bus.iox.port) ∧
      go c (n + 62) (ioxReadCode s.cfg ++ k) (s.setTr c x) =
        go c m k (State.setTr { readyEager s with draws := s.draws + 1, bus := s.bus.exchanged s.cfg } c y) := by
  have hrun := h.setTr x
  have hfree : (s.setTr c x).busFree = true := by cases c <;> exact hf
  cases hp : s.cfg.ioxPresent with
  | true =>
    have hgo := go_ioxRead (n := n) (k := k) hrun hfree (by simpa using hl) (by simpa using ho) (by simpa using hp)
    rw [onBusTr_setTr_draws, State.setTr_cfg, State.setTr_bus, State.setTr_draws] at hgo
    rw [exchanged_of_present _ hp]
    exact ⟨n, _, le_rfl, fun _ => rfl, hgo⟩
  | false =>
    have hgo := go_ioxRead_unanswered (n := n + 24) (k := k) hrun hfree (by simpa using hl) (by simpa using hp)
    rw [onBusTr_setTr_draws, State.setTr_cfg, State.setTr_bus, State.setTr_draws] at hgo
    rw [exchanged_of_absent _ hp]
    exact ⟨n + 24, _, Nat.le_add_right n 24, fun hn => Bool.noConfusion hn, hgo⟩

/-- The count merged into the low nibble of what is read (R203): what is merged where nothing is read nobody hears. -/
theorem leads_merge :
    Leads c 125 (ioxReadCode s.cfg ++ [.ctl .mergeConfigure]) s
      { readyEager s with
        draws := s.draws + 1, bus := s.bus.configured s.cfg (mergeNibble s.bus.iox.port s.cnt) } := by
  intro n k x
  obtain ⟨m, y, hm, hd, hread⟩ := go_ioxRead_exchanged h hf hl ho (n + 63) (.ctl .mergeConfigure :: k) x
  obtain ⟨m', y', hm', hcfg⟩ :=
    leads_ioxCfg (s := { readyEager s with draws := s.draws + 1, bus := s.bus.exchanged s.cfg }) (h.congr rfl rfl) hf hl ho
      (mergeNibble y.d s.cnt) (m - 63) k y
  have hinsert : runCtl c .mergeConfigure
        (State.setTr { readyEager s with draws := s.draws + 1, bus := s.bus.exchanged s.cfg } c y) =
      .insert (ioxCfgCode s.cfg (mergeNibble y.d s.cnt))
        (State.setTr { readyEager s with draws := s.draws + 1, bus := s.bus.exchanged s.cfg } c y) := by
    cases c <;> rfl
  have hbus : (s.bus.exchanged s.cfg).configured s.cfg (mergeNibble y.d s.cnt) =
      s.bus.configured s.cfg (mergeNibble s.bus.iox.port s.cnt) := by
    cases hp : s.cfg.ioxPresent with
    | true => rw [hd hp]; rfl
    | false => simp only [Bus.configured, Bus.exchanged, hp, Bool.false_eq_true, if_false]
  have hend : ({ readyEager { readyEager s with draws := s.draws + 1, bus := s.bus.exchanged s.cfg } with
        bus := (s.bus.exchanged s.cfg).configured s.cfg (mergeNibble y.d s.cnt) } : State) =
      { readyEager s with
        draws := s.draws + 1, bus := s.bus.configured s.cfg (mergeNibble s.bus.iox.port s.cnt) } := by
    simp only [hbus, readyEager, readyAtBoundary_twice]
  rw [Nat.sub_add_cancel (by omega)] at hcfg
  refine ⟨m', y', by omega, ?_⟩
  rw [← hend, List.append_assoc]
  exact hread.trans ((go_insert hinsert rfl).trans hcfg)

end Exchange

/-! ## The count shown (R203) -/

/-- The module after EDGE_ISR has shown the count c. -/
def Lcd.edgeShown (l : Lcd) (p : Params) (k : LcdSched) (c : BitVec 4) : Lcd :=
  if p.edgeRenderGuarded then
    l.guarded k (l.polled.printed p.edgeRow.toNat p.edgeCol.toNat (edgeText p c))
  else l.printed p.edgeRow.toNat p.edgeCol.toNat (edgeText p c)

theorem startsPrim_goto_putcs (row column : Nat) (text : List Byte) :
    startsPrim (gotoCode row column ++ putcsCode text) = true := by
  rw [gotoCode]
  split
  · rfl
  · cases text <;> rfl

theorem startsPrim_edgeRender (p : Params) (c : BitVec 4) : startsPrim (edgeRenderCode p c) = true := by
  simp only [edgeRenderCode]
  split
  · rfl
  · exact startsPrim_goto_putcs _ _ _

theorem leads_edgeRender {c : Ctx} {s : State} (h : Running c s) (hw : s.lcdAnswers = true) :
    Leads c (4 + 4 * (edgeText s.cfg s.cnt).length + 8) [.ctl .renderEdge] s
      { s with lcd := s.lcd.edgeShown s.cfg s.env.lcd s.cnt } := by
  refine Leads.of_insert (t := s) (fun x => ?_) (startsPrim_edgeRender s.cfg s.cnt) ?_
  · cases c <;> rfl
  · have hprint := runs_printed h hw s.cfg.edgeRow.toNat s.cfg.edgeCol.toNat (edgeText s.cfg s.cnt)
    simp only [edgeRenderCode, Lcd.edgeShown]
    split
    · exact leads_guarded h hw (hprint _)
    · exact ((hprint s.lcd).mono (Nat.le_add_right _ 8)).leads

/-! ## A firing (R203, R227, R230) -/

/-- What a firing of EDGE_ISR leaves. -/
def State.edgeFired (s : State) : State :=
  { readyEager s with
    cnt := s.cnt + 1#4
    bus := s.bus.configured s.cfg (mergeNibble s.bus.iox.port (s.cnt + 1#4))
    irq := { s.irq with edgePend := false }
    lcd := (readyAtBoundary s.env.lcd s.lcd).edgeShown s.cfg s.env.lcd (s.cnt + 1#4)
    eisr := Seq.idle
    draws := s.draws + 1 }

/-- A count's text of at most 64 characters is shown within one step. -/
theorem exec_edgeIsr {s : State} (hs : s.undisturbed = true) (hf : s.busFree = true) (hl : s.cfg.legal = true)
    (ho : s.cfg.busOpenDrain = true) (hw : s.lcdAnswers = true) (hlen : (edgeText s.cfg (s.cnt + 1#4)).length ≤ 64) :
    exec .edgeIsr s = .next s.edgeFired := by
  obtain ⟨hisr, -, hscript⟩ := (undisturbed_iff s).mp hs
  have hentry : Running .eisr (enterHandler .eisr s) := running_enterHandler (h := .eisr) hscript
  have hcount := (runs_incCnt hentry).leads
  have hmerge := leads_merge (s := { readyEager (enterHandler .eisr s) with cnt := s.cnt + 1#4 })
    (hentry.congr rfl rfl) hf hl ho
  have hready : readyEager { readyEager (enterHandler .eisr s) with cnt := s.cnt + 1#4 } =
      { readyEager (enterHandler .eisr s) with cnt := s.cnt + 1#4 } := by
    simp only [readyEager, readyAtBoundary_twice]
  rw [hready] at hmerge
  have hshow := leads_edgeRender (s := { readyEager (enterHandler .eisr s) with
      cnt := s.cnt + 1#4, draws := s.draws + 1, bus := s.bus.configured s.cfg (mergeNibble s.bus.iox.port (s.cnt + 1#4)) })
    (hentry.congr rfl rfl) hw
  have hall := (hcount.append hmerge).append hshow
  rw [← List.append_assoc, List.append_assoc] at hall
  have hbudget : 1 + 125 + (4 + 4 * (edgeText s.cfg (s.cnt + 1#4)).length + 8) ≤ Config.quantum := by
    rw [Config.quantum]
    omega
  refine (fireHandler_of_leads (h := .eisr) _ hbudget hs hall rfl).trans
    (congrArg Host.Outcome.next ?_)
  rw [State.edgeFired, ← Irq.with_noHandler hisr]
  rfl

/-- R203: every count has a text of one code or more. -/
theorem edgeText_ne_nil {p : Params} (hl : p.legal = true) (c : BitVec 4) : edgeText p c ≠ [] := by
  simp only [Params.legal, Params.edgeTextTotal, Bool.and_eq_true, decide_eq_true_eq, List.all_eq_true] at hl
  obtain ⟨⟨-, hlen, hne⟩, -⟩ := hl
  have hc : c.toNat < p.edgeFmt.length := hlen ▸ c.isLt
  rw [edgeText, List.getD_eq_getElem _ _ hc]
  exact hne _ (List.getElem_mem hc)

/-- What the module shows of a count whose cell is in range: the guard puts back LCD_MODE and AC. -/
theorem edgeShown_of_entryInc {l : Lcd} {p : Params} {c : BitVec 4} (k : LcdSched) (hinc : l.entryInc = true)
    (hok : cursorOk p.edgeRow.toNat p.edgeCol.toNat = true) (hne : edgeText p c ≠ []) :
    l.edgeShown p k c = { l with
      ddram := typeFrom l.ddram (cursorAddr p.edgeRow.toNat p.edgeCol.toNat) (edgeText p c), ramsel := .dd
      mode := if p.edgeRenderGuarded then l.mode else 0b10#2
      ac := if p.edgeRenderGuarded then l.ac
        else cursorAddr p.edgeRow.toNat p.edgeCol.toNat + BitVec.ofNat 7 (edgeText p c).length
      bf := if p.edgeRenderGuarded then !(k == .eager) else true } := by
  cases hg : p.edgeRenderGuarded with
  | true =>
    rw [Lcd.edgeShown, hg, if_pos rfl, (printed_wrote (l := l.polled) hinc hok hne).guarded]
    rfl
  | false =>
    rw [Lcd.edgeShown, hg, if_neg Bool.false_ne_true, printed_of_entryInc hinc hok hne]
    rfl

/-- Settles O43: the count is merged by IOX_READ and IOX_CFG, then its text stands from its cell on. -/
theorem edgeFiringCountsAndRenders : Obligations.EdgeFiringCountsAndRenders := by
  intro s hs hf hl ho hw hinc hwf hrow hfit
  have hne := edgeText_ne_nil hl (s.cnt + 1#4)
  have hpos := List.length_pos_of_ne_nil hne
  have hcol : s.cfg.edgeCol.toNat ≤ 15 := by omega
  refine ⟨typeFrom s.lcd.ddram (cursorAddr s.cfg.edgeRow.toNat s.cfg.edgeCol.toNat) (edgeText s.cfg (s.cnt + 1#4)), ?_,
    read_typeFrom_row hwf hrow hfit⟩
  rw [exec_edgeIsr hs hf hl ho hw (by omega), State.edgeFired,
    edgeShown_of_entryInc (l := readyAtBoundary s.env.lcd s.lcd) _ hinc (cursorOk_of_le hrow hcol) hne, decide_ne_eager]
  rfl

/-! ## The counter wrap law (R204) -/

/-- The high nibble is kept. -/
theorem mergeNibble_high (v : Byte) (c : BitVec 4) : mergeNibble v c &&& 0xF0#8 = v &&& 0xF0#8 := by
  have hlow : ∀ c : BitVec 4, c.setWidth 8 &&& 0xF0#8 = 0#8 := by decide
  rw [mergeNibble, BitVec.and_or_distrib_right, hlow, BitVec.or_zero, BitVec.and_assoc, BitVec.and_self]

/-- Only the high nibble of the byte merged into shows. -/
theorem mergeNibble_congr {v w : Byte} (h : v &&& 0xF0#8 = w &&& 0xF0#8) (c : BitVec 4) :
    mergeNibble v c = mergeNibble w c := by
  rw [mergeNibble, mergeNibble, h]

/-- The machine t after k firings of EDGE_ISR from s with the count at 0: what the next firing needs, and the law itself. -/
structure EdgeFirings (s : State) (k : Nat) (t : State) : Prop where
  undisturbed : t.undisturbed = true
  busFree : t.busFree = true
  answers : t.lcdAnswers = true
  cfg : t.cfg = s.cfg
  cnt : t.cnt = BitVec.ofNat 4 k
  high : t.bus.iox.port &&& 0xF0#8 = s.bus.iox.port &&& 0xF0#8
  merged : 1 ≤ k → t.bus.iox.port = mergeNibble s.bus.iox.port (BitVec.ofNat 4 k)

/-- One more firing. -/
theorem EdgeFirings.fire {s t : State} {k : Nat} (h : EdgeFirings s k t) (hl : s.cfg.legal = true)
    (ho : s.cfg.busOpenDrain = true) (hp : s.cfg.ioxPresent = true) (hlen : ∀ c, (edgeText s.cfg c).length ≤ 64) :
    ∃ u, exec .edgeIsr t = .next u ∧ EdgeFirings s (k + 1) u := by
  obtain ⟨ht, hf, hw, hcfg, hcnt, hhigh, -⟩ := h
  rw [← hcfg] at hl ho hp hlen
  have hnext : t.cnt + 1#4 = BitVec.ofNat 4 (k + 1) := by rw [hcnt, BitVec.ofNat_add]
  have hport : t.edgeFired.bus.iox.port = mergeNibble t.bus.iox.port (t.cnt + 1#4) := if_pos hp
  have hmerged : t.edgeFired.bus.iox.port = mergeNibble s.bus.iox.port (BitVec.ofNat 4 (k + 1)) := by
    rw [hport, hnext, mergeNibble_congr hhigh]
  exact ⟨_, exec_edgeIsr ht hf hl ho hw (hlen _), ht, hf, hw, hcfg, hnext, by rw [hmerged, mergeNibble_high],
    fun _ => hmerged⟩

/-- Settles O44: EDGE_RESET leaves the count at 0, and each firing adds 1 to it modulo 16 and merges it. -/
theorem edgeCounterLaw : Obligations.EdgeCounterLaw := by
  intro s hs hf hl ho hp hw hlen
  have hstart : EdgeFirings s 0 { s.done .nothing with cnt := 0#4 } :=
    ⟨undisturbed_of_calm (s := s) hs, hf, hw, rfl, rfl, rfl, fun h => absurd h (by decide)⟩
  refine ⟨_, exec_edgeReset hs, fun k => ?_⟩
  obtain ⟨u, hu, hlaw⟩ := execTimes_induction (P := EdgeFirings s) hstart (fun _ _ h => h.fire hl ho hp hlen) k
  have hnibble : (BitVec.ofNat 4 k).setWidth 8 = BitVec.ofNat 8 (k % 16) := by
    apply BitVec.eq_of_toNat_eq
    simp only [BitVec.toNat_setWidth, BitVec.toNat_ofNat]
  exact ⟨u, hu, hlaw.cnt, fun hk => by rw [hlaw.merged hk, mergeNibble, hnibble]⟩

end Sys2Proof.Machine
end

section
/-! PROOF. Interrupt entry, and what a micro-step of one context leaves alone of the others and of the interrupt bookkeeping
(60_exceptions.md R224 to R231): handlers do not nest, and of two requests the second follows the first. -/

namespace Sys2Proof.Machine

/-! ## Entry (R227, R228) -/

theorem microStep_of_script {s : State} {h : Handler} (hscript : s.env.script = []) (ht : takeable s = some h) :
    microStep s = takeInterrupt h (readyEager s) := by
  have hb := boundary_of_script hscript
  rw [microStep_of_takeable (h := h) (by rw [hb]; exact ht), hb]

theorem step_of_script {s : State} {h : Handler} (hr : s.resting = true) (hscript : s.env.script = [])
    (ht : takeable s = some h) : step s = exec (handlerInstr h) s :=
  step_of_takeable hr (by rw [boundary_of_script hscript]; exact ht)

theorem microStep_enters_timer {s : State} (hscript : s.env.script = []) (ht : takeable s = some .tisr) :
    microStep s = .next { readyEager s with
      irq := { s.irq with tmrPend := false, tmrRun := false, inIsr := some .tisr }
      tisr := { op := some (handlerInstr .tisr), rest := (handlerCode s.cfg .tisr).drop 1, tr := Transients.none } } :=
  microStep_of_script hscript ht

theorem microStep_enters_edge {s : State} (hscript : s.env.script = []) (ht : takeable s = some .eisr) :
    microStep s = .next { readyEager s with
      irq := { s.irq with edgePend := false, inIsr := some .eisr }
      cnt := s.cnt + 1#4
      eisr := {
        op := some (handlerInstr .eisr)
        rest := (handlerCode s.cfg .eisr).drop 2
        tr := { Transients.none with d := Config.any .core 8 s.draws } }
      draws := s.draws + 1 } :=
  microStep_of_script hscript ht

/-- Settles O45: entry and the handler's first micro-step, which is no access to the bus or to the window. -/
theorem interruptEntryKeepsForeground : Obligations.InterruptEntryKeepsForeground :=
  ⟨fun _ hscript ht => microStep_enters_timer hscript ht, fun _ hscript ht => ⟨_, microStep_enters_edge hscript ht⟩⟩

/-- Settles O48: CLK_START writes the enable bits alone, so the request kept so far is takeable once it has returned. -/
theorem pendingTickTakenAfterStart : Obligations.PendingTickTakenAfterStart := by
  intro s hs hpend
  obtain ⟨hisr, -, hquiet⟩ := (calm_iff s).mp hs
  simp only [State.quiet, Bool.and_eq_true, decide_eq_true_eq, Bool.not_eq_true'] at hquiet
  obtain ⟨⟨hscript, hedge⟩, -⟩ := hquiet
  refine ⟨_, perform_clkStart .clkStart hs, step_of_script (h := .tisr) (resting_of_calm (s := s) hs) hscript ?_⟩
  exact takeable_timer hisr (by simp [timerTakeable, hpend]) hedge

/-! ## What a context leaves alone (R227, R229, R231) -/

/-- From s to t nothing is done to the parameters, the environment, the pending bits, or the SEQ of a context other than c; a
handler is not entered; and TMR_IE is not written where `sparing` holds. -/
structure Confined (c : Ctx) (sparing : Prop) (s t : State) : Prop where
  cfg : t.cfg = s.cfg
  env : t.env = s.env
  tmrPend : t.irq.tmrPend = s.irq.tmrPend
  edgePend : t.irq.edgePend = s.irq.edgePend
  inIsr : t.irq.inIsr = s.irq.inIsr ∨ t.irq.inIsr = none
  seq : ∀ x, x ≠ c → t.seq x = s.seq x
  tmrIe : sparing → t.irq.tmrIe = s.irq.tmrIe

theorem Confined.refl (c : Ctx) (p : Prop) (s : State) : Confined c p s s :=
  ⟨rfl, rfl, rfl, rfl, .inl rfl, fun _ _ => rfl, fun _ => rfl⟩

theorem Confined.trans {c : Ctx} {p : Prop} {s t u : State} (h : Confined c p s t) (h' : Confined c p t u) :
    Confined c p s u where
  cfg := h'.cfg.trans h.cfg
  env := h'.env.trans h.env
  tmrPend := h'.tmrPend.trans h.tmrPend
  edgePend := h'.edgePend.trans h.edgePend
  inIsr := h'.inIsr.elim (fun e => h.inIsr.imp e.trans e.trans) .inr
  seq x hx := (h'.seq x hx).trans (h.seq x hx)
  tmrIe hp := (h'.tmrIe hp).trans (h.tmrIe hp)

theorem Confined.mono {c : Ctx} {p q : Prop} {s t : State} (hpq : p → q) (h : Confined c q s t) : Confined c p s t :=
  { h with tmrIe := fun hp => h.tmrIe (hpq hp) }

/-- Where the interrupt bookkeeping is as it was. -/
theorem Confined.of_irq {c : Ctx} {p : Prop} {s t : State} (hcfg : t.cfg = s.cfg) (henv : t.env = s.env)
    (hirq : t.irq = s.irq) (hseq : ∀ x, t.seq x = s.seq x) : Confined c p s t :=
  ⟨hcfg, henv, by rw [hirq], by rw [hirq], .inl (by rw [hirq]), fun x _ => hseq x, fun _ => by rw [hirq]⟩

theorem Confined.with_bus {c : Ctx} {p : Prop} (s : State) (v : Bus) : Confined c p s { s with bus := v } :=
  .of_irq rfl rfl rfl (s.seq_with_bus · v)

theorem Confined.with_lcd {c : Ctx} {p : Prop} (s : State) (v : Lcd) : Confined c p s { s with lcd := v } :=
  .of_irq rfl rfl rfl (s.seq_with_lcd · v)

theorem Confined.with_clk {c : Ctx} {p : Prop} (s : State) (v : Clock) : Confined c p s { s with clk := v } :=
  .of_irq rfl rfl rfl (s.seq_with_clk · v)

theorem Confined.with_cnt {c : Ctx} {p : Prop} (s : State) (v : BitVec 4) : Confined c p s { s with cnt := v } :=
  .of_irq rfl rfl rfl (s.seq_with_cnt · v)

theorem Confined.with_draws {c : Ctx} {p : Prop} (s : State) (v : Nat) : Confined c p s { s with draws := v } :=
  .of_irq rfl rfl rfl (s.seq_with_draws · v)

theorem Confined.with_results {c : Ctx} {p : Prop} (s : State) (v : List Result) : Confined c p s { s with results := v } :=
  .of_irq rfl rfl rfl (s.seq_with_results · v)

theorem State.setSeq_seq_of_ne (s : State) {c x : Ctx} (q : Seq) (h : x ≠ c) : (s.setSeq c q).seq x = s.seq x := by
  cases c <;> cases x <;> simp [State.seq, State.setSeq] at h ⊢

theorem Confined.setSeq (s : State) (c : Ctx) (p : Prop) (q : Seq) : Confined c p s (s.setSeq c q) :=
  ⟨by simp, by simp, by simp, by simp, .inl (by simp), fun _ hx => s.setSeq_seq_of_ne q hx, fun _ => by simp⟩

theorem Confined.setTr {c : Ctx} {p : Prop} {s t : State} (h : Confined c p s t) (x : Transients) :
    Confined c p s (t.setTr c x) := h.trans (.setSeq t c p _)

theorem Confined.setRest {c : Ctx} {p : Prop} {s t : State} (h : Confined c p s t) (k : List Item) :
    Confined c p s (t.setRest c k) := h.trans (.setSeq t c p _)

theorem finish_confined (c : Ctx) (p : Prop) (s : State) : Confined c p s (finish c s) := by
  have hseq := (Confined.setSeq s c p Seq.idle).seq
  cases c with
  | fg => exact ⟨rfl, rfl, rfl, rfl, .inl rfl, hseq, fun _ => rfl⟩
  | tisr => exact ⟨rfl, rfl, rfl, rfl, .inr rfl, hseq, fun _ => rfl⟩
  | eisr => exact ⟨rfl, rfl, rfl, rfl, .inr rfl, hseq, fun _ => rfl⟩

/-! ## Elements that do not write TMR_IE (R35) -/

/-- The element is no write of TMR_IE. -/
def Item.sparesTmrIe : Item → Bool
  | .prim (.setTmrIe _) => false
  | _ => true

/-- None of the elements is a write of TMR_IE. -/
def sparesTmrIe (k : List Item) : Bool := k.all Item.sparesTmrIe

@[simp] theorem sparesTmrIe_nil : sparesTmrIe [] = true := rfl

@[simp] theorem sparesTmrIe_cons (i : Item) (k : List Item) :
    sparesTmrIe (i :: k) = (i.sparesTmrIe && sparesTmrIe k) := rfl

@[simp] theorem sparesTmrIe_append (k l : List Item) : sparesTmrIe (k ++ l) = (sparesTmrIe k && sparesTmrIe l) :=
  List.all_append

theorem sparesTmrIe_ite {p : Prop} [Decidable p] {k l : List Item} (hk : sparesTmrIe k = true)
    (hl : sparesTmrIe l = true) : sparesTmrIe (if p then k else l) = true := by
  split <;> assumption

theorem sparesTmrIe_gotoCode (row column : Nat) : sparesTmrIe (gotoCode row column) = true :=
  sparesTmrIe_ite rfl rfl

theorem sparesTmrIe_putcsCode (text : List Byte) : sparesTmrIe (putcsCode text) = true := by
  induction text with
  | nil => rfl
  | cons v text ih => exact ih

theorem sparesTmrIe_putsLoopCode (w : WrapPolicy) (row col : Nat) (text : List Byte) :
    sparesTmrIe (putsLoopCode w row col text) = true := by
  induction text generalizing row col with
  | nil => cases w <;> rfl
  | cons v text ih =>
    cases w with
    | deferred =>
      refine sparesTmrIe_ite ?_ (ih row (col + 1))
      rw [sparesTmrIe_append, sparesTmrIe_append, sparesTmrIe_gotoCode]
      exact ih (nextRow row) 1
    | eager =>
      refine sparesTmrIe_ite ?_ (ih row (col + 1))
      rw [sparesTmrIe_append, sparesTmrIe_append, sparesTmrIe_gotoCode]
      exact ih (nextRow row) 0

theorem sparesTmrIe_guardedCode {body : List Item} (h : sparesTmrIe body = true) :
    sparesTmrIe (guardedCode body) = true := by
  rw [guardedCode, sparesTmrIe_append, sparesTmrIe_append, sparesTmrIe_append, h]
  rfl

theorem sparesTmrIe_gotoText (row column : Nat) (text : List Byte) :
    sparesTmrIe (gotoCode row column ++ putcsCode text) = true := by
  rw [sparesTmrIe_append, sparesTmrIe_gotoCode, sparesTmrIe_putcsCode, Bool.and_self]

theorem sparesTmrIe_clockRender (changed : List ClockField) (s : State) : sparesTmrIe (clockRender changed s) = true := by
  have hfield (f : ClockField) (column : Nat) (codes : List Byte) :
      sparesTmrIe (if f ∈ changed then fieldCode s.cfg column codes else []) = true :=
    sparesTmrIe_ite (sparesTmrIe_gotoText 3 _ codes) rfl
  refine sparesTmrIe_ite rfl (sparesTmrIe_guardedCode ?_)
  rw [sparesTmrIe_append, sparesTmrIe_append, hfield, hfield, hfield]
  rfl

theorem sparesTmrIe_edgeRenderCode (p : Params) (n : BitVec 4) : sparesTmrIe (edgeRenderCode p n) = true :=
  have htext := sparesTmrIe_gotoText p.edgeRow.toNat p.edgeCol.toNat (edgeText p n)
  sparesTmrIe_ite (sparesTmrIe_guardedCode htext) htext

/-- Neither handler writes TMR_IE (R227: no enable changes). -/
theorem sparesTmrIe_handlerCode (p : Params) (h : Handler) : sparesTmrIe (handlerCode p h) = true := by
  cases h <;> rfl

/-! ## One micro-step of a context -/

theorem onBus_confined {c : Ctx} {p : Prop} {s t : State} {r : Except Refusal Bus} (h : onBus s r = .next t) :
    Confined c p s t := by
  cases r with
  | ok b => cases h; exact .with_bus s b
  | error e => cases h

theorem onLcd_confined {c : Ctx} {p : Prop} {s t : State} {d : Delivery} (h : onLcd s d = .next t) :
    Confined c p s t := by
  cases d with
  | accepted l => cases h; exact .with_lcd s _
  | busy => cases h
  | reject r => cases h

/-- A micro-step's effect stays within its context and the block's data; TMR_IE changes only by a write of it (R35). -/
theorem runPrim_confined {c : Ctx} {p : Prim} {s t : State} (h : runPrim c p s = .next t) :
    Confined c ((Item.prim p).sparesTmrIe = true) s t := by
  cases p with
  | scl b => exact onBus_confined h
  | sda b => cases h; exact .with_bus s _
  | sdaTx => cases h; exact .with_bus s _
  | sampleAck => cases h; exact .with_bus s _
  | sampleRx => cases h; exact .setTr (.with_bus s _) _
  | writePort v => exact onLcd_confined h
  | wakePort v => exact onLcd_confined h
  | readPort =>
    simp only [runPrim, readStatus] at h
    split at h <;> cases h
    exact .setTr (.with_lcd s _) _
  | writeMode m => cases h; exact .with_lcd s _
  | restoreMode => cases h; exact .with_lcd s _
  | readMode => cases h; exact .setTr (.refl c _ s) _
  | delay n => cases h; exact .with_bus s _
  | setTmrIe b => cases h; exact ⟨rfl, rfl, rfl, rfl, .inl rfl, fun x _ => s.seq_with_irq x _, nofun⟩
  | setTmrRun b => cases h; exact ⟨rfl, rfl, rfl, rfl, .inl rfl, fun x _ => s.seq_with_irq x _, fun _ => rfl⟩
  | reload v => cases h; exact .refl c _ s
  | clockTick => cases h; exact .setTr (.with_clk s _) _
  | zeroClock => cases h; exact .with_clk s _
  | readClock f => cases h; cases f <;> exact .setTr (.refl c _ s) _
  | incCnt => cases h; exact .with_cnt s _
  | zeroCnt => cases h; exact .with_cnt s _
  | readCnt => cases h; exact .setTr (.refl c _ s) _

/-- Every state a choice goes on with is confined, TMR_IE with it, and what it inserts writes no TMR_IE. -/
def Choice.Confined (c : Ctx) (s : State) : Choice → Prop
  | .goOn t => Machine.Confined c True s t
  | .skip t => Machine.Confined c True s t
  | .insert l t => Machine.Confined c True s t ∧ sparesTmrIe l = true
  | .reject _ => True

theorem runCtl_confined (c : Ctx) (x : Ctl) (s : State) : (runCtl c x s).Confined c s := by
  cases x with
  | loadTx v => exact (Confined.refl c _ s).setTr _
  | clearRx => exact (Confined.refl c _ s).setTr _
  | bitNo i => exact (Confined.refl c _ s).setTr _
  | takeAck => exact (Confined.refl c _ s).setTr _
  | takeData => exact (Confined.refl c _ s).setTr _
  | drawData => exact Confined.setTr (.with_draws s _) _
  | nackToClosing =>
    simp only [runCtl]
    split <;> exact Confined.refl c _ s
  | closing => exact Confined.refl c _ s
  | againIfBusy =>
    simp only [runCtl]
    split
    · exact ⟨Confined.refl c _ s, rfl⟩
    · exact Confined.refl c _ s
  | putsFrom text =>
    simp only [runCtl, putsStart]
    split
    · exact ⟨Confined.refl c _ s, sparesTmrIe_putsLoopCode _ _ _ _⟩
    · trivial
  | saveAddr => exact (Confined.refl c _ s).setTr _
  | restoreAddr => exact ⟨Confined.refl c _ s, rfl⟩
  | renderClock => exact ⟨.with_draws s _, sparesTmrIe_clockRender _ s⟩
  | mergeConfigure => exact ⟨Confined.refl c _ s, rfl⟩
  | renderEdge => exact ⟨Confined.refl c _ s, sparesTmrIe_edgeRenderCode _ _⟩
  | drawAddr => exact Confined.with_lcd s _
  | ret k => exact Confined.with_results s _

/-- Between s and t context c has done what is confined to it; and what it has left to do writes no TMR_IE where k does not. -/
def Advanced (c : Ctx) (k : List Item) (s t : State) : Prop :=
  Confined c (sparesTmrIe k = true) s t ∧ (sparesTmrIe k = true → sparesTmrIe (t.seq c).rest = true)

theorem Advanced.trans {c : Ctx} {k l : List Item} {s t u : State} (h : Confined c (sparesTmrIe k = true) s t)
    (hkl : sparesTmrIe k = true → sparesTmrIe l = true) (h' : Advanced c l t u) : Advanced c k s u :=
  ⟨h.trans (h'.1.mono hkl), fun hk => h'.2 (hkl hk)⟩

theorem finish_advanced (c : Ctx) (k : List Item) (s : State) : Advanced c k s (finish c s) :=
  ⟨finish_confined c _ s, fun _ => by rw [finish_seq]; rfl⟩

theorem setRest_advanced (c : Ctx) {k l : List Item} (hkl : sparesTmrIe k = true → sparesTmrIe l = true) (s : State) :
    Advanced c k s (s.setRest c l) :=
  ⟨.setRest (.refl c _ s) l, fun hk => by rw [State.setRest_rest]; exact hkl hk⟩

theorem settle_advanced {c : Ctx} {skipping : Bool} {k : List Item} {s t : State}
    (h : settle c skipping k s = .next t) : Advanced c k s t := by
  induction k generalizing skipping s with
  | nil =>
    cases h
    exact finish_advanced c [] s
  | cons i k ih =>
    have htail : sparesTmrIe (i :: k) = true → sparesTmrIe k = true := fun hk => (Bool.and_eq_true_iff.mp hk).2
    cases skipping with
    | true =>
      by_cases hi : i = .ctl .closing
      · subst hi; simp only [settle] at h; exact .trans (.refl c _ s) htail (ih h)
      · simp only [settle] at h; exact .trans (.refl c _ s) htail (ih h)
    | false =>
      cases i with
      | prim p => cases h; exact setRest_advanced c id s
      | ctl x =>
        have hx := runCtl_confined c x s
        have ofTrue {u : State} (hu : Confined c True s u) : Confined c (sparesTmrIe (.ctl x :: k) = true) s u :=
          hu.mono fun _ => trivial
        simp only [settle] at h
        cases hr : runCtl c x s with
        | goOn u => rw [hr] at h hx; exact .trans (ofTrue hx) htail (ih h)
        | skip u => rw [hr] at h hx; exact .trans (ofTrue hx) htail (ih h)
        | insert l u =>
          rw [hr] at h hx
          obtain ⟨hu, hl⟩ := hx
          cases l with
          | nil => exact .trans (ofTrue hu) htail (ih h)
          | cons j l =>
            cases h
            refine .trans (ofTrue hu) (l := (j :: l) ++ k) (fun hk => ?_) (setRest_advanced c id u)
            rw [sparesTmrIe_append, hl, htail hk]
            rfl
        | reject r => rw [hr] at h; cases h

theorem ctxStep_advanced {c : Ctx} {s t : State} (h : ctxStep c s = .next t) : Advanced c (s.seq c).rest s t := by
  unfold ctxStep at h
  split at h
  · cases h; exact finish_advanced c _ s
  · next x k hk => rw [hk]; exact settle_advanced h
  · next p k hk =>
    obtain ⟨u, hu, ht⟩ := thenDo_eq_next h
    rw [hk]
    refine .trans (((Confined.refl c _ s).setRest k).trans ((runPrim_confined hu).mono fun hp => ?_)) (fun hp => ?_)
      (settle_advanced ht)
    · exact (Bool.and_eq_true_iff.mp hp).1
    · exact (Bool.and_eq_true_iff.mp hp).2

/-! ## The environment at a boundary without a restart -/

/-- The environment's moves but for a restart: requests are raised, and no SEQ, no enable and no parameter changes. -/
structure Awaited (s t : State) : Prop where
  cfg : t.cfg = s.cfg
  seq : ∀ x, t.seq x = s.seq x
  inIsr : t.irq.inIsr = s.irq.inIsr
  tmrIe : t.irq.tmrIe = s.irq.tmrIe
  tmrPend : s.irq.tmrPend = true → t.irq.tmrPend = true
  edgePend : s.irq.edgePend = true → t.irq.edgePend = true

theorem Awaited.trans {s t u : State} (h : Awaited s t) (h' : Awaited t u) : Awaited s u :=
  ⟨h'.cfg.trans h.cfg, fun x => (h'.seq x).trans (h.seq x), h'.inIsr.trans h.inIsr, h'.tmrIe.trans h.tmrIe,
    fun hp => h'.tmrPend (h.tmrPend hp), fun hp => h'.edgePend (h.edgePend hp)⟩

theorem Awaited.of_irq {s t : State} (hcfg : t.cfg = s.cfg) (hirq : t.irq = s.irq) (hseq : ∀ x, t.seq x = s.seq x) :
    Awaited s t :=
  ⟨hcfg, hseq, by rw [hirq], by rw [hirq], by rw [hirq]; exact id, by rw [hirq]; exact id⟩

theorem applyEvent_awaited (s : State) {e : Event} (he : e ≠ .watchdog) : Awaited s (applyEvent s e) := by
  cases e with
  | lcdReady => exact .of_irq rfl rfl (State.seq_with_lcd s · _)
  | writeCycleDone => exact .of_irq rfl rfl (State.seq_with_bus s · _)
  | timerOverflow =>
    exact ⟨rfl, (State.seq_with_irq s · _), rfl, rfl, fun hp => by simp [applyEvent, raiseTimer, hp], id⟩
  | fallingEdge =>
    exact ⟨rfl, (State.seq_with_irq s · _), rfl, rfl, id, fun hp => by simp [applyEvent, raiseEdge, hp]⟩
  | watchdog => exact absurd rfl he

theorem applyEvents_awaited (s : State) {es : List Event} (he : Event.watchdog ∉ es) : Awaited s (applyEvents s es) := by
  induction es generalizing s with
  | nil => exact .of_irq rfl rfl fun _ => rfl
  | cons e es ih =>
    exact (applyEvent_awaited s (List.ne_of_not_mem_cons he).symm).trans (ih _ (List.not_mem_of_not_mem_cons he))

theorem boundary_awaited {s : State} (h : ∀ es r, s.env.script = es :: r → .watchdog ∉ es) : Awaited s (boundary s) := by
  have hready (u : State) : Awaited u (readyEager u) := .of_irq rfl rfl (State.seq_with_lcd u · _)
  cases hs : s.env.script with
  | nil => rw [boundary_of_script hs]; exact hready s
  | cons es r =>
    have hpop : Awaited s { s with env := { s.env with script := r } } := .of_irq rfl rfl (State.seq_with_env s · _)
    rw [boundary, scriptMoves, hs]
    exact (hpop.trans (applyEvents_awaited _ (h es r hs))).trans (hready _)

/-- Settles O46: the micro-step is the running handler's own. -/
theorem handlersDoNotNest : Obligations.HandlersDoNotNest := by
  intro h s t hisr hscript hstep
  have hb := boundary_awaited hscript
  have hrun : coreStep (boundary s) = ctxStep (handlerCtx h) (boundary s) := by rw [coreStep, hb.inIsr, hisr]
  obtain ⟨hconf, -⟩ := ctxStep_advanced (hrun.symm.trans hstep)
  refine ⟨?_, fun c hc => (hconf.seq c hc).trans (hb.seq c), fun hp => ?_, fun hp => ?_⟩
  · exact hconf.inIsr.imp_left fun hi => hi.trans (hb.inIsr.trans hisr)
  · exact hconf.tmrPend.trans (hb.tmrPend hp)
  · exact hconf.edgePend.trans (hb.edgePend hp)

end Sys2Proof.Machine
end

section
/-! PROOF. Two takeable requests (60_exceptions.md R226): IRQ_ORDER decides which handler is entered, and while it runs the
other request stays the next in line. -/

namespace Sys2Proof.Machine

/-! ## The request next in line -/

/-- The handler IRQ_ORDER puts first. -/
def firstHandler : IrqOrder → Handler
  | .timerFirst => .tisr
  | .edgeFirst => .eisr

/-- The handler IRQ_ORDER puts second. -/
def secondHandler : IrqOrder → Handler
  | .timerFirst => .eisr
  | .edgeFirst => .tisr

/-- Both requests are takeable (R224, R225) and no handler runs. -/
structure BothTakeable (s : State) : Prop where
  inIsr : s.irq.inIsr = none
  tmrPend : s.irq.tmrPend = true
  tmrIe : s.irq.tmrIe = true
  edgePend : s.irq.edgePend = true

theorem BothTakeable.takeable_eq {s : State} (h : BothTakeable s) : takeable s = some (firstHandler s.cfg.irqOrder) := by
  cases ho : s.cfg.irqOrder <;>
    simp [takeable, timerTakeable, edgeTakeable, firstHandler, h.inIsr, h.tmrPend, h.tmrIe, h.edgePend, ho]

theorem BothTakeable.at_boundary {s : State} (h : BothTakeable s) (hn : restartsNow s = false) :
    BothTakeable (boundary s) ∧ (boundary s).cfg = s.cfg := by
  have hb : Awaited s (boundary s) := boundary_awaited fun es r hs => by
    simpa [restartsNow, hs] using hn
  exact ⟨⟨hb.inIsr.trans h.inIsr, hb.tmrPend h.tmrPend, hb.tmrIe.trans h.tmrIe, hb.edgePend h.edgePend⟩, hb.cfg⟩

/-- The handler that is entered next once none runs. -/
def nextInLine (s : State) : Option Handler := takeable { s with irq := { s.irq with inIsr := none } }

theorem takeable_eq_nextInLine {s : State} (h : s.irq.inIsr = none) : takeable s = nextInLine s := by
  rw [nextInLine, Irq.with_noHandler h]

theorem Confined.nextInLine_eq {c : Ctx} {s t : State} (h : Confined c True s t) : nextInLine t = nextInLine s := by
  simp only [nextInLine, takeable, timerTakeable, edgeTakeable, h.cfg, h.tmrPend, h.edgePend, h.tmrIe trivial]

/-- An entry clears its own request alone (R227). -/
theorem BothTakeable.nextInLine_enterHandler {s : State} (h : BothTakeable s) :
    nextInLine (enterHandler (firstHandler s.cfg.irqOrder) s) = some (secondHandler s.cfg.irqOrder) := by
  cases ho : s.cfg.irqOrder <;>
    simp [nextInLine, takeable, timerTakeable, edgeTakeable, firstHandler, secondHandler, enterIrq, h.tmrPend, h.tmrIe,
      h.edgePend]

/-! ## While the first handler runs -/

/-- Handler h runs, or has returned, with FG's SEQ as it was, and `other` is entered next. -/
structure Owing (h other : Handler) (fg : Seq) (t : State) : Prop where
  script : t.env.script = []
  fg : t.fg = fg
  next : nextInLine t = some other
  run : t.irq.inIsr = some h ∧ sparesTmrIe (t.seq (handlerCtx h)).rest = true ∨ t.irq.inIsr = none

theorem handlerCtx_ne_fg (h : Handler) : Ctx.fg ≠ handlerCtx h := by cases h <;> exact nofun

section Owing
variable {h other : Handler} {q : Seq} {s t : State}

theorem Owing.of_ctxStep (hs : Owing h other q s) (hisr : s.irq.inIsr = some h)
    (hstep : ctxStep (handlerCtx h) s = .next t) : Owing h other q t := by
  obtain ⟨-, hspare⟩ : s.irq.inIsr = some h ∧ sparesTmrIe (s.seq (handlerCtx h)).rest = true :=
    hs.run.resolve_right (by simp [hisr])
  obtain ⟨hconf, hrest⟩ := ctxStep_advanced hstep
  refine ⟨?_, (hconf.seq _ (handlerCtx_ne_fg h)).trans hs.fg, (hconf.mono fun _ => hspare).nextInLine_eq.trans hs.next, ?_⟩
  · rw [hconf.env, hs.script]
  · exact hconf.inIsr.imp_left fun hi => ⟨hi.trans hisr, hrest hspare⟩

theorem Owing.of_microStep (hs : Owing h other q s) (hisr : s.irq.inIsr = some h) (hstep : microStep s = .next t) :
    Owing h other q t := by
  have hrun : Running (handlerCtx h) s := by cases h <;> exact ⟨hs.script, hisr⟩
  have hready : Owing h other q (readyEager s) := ⟨hs.script, hs.fg, hs.next, by cases h <;> exact hs.run⟩
  exact hready.of_ctxStep hisr ((microStep_of_running hrun).symm.trans hstep)

/-- With FG idle a run stops at the handler's return. -/
theorem Owing.of_drive {n : Nat} (hs : Owing h other q s) (hq : q.rest = []) (hrun : drive n s = .next t) :
    Owing h other q t := by
  induction n generalizing s with
  | zero => cases hrun; exact hs
  | succ n ih =>
    rw [drive_succ] at hrun
    split at hrun
    · cases hrun; exact hs
    · next hrest =>
      obtain ⟨u, hu, ht⟩ := thenDo_eq_next hrun
      have hisr : s.irq.inIsr ≠ none := fun hnone => hrest (by simp [State.resting, hnone, hs.fg, hq])
      exact ih (hs.of_microStep (hs.run.resolve_right hisr).1 hu) ht

theorem microSteps_succ (n : Nat) (s : State) : microSteps (n + 1) s = thenDo (microSteps n s) microStep := by
  induction n generalizing s with
  | zero => rw [microSteps, microSteps, thenDo_next]; cases microStep s <;> rfl
  | succ n ih =>
    rw [microSteps, microSteps, thenDo_assoc]
    cases microStep s with
    | next u => exact ih u
    | fault e => rfl
    | refused r => rfl

/-- The boundaries up to the first handler's return. -/
theorem Owing.of_microSteps {k : Nat} (hfirst : ∀ u, microStep s = .next u → Owing h other q u)
    (hbusy : ∀ j < k, ∃ u, microSteps (j + 1) s = .next u ∧ u.irq.inIsr = some h)
    (hrun : microSteps (k + 1) s = .next t) : Owing h other q t := by
  induction k generalizing t with
  | zero => exact hfirst t (by rwa [microSteps_succ, microSteps, thenDo_next] at hrun)
  | succ k ih =>
    rw [microSteps_succ] at hrun
    obtain ⟨u, hu, ht⟩ := thenDo_eq_next hrun
    obtain ⟨w, hw, hisr⟩ := hbusy k (Nat.lt_succ_self k)
    obtain rfl : u = w := Host.Outcome.next.inj (hu.symm.trans hw)
    exact (ih (fun j hj => hbusy j (Nat.lt_succ_of_lt hj)) hu).of_microStep hisr ht

end Owing

/-! ## The first handler's entry, and the second's -/

theorem exec_handlerInstr (h : Handler) (s : State) : exec (handlerInstr h) s = fireHandler h s := by cases h <;> rfl

/-- The request first in IRQ_ORDER is taken, and the other is owed. -/
theorem BothTakeable.owing {s : State} (hs : BothTakeable s) (hscript : s.env.script = []) :
    Owing (firstHandler s.cfg.irqOrder) (secondHandler s.cfg.irqOrder) s.fg (enterHandler (firstHandler s.cfg.irqOrder) s) := by
  refine ⟨by simpa using hscript, enterHandler_fg _ s, hs.nextInLine_enterHandler, .inl ⟨enterHandler_inIsr _ s, ?_⟩⟩
  rw [enterHandler_seq]
  exact sparesTmrIe_handlerCode _ _

theorem microStep_enters {s : State} {h : Handler} (hscript : s.env.script = []) (ht : takeable s = some h) :
    ∃ u, microStep s = .next u ∧ u.irq.inIsr = some h := by
  cases h with
  | tisr => exact ⟨_, microStep_enters_timer hscript ht, rfl⟩
  | eisr => exact ⟨_, microStep_enters_edge hscript ht, rfl⟩

/-- An entry and the handler's first micro-step leave FG's SEQ (R227, R231). -/
theorem microStep_enters_fg {s t : State} {h : Handler} (hscript : s.env.script = []) (ht : takeable s = some h)
    (hstep : microStep s = .next t) : t.fg = s.fg := by
  rw [microStep_of_script hscript ht] at hstep
  exact ((ctxStep_advanced hstep).1.seq _ (handlerCtx_ne_fg h)).trans (enterHandler_fg h _)

/-- Between two requests. -/
theorem BothTakeable.step_order {s : State} (hs : BothTakeable s) (hr : s.resting = true) (hn : restartsNow s = false) :
    step s = exec (handlerInstr (firstHandler s.cfg.irqOrder)) s ∧
      (s.env.script = [] → ∀ t, step s = .next t → t.resting = true →
        step t = exec (handlerInstr (secondHandler s.cfg.irqOrder)) t) := by
  obtain ⟨hb, hcfg⟩ := hs.at_boundary hn
  have hfirst : step s = exec (handlerInstr (firstHandler s.cfg.irqOrder)) s :=
    step_of_takeable hr (by rw [hb.takeable_eq, hcfg])
  refine ⟨hfirst, fun hscript t ht htr => ?_⟩
  rw [hfirst, exec_handlerInstr, fireHandler_eq_drive hs.inIsr hscript] at ht
  have hfg : s.fg.rest = [] := by simpa [State.resting, hs.inIsr] using hr
  have howing := (hs.owing hscript).of_drive hfg ht
  exact step_of_script htr howing.script ((takeable_eq_nextInLine (inIsr_of_resting htr)).trans howing.next)

/-- Inside an operation of FG. -/
theorem BothTakeable.microSteps_order {s t : State} (hs : BothTakeable s) (hscript : s.env.script = []) {k : Nat}
    (hbusy : ∀ j < k, ∃ u, microSteps (j + 1) s = .next u ∧ u.irq.inIsr = some (firstHandler s.cfg.irqOrder))
    (ht : microSteps (k + 1) s = .next t) (hisr : t.irq.inIsr = none) :
    takeable t = some (secondHandler s.cfg.irqOrder) ∧ t.fg = s.fg ∧ ∀ v, microStep t = .next v → v.fg = s.fg := by
  have hready : BothTakeable (readyEager s) := ⟨hs.inIsr, hs.tmrPend, hs.tmrIe, hs.edgePend⟩
  have howing : Owing (firstHandler s.cfg.irqOrder) (secondHandler s.cfg.irqOrder) s.fg t :=
    Owing.of_microSteps (fun u hu => (hready.owing hscript).of_ctxStep (enterHandler_inIsr _ _)
      ((microStep_of_script hscript hs.takeable_eq).symm.trans hu)) hbusy ht
  have hnext := (takeable_eq_nextInLine hisr).trans howing.next
  exact ⟨hnext, howing.fg, fun v hv => (microStep_enters_fg howing.script hnext hv).trans howing.fg⟩

/-- Settles O47: the first entry clears its own request, and nothing a handler does touches what the other's depends on. -/
theorem irqOrderDecides : Obligations.IrqOrderDecides := by
  refine ⟨fun s hr hn hpend hie hedge => ?_, fun s hisr hscript hpend hie hedge h other horder => ?_⟩
  · have horder := BothTakeable.step_order ⟨inIsr_of_resting hr, hpend, hie, hedge⟩ hr hn
    exact ⟨fun ho => by rwa [ho] at horder, fun ho => by rwa [ho] at horder⟩
  · have hs : BothTakeable s := ⟨hisr, hpend, hie, hedge⟩
    obtain ⟨rfl, rfl⟩ : h = firstHandler s.cfg.irqOrder ∧ other = secondHandler s.cfg.irqOrder := by
      cases ho : s.cfg.irqOrder <;> simpa [ho, firstHandler, secondHandler] using horder
    exact ⟨microStep_enters hscript hs.takeable_eq, fun k t hbusy ht hret => hs.microSteps_order hscript hbusy ht hret⟩

end Sys2Proof.Machine
end

section
/-! PROOF. A whole firing of TIMER_ISR between two micro-steps of an operation of FG, counted exactly (60_exceptions.md R228,
R230, R231; 70_reset_and_hazards.md R271). -/

namespace Sys2Proof.Machine

/-! ## Counted runs of a piece of an expansion -/

/-- In exactly `cost` micro-steps context c does `code`, which takes the machine from s to t and c's transients x to f x. -/
def Takes (c : Ctx) (cost : Nat) (code : List Item) (f : Transients → Transients) (s t : State) : Prop :=
  ∀ (n : Nat) (k : List Item) (x : Transients),
    go c (n + cost) (code ++ k) (s.setTr c x) = go c n k (t.setTr c (f x))

/-- Of the transients only the status byte read last may change. -/
def StatusOnly (f : Transients → Transients) : Prop := ∀ x, (f x).waited 0#7 = x.waited 0#7

/-- A counted run in which of the transients only the status byte changes: `Runs` with its count exact. -/
def Counts (c : Ctx) (cost : Nat) (code : List Item) (s t : State) : Prop :=
  ∃ f, StatusOnly f ∧ Takes c cost code f s t

section Takes
variable {c : Ctx} {p q : Nat} {x y : List Item} {f g : Transients → Transients} {s t u : State}

theorem Takes.append (hx : Takes c p x f s t) (hy : Takes c q y g t u) : Takes c (p + q) (x ++ y) (g ∘ f) s u := by
  intro n k z
  rw [List.append_assoc, Nat.add_comm p q, ← Nat.add_assoc, hx, hy]
  rfl

theorem Counts.nil (c : Ctx) (s : State) : Counts c 0 [] s s := ⟨id, fun _ => rfl, fun _ _ _ => rfl⟩

theorem Counts.append (hx : Counts c p x s t) (hy : Counts c q y t u) : Counts c (p + q) (x ++ y) s u := by
  obtain ⟨f, hf, hx⟩ := hx
  obtain ⟨g, hg, hy⟩ := hy
  exact ⟨g ∘ f, fun z => (hg (f z)).trans (hf z), hx.append hy⟩

/-- A micro-step. -/
theorem Takes.prim {a : Prim} (h : Running c s)
    (ha : ∀ z, runPrim c a ((readyEager s).setTr c z) = .next (t.setTr c (f z))) : Takes c 1 [.prim a] f s t := by
  intro n k z
  rw [List.singleton_append, go_prim (h.setTr z), readyEager_setTr, ha, thenDo_next]

end Takes

/-! ## The render of the changed fields (R197, R271) -/

/-- The micro-steps of one field's render, if it has changed (R271). -/
def fieldCost (changed : List ClockField) (f : ClockField) (codes : List Byte) : Nat :=
  if f ∈ changed then 4 + 4 * codes.length else 0

/-- The transients once the guard has taken its snapshot of LCD_MODE and AC (R199). -/
def Transients.snapshot (x : Transients) (l : Lcd) : Transients :=
  { x with savedMode := l.mode, stBusy := false, stAddr := l.ac, savedAddr := l.ac }

section Text
variable {c : Ctx} {s : State} (h : Running c s) (hw : s.lcdAnswers = true)
include h hw

theorem counts_putc (v : Byte) : Counts c 4 (putcCode v) s { s with lcd := s.lcd.typed v } := by
  refine ⟨fun z => z.waited s.lcd.ac, fun _ => rfl, fun n k z => ?_⟩
  rw [go_putc (h.setTr z) (by simpa using waitEnds_of_lcdAnswers hw)]
  cases c <;> rfl

theorem counts_goto {row column : Nat} (hok : cursorOk row column = true) :
    Counts c 4 (gotoCode row column) s { s with lcd := s.lcd.movedTo row column } := by
  refine ⟨fun z => z.waited s.lcd.ac, fun _ => rfl, fun n k z => ?_⟩
  rw [go_goto (h.setTr z) (by simpa using waitEnds_of_lcdAnswers hw) hok, Lcd.movedTo, if_pos hok]
  cases c <;> rfl

theorem counts_putcs (text : List Byte) (l : Lcd) :
    Counts c (4 * text.length) (putcsCode text) { s with lcd := l } { s with lcd := l.typedAll text } := by
  induction text generalizing l with
  | nil => exact .nil c _
  | cons v text ih =>
    rw [List.length_cons, Nat.mul_succ, Nat.add_comm]
    exact (counts_putc (s := { s with lcd := l }) (h.congr rfl rfl) hw v).append (ih (l.typed v))

theorem counts_field {p : Params} (hp : p.clkCol ≤ 9) (changed : List ClockField) (f : ClockField) {column : Nat}
    (hcol : column ≤ 6) (codes : List Byte) (l : Lcd) :
    Counts c (fieldCost changed f codes) (if f ∈ changed then fieldCode p column codes else []) { s with lcd := l }
      { s with lcd := l.field p changed f column codes } := by
  rw [fieldCost, Lcd.field]
  split
  · exact (counts_goto (s := { s with lcd := l }) (h.congr rfl rfl) hw (cursorOk_of_le le_rfl (by omega))).append
      (counts_putcs h hw codes _)
  · exact .nil c _

/-- The guard costs eight micro-steps (R199). -/
theorem takes_guarded {cost : Nat} {body : List Item} {l : Lcd}
    (hbody : Counts c cost body { s with lcd := s.lcd.polled } { s with lcd := l }) :
    ∃ f, Takes c (cost + 8) (guardedCode body) f s { s with lcd := s.lcd.guarded s.env.lcd l } := by
  obtain ⟨f, hf, hbody⟩ := hbody
  refine ⟨fun x => (f (x.snapshot s.lcd)).waited l.ac, fun n k x => ?_⟩
  have hopen := go_guardOpen (n := n + 5 + cost)
    (k := body ++ (waitCode ++ .ctl .restoreAddr :: .prim .restoreMode :: k)) (x := x) h hw
  have hclose := go_guardClose (n := n) (k := k) (x := f (x.snapshot s.lcd)) (s := { s with lcd := l }) (h.congr rfl rfl) hw
  have hmode : (f (x.snapshot s.lcd)).savedMode = s.lcd.mode := congrArg Transients.savedMode (hf (x.snapshot s.lcd))
  have haddr : (f (x.snapshot s.lcd)).savedAddr = s.lcd.ac := congrArg Transients.savedAddr (hf (x.snapshot s.lcd))
  rw [hmode, haddr] at hclose
  refine Eq.trans ?_ (hopen.trans ((hbody (n + 5) _ (x.snapshot s.lcd)).trans hclose))
  rw [guardedCode]
  simp only [List.append_assoc, List.cons_append, List.nil_append]
  congr 1
  omega

/-- The guarded render (R197). -/
theorem takes_render {p : Params} (hp : p.clkCol ≤ 9) {changed : List ClockField} (hne : changed ≠ [])
    (minText secText msText : List Byte) :
    ∃ f, Takes c (fieldCost changed .min minText + fieldCost changed .sec secText + fieldCost changed .ms msText + 8)
      (renderCode p changed minText secText msText) f s
      { s with lcd := s.lcd.guarded s.env.lcd (s.lcd.polled.rendered p changed minText secText msText) } := by
  rw [renderCode, if_neg hne]
  exact takes_guarded h hw
    (((counts_field h hw hp changed .min (by decide) minText _).append
      (counts_field h hw hp changed .sec (by decide) secText _)).append
      (counts_field h hw hp changed .ms (by decide) msText _))

end Text

/-! ## TIMER_ISR, micro-step by micro-step (R197) -/

/-- TIMER_ISR has cleared TMR_RUN, its first micro-step. -/
def State.timerStopped (s : State) : State :=
  { readyEager (enterHandler .tisr s) with irq := { enterIrq .tisr s.irq with tmrRun := false } }

/-- TIMER_ISR before its last micro-step, given what its render does. -/
theorem takes_timerBody {cost : Nat} {f : Transients → Transients} {s u : State} (hscript : s.env.script = [])
    (hr : Takes .tisr cost (clockRender (tick s.clk).2 s.ticked) f
      { s.ticked with draws := clockDraws (tick s.clk).2 s.ticked } u) :
    ∃ g, Takes .tisr (cost + 3)
      [.prim (.setTmrRun false), .prim (.reload s.cfg.tmrReload), .prim .clockTick, .ctl .renderClock] g
      (enterHandler .tisr s) u := by
  have hentry : Running .tisr (enterHandler .tisr s) := running_enterHandler (h := .tisr) hscript
  have hrun : Running .tisr s.timerStopped := hentry.setTmrRun false
  have hready : readyEager s.timerStopped = s.timerStopped := by
    simp only [State.timerStopped, readyEager, readyAtBoundary_twice]
  have hstop : Takes .tisr 1 [.prim (.setTmrRun false)] id (enterHandler .tisr s) s.timerStopped :=
    .prim hentry fun _ => rfl
  have hreload : Takes .tisr 1 [.prim (.reload s.cfg.tmrReload)] id s.timerStopped s.timerStopped :=
    .prim hrun fun _ => by rw [hready]; rfl
  have htick : Takes .tisr 1 [.prim .clockTick] (fun x => { x with changed := (tick s.clk).2 }) s.timerStopped s.ticked :=
    .prim hrun fun _ => by rw [hready]; rfl
  refine ⟨fun x => f { x with changed := (tick s.clk).2 }, fun n k x => ?_⟩
  have hthree := (hstop.append hreload).append htick (n + cost) (.ctl .renderClock :: k) x
  refine (congrArg (go .tisr · _ _) (by omega)).trans (hthree.trans (Eq.trans ?_ (hr n k _)))
  exact go_insert rfl (startsPrim_render _ _ _)

/-- A run of micro-steps that does not come to rest. -/
theorem microSteps_of_drive {n : Nat} {s t : State} (h : drive n s = .next t) (ht : t.resting = false) :
    microSteps n s = .next t := by
  induction n generalizing s with
  | zero => exact h
  | succ n ih =>
    rw [drive_succ] at h
    split at h
    · next hs => cases h; exact absurd hs (by simp [ht])
    · obtain ⟨u, hu, hd⟩ := thenDo_eq_next h
      rw [microSteps, hu, thenDo_next]
      exact ih hd

/-- At a boundary where it is takeable, and at its entry, a handler does the same micro-step (notes/assumptions/30). -/
theorem microStep_enterHandler {s : State} {h : Handler} (hscript : s.env.script = []) (ht : takeable s = some h) :
    microStep (enterHandler h s) = microStep s := by
  rw [microStep_of_running (running_enterHandler hscript), readyEager_enterHandler, microStep_of_script hscript ht,
    takeInterrupt]

/-- A whole firing, wherever it is taken. -/
theorem microSteps_timerIsr {cost : Nat} {f : Transients → Transients} {s u : State} (hscript : s.env.script = [])
    (ht : takeable s = some .tisr)
    (hr : Takes .tisr cost (clockRender (tick s.clk).2 s.ticked) f
      { s.ticked with draws := clockDraws (tick s.clk).2 s.ticked } u) (hu : Running .tisr u) :
    microSteps (cost + 4) s = .next (finish .tisr { readyEager u with irq := { u.irq with tmrRun := true } }) := by
  obtain ⟨g, hbody⟩ := takes_timerBody hscript hr
  have hdrive : drive (cost + 3) (enterHandler .tisr s) =
      .next ((u.setTr .tisr (g Transients.none)).setRest .tisr [.prim (.setTmrRun true)]) := by
    rw [drive_enterHandler (h := .tisr) rfl (List.cons_ne_nil _ _)]
    exact (congrArg (go .tisr · _ _) (Nat.zero_add _).symm).trans (hbody 0 [.prim (.setTmrRun true)] Transients.none)
  have hlast : Running .tisr ((u.setTr .tisr (g Transients.none)).setRest .tisr [.prim (.setTmrRun true)]) := hu
  have hsteps := microSteps_of_drive hdrive (not_resting_of_running hlast (by simp))
  calc microSteps (cost + 3 + 1) s
      = thenDo (microSteps (cost + 3) (enterHandler .tisr s)) microStep := by
        rw [← microSteps_succ, microSteps, microSteps, microStep_enterHandler hscript ht]
    _ = microStep ((u.setTr .tisr (g Transients.none)).setRest .tisr [.prim (.setTmrRun true)]) := by
        rw [hsteps, thenDo_next]
    _ = _ := by rw [microStep_of_running hlast]; rfl

theorem inIsr_of_takeable {s : State} {h : Handler} (ht : takeable s = some h) : s.irq.inIsr = none := by
  by_contra hne
  rw [takeable_of_inIsr hne] at ht
  cases ht

/-- A firing that changes no field takes four micro-steps. -/
theorem microSteps_timerIsr_of_unchanged {s : State} (hscript : s.env.script = []) (ht : takeable s = some .tisr)
    (hraw : s.clk.raw ≠ 10) :
    microSteps 4 s = .next { readyEager s with
      clk := { s.clk with raw := s.clk.raw + 1 }
      irq := { s.irq with tmrRun := true, tmrPend := false }
      tisr := Seq.idle } := by
  have hnone : (tick s.clk).2 = [] := by rw [tick_of_raw_ne hraw]
  have hrender : Takes .tisr 0 (clockRender (tick s.clk).2 s.ticked) id
      { s.ticked with draws := clockDraws (tick s.clk).2 s.ticked } s.ticked := by
    rw [hnone]
    exact fun _ _ _ => rfl
  rw [microSteps_timerIsr hscript ht hrender ⟨hscript, rfl⟩, ← Irq.with_noHandler (inIsr_of_takeable ht)]
  simp only [State.ticked, readyEager, readyAtBoundary_twice, tick_of_raw_ne hraw]
  rfl

/-- The micro-steps of a firing that changes fields, by the fields it changes (R271). -/
theorem fieldCosts_of_carry {k : Clock} (hraw : k.raw = 10) {minText secText msText : List Byte}
    (hmin : minText.length = 2) (hsec : secText.length = 2) (hms : msText.length = 1) :
    fieldCost (tick k).2 .min minText + fieldCost (tick k).2 .sec secText + fieldCost (tick k).2 .ms msText + 8 + 4 =
      if k.ms ≠ 9 then 20 else if k.sec ≠ 59 then 32 else 44 := by
  simp only [fieldCost, mem_changed_of_carry hraw, hmin, hsec, hms]
  by_cases h9 : k.ms = 9 <;> by_cases h59 : k.sec = 59 <;> simp [h9, h59]

/-- A firing that changes fields leaves what it leaves between two requests, FG's SEQ apart. -/
theorem microSteps_timerIsr_of_changed {s : State} (hscript : s.env.script = []) (ht : takeable s = some .tisr)
    (hraw : s.clk.raw = 10) (hl : s.cfg.legal = true) (hw : s.lcdAnswers = true) :
    microSteps (if s.clk.ms ≠ 9 then 20 else if s.clk.sec ≠ 59 then 32 else 44) s =
      .next (s.timerFired s.clockShown (clockDraws (tick s.clk).2 s.ticked)) := by
  have hrun : Running .tisr { s.ticked with draws := clockDraws (tick s.clk).2 s.ticked } := ⟨hscript, rfl⟩
  obtain ⟨f, hrender⟩ := takes_render hrun hw (clockFits_of_legal hl) (changed_ne_nil_of_carry hraw)
    (digitPair (tick s.clk).1.min s.draws) (digitPair (tick s.clk).1.sec (s.draws + 2))
    (digitSingle (tick s.clk).1.ms (s.draws + 4))
  have hshown : readyAtBoundary s.env.lcd s.clockShown = s.clockShown := by
    simp [readyAtBoundary, State.clockShown, Lcd.guarded]
  rw [← fieldCosts_of_carry hraw (length_digitPair _ _) (length_digitPair _ _) (length_digitSingle _ _),
    microSteps_timerIsr hscript ht hrender (hrun.congr rfl rfl), ← hshown, State.timerFired,
    ← Irq.with_noHandler (inIsr_of_takeable ht)]
  rfl

/-- Settles O49: the firing is counted whatever FG has in progress, and between two requests it leaves the same. -/
theorem tickInsideOperation : Obligations.TickInsideOperation := by
  refine ⟨fun s hscript ht hraw => microSteps_timerIsr_of_unchanged hscript ht hraw,
    fun s hscript ht hraw hl hw _ _ => ?_⟩
  have hidle : State.undisturbed { s with fg := Seq.idle } = true :=
    (undisturbed_iff _).mpr ⟨inIsr_of_takeable ht, rfl, hscript⟩
  exact ⟨_, exec_timerIsr_of_changed hidle hw hraw, microSteps_timerIsr_of_changed hscript ht hraw hl hw⟩

end Sys2Proof.Machine
end

section
/-! PROOF. A settle delay shorter than the EEPROM's write cycle (70_reset_and_hazards.md R265) and the watchdog restart
(70_reset_and_hazards.md R250, 60_exceptions.md R236). -/

namespace Sys2Proof.Machine

/-! ## A settle delay too short -/

/-- What EE_WRITE leaves where it is answered and the write cycle outlasts the settle delay (O7): `State.eeWritten`, the EEPROM
still busy. -/
def State.eeBusyWritten (s : State) (page offset : Byte) (m : Memory) : State :=
  { s.eeWritten page offset m with
    bus := { (s.eeWritten page offset m).bus with ee := { (s.eeWritten page offset m).bus.ee with wbusy := true } } }

section Busy
variable (s : State) (page offset : Byte) (m : Memory)

/-- No operation is answered before the write cycle is over (R67). -/
theorem eepromAnswers_eeBusyWritten : (s.eeBusyWritten page offset m).eepromAnswers = false := by
  simp [State.eepromAnswers, State.eeBusyWritten]

theorem calm_eeBusyWritten : (s.eeBusyWritten page offset m).calm = s.calm := rfl

theorem busFree_eeBusyWritten : (s.eeBusyWritten page offset m).busFree = s.busFree := rfl

/-- The result of the first write, then that of the operation after it. -/
theorem results_eeBusyWritten_done (r : Result) :
    ((s.eeBusyWritten page offset m).done r).results = s.results ++ [.ack false, r] := List.append_assoc ..

end Busy

/-- Settles O12: the state the first write leaves is one in which the EEPROM does not answer (O8, O10). -/
theorem shortSettleGoesUnanswered : Obligations.ShortSettleGoesUnanswered := by
  intro page offset value page' offset' s hp hp' hs hf hl ho ha he hm
  obtain ⟨m, hwrite, hcells⟩ := eeWriteStoresByte page offset value s hp hs hf hl ho ha hm
  have houtlasts : decide (s.env.ee ≠ .settles) = true := by simp [he]
  rw [houtlasts] at hwrite
  have hcalm := (calm_eeBusyWritten s page offset m).trans hs
  have hfree := (busFree_eeBusyWritten s page offset m).trans hf
  have hsilent := eepromAnswers_eeBusyWritten s page offset m
  have hresults := results_eeBusyWritten_done s page offset m
  refine ⟨s.eeBusyWritten page offset m, hwrite, hcells, ?_, fun value' => ?_⟩
  · obtain ⟨d, hread⟩ := eeReadUnanswered page' offset' _ hp' hcalm hfree hl hsilent
    exact ⟨_, d, hread, hresults _, fun _ => rfl⟩
  · have hagain := eeWriteUnanswered page' offset' value' _ hp' hcalm hfree hl hsilent
    exact ⟨_, hagain, hresults _, fun _ => rfl⟩

/-! ## The watchdog restart -/

/-- After a restart no line is held by a slave, whatever was on the bus (R250). -/
theorem slvSda_restartBus (b : Bus) : slvSda (restartBus b) = true := rfl

/-- Where nothing runs, nothing is takeable and FG is idle, the core does nothing at a boundary (R228, R252). -/
theorem coreStep_of_idle {s : State} (hisr : s.irq.inIsr = none) (ht : takeable s = none) (hidle : s.fg = Seq.idle) :
    coreStep s = .next s := by
  have hdone : finish .fg s = s := finish_fg_of_idle hidle s.fg
  simp [coreStep, hisr, ht, ctxStep, State.seq, hidle, Seq.idle, hdone]

/-- A restart alone at a boundary: nothing is in progress or takeable after it, so the micro-step is the restart. -/
theorem microStep_of_watchdog {s : State} {r : List (List Event)} (h : s.env.script = [.watchdog] :: r) :
    microStep s = .next (readyEager (restart { s with env := { s.env with script := r } })) := by
  rw [microStep, boundary_of_move h]
  exact coreStep_of_idle rfl ((takeable_readyEager _).trans (takeable_restart _)) rfl

/-- Settles O50: the state of `restart` holds each value, and LCDDEV's move at the boundary touches the module alone. -/
theorem watchdogRestart : Obligations.WatchdogRestart := by
  intro s r h
  exact ⟨_, microStep_of_watchdog h, rfl, rfl, rfl, rfl, rfl, slvSda_restartBus s.bus, rfl, rfl, rfl, rfl, rfl, rfl, rfl, rfl,
    rfl, rfl, rfl⟩

end Sys2Proof.Machine
end
